-- ==== Sys2Proof/Word.lean ====
section
/-! DEFINITION. The words of INKY-CORE: a byte, the 32-bit word of the host port (spec/00_scope.md R10, HOST_WORD) and
its 24-bit byte address (spec/20_memory.md R60). -/

namespace Sys2Proof

/-- Eight bits: a byte of memory, an opcode, a payload byte, a colour channel. -/
abbrev Byte := BitVec 8

/-- HOST_WORD = 32 bits (R10, R60). -/
abbrev Word := BitVec 32

/-- A byte address of the host port: 24 bits (R60). -/
abbrev HostAddr := BitVec 24

end Sys2Proof
end

