-- ==== Sys2Proof/Config.lean ====
section
/-! DEFINITION. The build parameters the spec leaves OPEN (spec/00_scope.md R10), as plain data a state carries and never
writes, and the free values: constants with no body, of which nothing can be proved. -/

namespace Sys2Proof

/-- An RGB triple, 8 bits a channel (spec/10_state.md R38, R43). -/
structure Rgb where
  r : Byte
  g : Byte
  b : Byte
deriving DecidableEq, Repr, Inhabited

/-- One entry of INIT_SEQUENCE: an opcode and a payload of at least one byte (spec/30_encoding.md R96, R99); the payload
is its first byte and the rest, so that no entry can be without one (DEDUCED, assumption 19). -/
structure InitEntry where
  op : Byte
  first : Byte
  rest : List Byte
deriving DecidableEq, Repr, Inhabited

/-- The identity of an output line: a controller device and an offset on it (spec/43_digital_line.md R185, R190). -/
structure LineId where
  device : Nat
  offset : Nat
deriving DecidableEq, Repr, Inhabited

/-- The OPEN parameters (R10). All are fixed when the block is built; no rule writes one (R42, R43, R77, R190, R201). -/
structure Config where
  /-- PALETTE_RGB[0..6] (R43, D17). -/
  palette : Vector Rgb 7
  /-- INIT_SEQUENCE[0..18] (R42, D26). -/
  initSequence : Vector InitEntry 19
  /-- OP_DTM, OP_PON, OP_DRF, OP_POF, DRF_DATA and POF_DATA (R96, D27). -/
  opDtm : Byte
  opPon : Byte
  opDrf : Byte
  opPof : Byte
  drfData : Byte
  pofData : Byte
  /-- SPI_MODE, 0 to 3 (R210, D18). -/
  spiMode : BitVec 2
  /-- SPI_CLOCK_HZ, a maximum (R201, D18). -/
  spiClockHz : Nat
  /-- RST_LINE and DC_LINE (R190, D20). -/
  rstLine : LineId
  dcLine : LineId
  /-- SRCMEM_WORDS, at most 1835008 (spec/20_memory.md R61, D11). -/
  srcmemWords : Fin 1835009
  /-- By how many microseconds a TICK is longer than the 1 ms it must at least last (spec/70_reset_and_hazards.md R345,
  D35). -/
  tickExtraUs : Nat
  /-- CS_BETWEEN_CHUNKS: CS_N is pulsed high between two sub-transfers (true) or held low (false)
  (spec/44_serial_bus.md R212, D19). -/
  csPulsed : Bool
deriving DecidableEq, Repr, Inhabited

/-- The parameters of the block that State.reset is the reset of. No body: no proof can see a value (DESIGN CHOICE, assumption 2). -/
opaque Config.build : Config

/-- FREE VALUE: byte `k` of draw number `n`: what a host read of unwritten memory returns (spec/10_state.md R48) and a host
read of FRAMEMEM during PREPARE (spec/20_memory.md R67). No body (DESIGN CHOICE, assumption 3). -/
opaque Config.drawByte (n k : Nat) : Byte

/-- FREE VALUE: a level drawn as draw number `n`, such as a pin's level after a failed line write
(spec/43_digital_line.md R187). No body (DESIGN CHOICE, assumption 3). -/
opaque Config.drawBit (n : Nat) : Bool

/-- FREE VALUE: a count drawn as draw number `n`: how many bytes a failed transfer sent (spec/44_serial_bus.md R203).
No body (DESIGN CHOICE, assumption 3). -/
opaque Config.drawCount (n : Nat) : Nat

end Sys2Proof
end

