-- ==== Sys2Proof/Syntax.lean ====
section
/-! DEFINITION. The instructions of INKY-CORE: one constructor per row of spec/opcode_table.json (spec/00_scope.md R2): the
host operations and the illegal command, the 23 protocol steps of the step ROM, and the seven wire micro-operations. -/

namespace Sys2Proof

/-- The two output lines (spec/43_digital_line.md, R45): the panel's reset line and the command/data select line. -/
inductive Line where
  | rst
  | dc
deriving DecidableEq, Repr

/-- The instructions. Host operations come from a word written to CMD (spec/30_encoding.md R90 to R92). Protocol steps and
micro-operations have no host encoding (spec/00_scope.md R17): the engine's own sequence runs them. -/
inductive Instr where
  /-- CMD = 0x00000001: run the image pipeline (spec/46_display_driver.md R281). -/
  | prepare
  /-- CMD = 0x00000002: prepare, then drive the panel (R282, R283). -/
  | render
  /-- Any other word `v` written to CMD (R280). -/
  | illegal (v : Word)
  /-- Protocol step INIT[0] (spec/45_command_protocol.md R241). -/
  | init0
  /-- Protocol step INIT[1] (spec/45_command_protocol.md R242). -/
  | init1
  /-- Protocol step INIT[2] (spec/45_command_protocol.md R243). -/
  | init2
  /-- Protocol step INIT[3] (spec/45_command_protocol.md R244). -/
  | init3
  /-- Protocol step INIT[4] (spec/45_command_protocol.md R245). -/
  | init4
  /-- Protocol step INIT[5] (spec/45_command_protocol.md R246). -/
  | init5
  /-- Protocol step INIT[6] (spec/45_command_protocol.md R247). -/
  | init6
  /-- Protocol step INIT[7] (spec/45_command_protocol.md R248). -/
  | init7
  /-- Protocol step INIT[8] (spec/45_command_protocol.md R249). -/
  | init8
  /-- Protocol step INIT[9] (spec/45_command_protocol.md R250). -/
  | init9
  /-- Protocol step INIT[10] (spec/45_command_protocol.md R251). -/
  | init10
  /-- Protocol step INIT[11] (spec/45_command_protocol.md R252). -/
  | init11
  /-- Protocol step INIT[12] (spec/45_command_protocol.md R253). -/
  | init12
  /-- Protocol step INIT[13] (spec/45_command_protocol.md R254). -/
  | init13
  /-- Protocol step INIT[14] (spec/45_command_protocol.md R255). -/
  | init14
  /-- Protocol step INIT[15] (spec/45_command_protocol.md R256). -/
  | init15
  /-- Protocol step INIT[16] (spec/45_command_protocol.md R257). -/
  | init16
  /-- Protocol step INIT[17] (spec/45_command_protocol.md R258). -/
  | init17
  /-- Protocol step INIT[18] (spec/45_command_protocol.md R259). -/
  | init18
  /-- Protocol step PAINT[0], frame data (spec/45_command_protocol.md R262). -/
  | paint0
  /-- Protocol step PAINT[1], power-on (spec/45_command_protocol.md R263). -/
  | paint1
  /-- Protocol step PAINT[2], start refresh (spec/45_command_protocol.md R264). -/
  | paint2
  /-- Protocol step PAINT[3], power-off (spec/45_command_protocol.md R265). -/
  | paint3
  /-- Open the serial bus with the configured mode and clock (spec/44_serial_bus.md R200). -/
  | busOpen
  /-- Send `bytes`, at least one, under the DC level that stands (R202). -/
  | xfer (bytes : List Byte)
  /-- Close the serial bus (R205). -/
  | busClose
  /-- Claim a line with LINE_FLAGS (spec/43_digital_line.md R185). -/
  | lineClaim (line : Line)
  /-- Drive a claimed line to a level (R186, R187). -/
  | lineSet (line : Line) (level : Bool)
  /-- Release a line (R188). -/
  | lineRelease (line : Line)
  /-- Wait `ms` milliseconds (spec/70_reset_and_hazards.md R345). -/
  | delay (ms : BitVec 16)
deriving DecidableEq, Repr

end Sys2Proof
end

