-- ==== Sys2Proof/WellFormed.lean ====
section
/-! DEFINITION. Which instructions the spec knows as such: an ILLEGAL command is none of the two legal words, and a transfer
has at least one byte. -/

namespace Sys2Proof

/-- Well-formed: ILLEGAL carries a word that is neither PREPARE nor RENDER (spec/30_encoding.md R92), and Xfer's byte list
has length at least 1 (spec/44_serial_bus.md R202, R208). Every other operand may take every value of its type. -/
def Instr.wf : Instr → Bool
  | .illegal v => v != 1 && v != 2
  | .xfer bytes => !bytes.isEmpty
  | _ => true

end Sys2Proof
end

