-- ==== Sys2Proof/Decode.lean ====
section
/-! DEFINITION. Decoding and encoding: the CMD word (spec/30_encoding.md R90 to R92), the byte order of words
(spec/20_memory.md R64), and the framing that a protocol step has on the wire (R97). -/

namespace Sys2Proof

/-- The four bytes of a word, lowest address first: byte `k` is bits `8k+7 : 8k` (spec/20_memory.md R64). -/
def wordBytes (w : Word) : List Byte :=
  [w.extractLsb' 0 8, w.extractLsb' 8 8, w.extractLsb' 16 8, w.extractLsb' 24 8]

/-- The word whose bytes, lowest address first, are these (R64). -/
def wordOfBytes (b0 b1 b2 b3 : Byte) : Word := b3 ++ b2 ++ b1 ++ b0

/-- OP = v[7:0] of a CMD write (spec/10_state.md R23). -/
def cmdOp (v : Word) : Byte := v.extractLsb' 0 8

/-- RSVD = v[31:8] of a CMD write (R23). -/
def cmdRsvd (v : Word) : BitVec 24 := v.extractLsb' 8 24

/-- The command decoder: RSVD must be 0 and OP one of the two operations; every other word is ILLEGAL
(R90, R91, spec/46_display_driver.md R280). It is total: no word is without a meaning. -/
def decodeCmd (v : Word) : Instr :=
  if cmdRsvd v ≠ 0 then .illegal v
  else if cmdOp v = 0x01 then .prepare
  else if cmdOp v = 0x02 then .render
  else .illegal v

/-- Why bytes are no command word. -/
inductive DecodeError where
  /-- Only `have_` bytes are there; a command word has four (R92: one format and one length). -/
  | truncated (have_ : Nat)
deriving DecidableEq, Repr

/-- What decoding a list of bytes answers: an instruction and the bytes after it, or why there is none. -/
inductive DecodeResult where
  | ok (i : Instr) (rest : List Byte)
  | bad (e : DecodeError)
deriving DecidableEq, Repr

/-- Decode the command word that stands first in a list of bytes, in the order of R64. -/
def decode : List Byte → DecodeResult
  | b0 :: b1 :: b2 :: b3 :: rest => .ok (decodeCmd (wordOfBytes b0 b1 b2 b3)) rest
  | bs => .bad (.truncated bs.length)

/-- The CMD word of an instruction that has one (R92). Protocol steps and micro-operations have no host encoding
(spec/00_scope.md R17). -/
def encodeCmd : Instr → Option Word
  | .prepare => some 0x00000001
  | .render => some 0x00000002
  | .illegal v => some v
  | .init0 | .init1 | .init2 | .init3 | .init4 | .init5 | .init6 | .init7 | .init8 | .init9 | .init10 | .init11 | .init12
  | .init13 | .init14 | .init15 | .init16 | .init17 | .init18 => none
  | .paint0 | .paint1 | .paint2 | .paint3 => none
  | .busOpen | .xfer _ | .busClose | .lineClaim _ | .lineSet _ _ | .lineRelease _ | .delay _ => none

/-- The encoder: the bytes of an instruction's CMD word, lowest address first; none for an instruction that no host word
encodes. -/
def encode (i : Instr) : Option (List Byte) := (encodeCmd i).map wordBytes

/-- The instruction the decoder reads from an instruction whose bits are `w`: up to 32 bits are a CMD word, in its byte
order, with zeros above `nbits`. A longer one is no command (R92; DESIGN CHOICE, assumption 14). -/
def decodeTableWord (nbits w : Nat) : Option Instr :=
  if nbits ≤ 32 then
    match decode (wordBytes (BitVec.ofNat 32 (w % 2 ^ nbits))) with
    | .ok i _ => some i
    | .bad _ => none
  else none

/-- A byte on the serial bus with the DC level that stands while it is shifted out: false marks an opcode and true a payload
byte (spec/45_command_protocol.md R232, spec/43_digital_line.md R191). -/
structure BusByte where
  dc : Bool
  byte : Byte
deriving DecidableEq, Repr

/-- A command as a receiver of the wire sees it: an opcode and its payload bytes, none when the payload is absent
(spec/30_encoding.md R97, R98). -/
structure WireCommand where
  op : Byte
  data : List Byte
deriving DecidableEq, Repr

/-- The wire framing of one step: the opcode byte with DC = 0, then the payload bytes with DC = 1 (R97). -/
def frameCommand (c : WireCommand) : List BusByte :=
  ⟨false, c.op⟩ :: c.data.map (fun b => ⟨true, b⟩)

/-- One byte of the receiver's reading of the wire, from the last byte to the first: payload bytes collect until the
opcode before them is met. -/
def deframeByte (b : BusByte) (acc : List Byte × List WireCommand) : List Byte × List WireCommand :=
  if b.dc then (b.byte :: acc.1, acc.2) else ([], ⟨b.byte, acc.1⟩ :: acc.2)

/-- What a receiver reads from the wire: it tells an opcode from a payload byte only by the DC level (R97). None when
payload bytes stand before any opcode. -/
def deframe (bs : List BusByte) : Option (List WireCommand) :=
  match bs.foldr deframeByte ([], []) with
  | ([], cs) => some cs
  | (_ :: _, _) => none

end Sys2Proof
end

