-- ==== Sys2Proof/Machine/State.lean ====
section
/-! DEFINITION. The state of INKY-CORE as plain data (spec/10_state.md), what the outside world can do to it, why a step can
stop, and the state after block reset (R50). -/

namespace Sys2Proof.Machine

/-- Command protocol state, STATUS.PSTATE (R28). -/
inductive PState where
  | unpowered
  | resetting
  | initialized
  | painting
  | settled
deriving DecidableEq, Repr

/-- Engine activity, STATUS.ACT (R32). -/
inductive Act where
  | idle
  | prepare
  | acquire
  | protocol
  | release
deriving DecidableEq, Repr

/-- Error classes, ERROR.CLASS (spec/60_exceptions.md R300). -/
inductive ErrClass where
  | noError
  | invalidImage
  | deviceUnavailable
  | lineRequestFailed
  | lineWriteFailed
  | configurationFailed
  | transferFailed
  | illegalOperation
deriving DecidableEq, Repr

/-- Phases, ERROR.PHASE (R33, R302). -/
inductive Phase where
  | noPhase
  | prepare
  | acquire
  | reset
  | init
  | paint
deriving DecidableEq, Repr

/-- A position of the engine: phase, step within it, micro-operation within the step (R302). -/
structure Pos where
  phase : Phase
  step : BitVec 8
  uop : BitVec 4
deriving DecidableEq, Repr

/-- A failure with the position it is to be recorded under: the arguments of raise Err (spec/00_scope.md R15). -/
structure Failure where
  cls : ErrClass
  pos : Pos
deriving DecidableEq, Repr

/-- The ERROR register's fields (R33). -/
structure ErrorReg where
  cls : ErrClass
  wrapped : Bool
  phase : Phase
  step : BitVec 8
  uop : BitVec 4
deriving DecidableEq, Repr

/-- One accumulator of the ditherer: three 13-bit two's-complement integers (R39). -/
structure ErrTriple where
  r : BitVec 13
  g : BitVec 13
  b : BitVec 13
deriving DecidableEq, Repr, Inhabited

/-- The configuration of the open bus (R44). -/
structure BusSetup where
  mode : BitVec 2
  hz : Nat
deriving DecidableEq, Repr

/-- The state of one output line: claimed(L) and level(L) (R45). -/
structure LineState where
  claimed : Bool
  level : Bool
deriving DecidableEq, Repr

/-- LINE_FLAGS: the requested electrical configuration of a line (R45, spec/43_digital_line.md R185). -/
structure LineFlags where
  output : Bool
  pullDown : Bool
deriving DecidableEq, Repr

/-- A pin of the block (R46): not driven by the block, whatever its level then is, or driven to a level. -/
inductive Pin where
  | undriven
  | driven (level : Bool)
deriving DecidableEq, Repr

/-- A change of level on one of the bus pins that the block drives (R46, spec/44_serial_bus.md R210 to R212). -/
inductive PinMove where
  | csN (level : Bool)
  | sclk (level : Bool)
  | mosi (level : Bool)
deriving DecidableEq, Repr

/-- The wire events of the trace (spec/00_scope.md R14). -/
inductive WireEvent where
  | busOpen (mode : BitVec 2) (hz : Nat)
  | busClose
  | lineClaim (line : Line) (flags : LineFlags)
  | lineRelease (line : Line)
  | lineSet (line : Line) (level : Bool)
  | xfer (dc : Bool) (bytes : List Byte)
  | delay (ms : BitVec 16)
deriving DecidableEq, Repr

/-- What the environment answers to a fallible wire event: ok or a failure class (R14). -/
inductive Answer where
  | ok
  | fail (cls : ErrClass)
deriving DecidableEq, Repr

/-- A payload of a step ROM entry: NONE, CONST(byte list) or FRAME (spec/30_encoding.md R95). -/
inductive Payload where
  | absent
  | const (bytes : List Byte)
  | frame
deriving DecidableEq, Repr

/-- A wire event the engine asks for. -/
inductive Request where
  | busOpen
  | busClose
  | lineClaim (line : Line)
  | lineRelease (line : Line)
  | lineSet (line : Line) (level : Bool)
  | xfer (payload : Payload)
  | delay (ms : BitVec 16)
deriving DecidableEq, Repr

/-- The actions the engine's sequence is made of. The order of a host operation is fixed (R21), so the rest of the operation
in progress is a list of these. -/
inductive Op where
  /-- STATUS.ACT is written (R32). -/
  | setAct (a : Act)
  /-- STATUS.PSTATE is written, and STEP becomes 0 (R28, R29). -/
  | setPState (p : PState)
  /-- STATUS.STEP is written (R29). -/
  | setStep (k : BitVec 8)
  /-- The micro-operation that follows has this position (spec/60_exceptions.md R302). -/
  | setPos (p : Pos)
  /-- Work of the engine's own that takes some time: it waits for `Input.work` (DESIGN CHOICE, assumption 4). -/
  | gate
  /-- Emit the wire event of a request (R14). -/
  | request (r : Request)
  /-- Stay in the wire event until the environment answers it (R14, spec/70_reset_and_hazards.md R351). -/
  | await
  /-- Raise the failure an answer left, if any (R15). -/
  | check
  /-- Count the delay timer down (R345). -/
  | timer
  /-- PREPARE's parts (spec/46_display_driver.md R281). -/
  | dimensionCheck
  | fit
  | background
  | resample
  | dither
  | pack
  /-- The last action of an operation: idle, DONE or ERR set, BUSY cleared (R25, R26). -/
  | finish (success : Bool)
deriving DecidableEq, Repr

/-- A transaction of the host port: an address, a size in bytes and, for a write, a value (spec/20_memory.md R60, R63). -/
inductive HostTxn where
  | read (addr : HostAddr) (size : Nat)
  | write (addr : HostAddr) (size : Nat) (value : Word)
deriving DecidableEq, Repr

/-- What the outside world does next: the host, the environment, time and the reset input (R20; DESIGN CHOICE, assumption 1). -/
inductive Input where
  /-- A host transaction takes effect (R72). -/
  | host (t : HostTxn)
  /-- The environment answers the wire event in progress (R14). -/
  | answer (a : Answer)
  /-- The engine's own work goes on by one action (DESIGN CHOICE, assumption 4). -/
  | work
  /-- One TICK of the delay timer passes (spec/70_reset_and_hazards.md R345). -/
  | tick
  /-- The serial bus carries out the next change of level of the transfer in progress (spec/44_serial_bus.md R210 to R212;
  DESIGN CHOICE, assumption 33). -/
  | edge
  /-- Block reset is asserted (R330), for a moment: the next input finds it released (DESIGN CHOICE, assumption 35). -/
  | reset
deriving DecidableEq, Repr

/-- What a host read returned. -/
structure HostRead where
  addr : HostAddr
  value : Word
deriving DecidableEq, Repr

/-- SRCMEM and FRAMEMEM, by host byte address: strictly rising, a byte that nothing has written since block reset not listed
(R37, R41, R48). -/
abbrev Memory := List Host.Cell

/-- The state of the block. -/
structure State where
  /-- The build parameters, never written (R10, R42, R43). -/
  cfg : Config
  /-- STATUS.BUSY, DONE, ERR and OVERRUN (R24 to R27, R49). -/
  busy : Bool
  statusDone : Bool
  statusErr : Bool
  overrun : Bool
  /-- STATUS.PSTATE, STEP and ACT (R28, R29, R32). -/
  pstate : PState
  stepIx : BitVec 8
  act : Act
  /-- ERROR (R33). -/
  error : ErrorReg
  /-- SRC_DIM, FIT_ORIGIN and FIT_SIZE (R34, R35). -/
  srcDim : Word
  fitOrigin : Word
  fitSize : Word
  /-- SRCMEM and FRAMEMEM (R37, R41). -/
  mem : Memory
  /-- CT in raster order; empty when nothing has written it since block reset (R38, R50). -/
  ct : Array Rgb
  /-- E over the fitted region, row by row; empty when nothing has written it (R39, R50). -/
  errAcc : Array ErrTriple
  /-- IDX in raster order; empty when nothing has written it (R40, R50). -/
  idx : Array (BitVec 3)
  /-- bus_open, and the configured pair while open (R44); STATUS.BUS_HELD mirrors it (R30). -/
  bus : Option BusSetup
  /-- The lines RST and DC (R45); STATUS.RST_HELD, DC_HELD, RST_LEVEL and DC_LEVEL mirror them (R30, R31). -/
  rst : LineState
  dc : LineState
  /-- The external pins the block drives (R46). -/
  pinSclk : Pin
  pinMosi : Pin
  pinCsN : Pin
  pinRst : Pin
  pinDc : Pin
  /-- The delay timer's down-counter (R47). -/
  dly : BitVec 16
  /-- The wire events so far, oldest first (R14). -/
  trace : List WireEvent
  /-- The environment's answers to the fallible events of the trace, oldest first (R102). -/
  outcomes : List Answer
  /-- The bytes shifted out on MOSI so far, each under its DC level, oldest first (spec/44_serial_bus.md R202, R203). -/
  shifted : List BusByte
  /-- The changes of level of the bus pins during transfers so far, oldest first (spec/44_serial_bus.md R210 to R212). -/
  wave : List PinMove
  /-- The changes of level that the transfer in progress has still to make, in order; none when no transfer is (R204). -/
  moves : List PinMove
  /-- The position of the micro-operation in progress (R21, R302). -/
  pos : Pos
  /-- The first failure the micro-operations of the step left to be raised (spec/45_command_protocol.md R233). -/
  held : Option Failure
  /-- The wire event whose outcome the engine waits for (spec/70_reset_and_hazards.md R351). -/
  outstanding : Option WireEvent
  /-- What remains of the operation in progress after the action in hand (R21). -/
  todo : List Op
  /-- The model's own: what the outside world still does, in order (DESIGN CHOICE, assumption 1). -/
  inputs : List Input
  /-- The model's own: what the host's reads returned, oldest first (DESIGN CHOICE, assumption 1). -/
  reads : List HostRead
  /-- The model's own: how many free values have been drawn (DESIGN CHOICE, assumption 3). -/
  draws : Nat
deriving DecidableEq, Repr

/-- Why the machine stops with a fault. Each is one the spec tells a model to raise (DEDUCED, assumption 23). -/
inductive Fault where
  /-- Raised by the resample action of PREPARE and RENDER when SRCMEM word `word`, which the pipeline reads, holds no value
  (spec/10_state.md R48, 93 U12). Safe: hardware would go on with some frame. -/
  | unwrittenSource (word : Nat)
  /-- Raised by LineSet on a line that is not claimed (spec/43_digital_line.md R189, 93 U19). Safe: no run reaches it. -/
  | lineNotClaimed (line : Line)
  /-- Raised by Xfer while the bus is closed (spec/44_serial_bus.md R207, 93 U19). Safe: no run reaches it. -/
  | busClosed
deriving DecidableEq, Repr

/-- Why a step has no meaning. -/
inductive Refusal where
  /-- An instruction that has no meaning in the model yet, by its mnemonic; no arm of exec answers it. Safe. -/
  | notModelled (mnemonic : String)
  /-- Raised for a host transaction that is not a 32-bit access at a multiple of 4: the block defines no behaviour for it
  and a model refuses it (spec/20_memory.md R63, 93 U14). Safe. -/
  | hostAccess (addr : HostAddr) (size : Nat)
deriving DecidableEq, Repr

/-- ERROR = 0: no failure (R33, R50). -/
def ErrorReg.clear : ErrorReg := ⟨.noError, false, .noPhase, 0, 0⟩

/-- A line that is not claimed; its level reads 0 (R31). -/
def LineState.released : LineState := ⟨false, false⟩

/-- The state after block reset of a block built with these parameters (R50, R330, R331); the model's own fields as they
stand before anything has happened. What the table leaves undefined or does not name holds the model's value (DESIGN CHOICE,
assumptions 15 and 16). -/
def State.resetOf (cfg : Config) : State where
  cfg := cfg
  busy := false
  statusDone := false
  statusErr := false
  overrun := false
  pstate := .unpowered
  stepIx := 0
  act := .idle
  error := .clear
  srcDim := 0
  fitOrigin := 0
  fitSize := 0
  mem := []
  ct := #[]
  errAcc := #[]
  idx := #[]
  bus := none
  rst := .released
  dc := .released
  pinSclk := .undriven
  pinMosi := .undriven
  pinCsN := .undriven
  pinRst := .undriven
  pinDc := .undriven
  dly := 0
  trace := []
  outcomes := []
  shifted := []
  wave := []
  moves := []
  pos := ⟨.noPhase, 0, 0⟩
  held := none
  outstanding := none
  todo := []
  inputs := []
  reads := []
  draws := 0

/-- The machine right after reset (R50). -/
def State.reset : State := State.resetOf Config.build

end Sys2Proof.Machine
end

