-- ==== Sys2Proof/Machine/Flags.lean ====
section
/-! DEFINITION. The words the host reads from STATUS and ERROR: the codes of every field (spec/10_state.md R24, R28, R32,
R33; spec/60_exceptions.md R300) and the flag rules of STATUS (R25, R26, R27, R49). -/

namespace Sys2Proof.Machine

/-- The code of STATUS.PSTATE (R28); 5, 6 and 7 are no state's code. -/
def pstateCode : PState → BitVec 3
  | .unpowered => 0
  | .resetting => 1
  | .initialized => 2
  | .painting => 3
  | .settled => 4

/-- The code of STATUS.ACT (R32); 5, 6 and 7 are no activity's code. -/
def actCode : Act → BitVec 3
  | .idle => 0
  | .prepare => 1
  | .acquire => 2
  | .protocol => 3
  | .release => 4

/-- The code of ERROR.CLASS (spec/60_exceptions.md R300); 8 to 15 are no class's code. -/
def classCode : ErrClass → BitVec 4
  | .noError => 0
  | .invalidImage => 1
  | .deviceUnavailable => 2
  | .lineRequestFailed => 3
  | .lineWriteFailed => 4
  | .configurationFailed => 5
  | .transferFailed => 6
  | .illegalOperation => 7

/-- The code of ERROR.PHASE (R33); 6 and 7 are no phase's code. -/
def phaseCode : Phase → BitVec 3
  | .noPhase => 0
  | .prepare => 1
  | .acquire => 2
  | .reset => 3
  | .init => 4
  | .paint => 5

/-- Failures of the init and paint steps are wrapped (spec/60_exceptions.md R301). -/
def wrapsIn : Phase → Bool
  | .init => true
  | .paint => true
  | .noPhase => false
  | .prepare => false
  | .acquire => false
  | .reset => false

/-- The word a host read of STATUS returns (R24): reserved bits 31:24 and 7 are 0, the held bits and levels mirror the bus
and the lines (R30, R31, R44, R45). -/
def statusWord (s : State) : Word :=
  (0 : BitVec 8) ++ actCode s.act ++ BitVec.ofBool s.dc.level ++ BitVec.ofBool s.rst.level ++ BitVec.ofBool s.dc.claimed
    ++ BitVec.ofBool s.rst.claimed ++ BitVec.ofBool s.bus.isSome ++ s.stepIx ++ (0 : BitVec 1) ++ pstateCode s.pstate
    ++ BitVec.ofBool s.overrun ++ BitVec.ofBool s.statusErr ++ BitVec.ofBool s.statusDone ++ BitVec.ofBool s.busy

/-- The word a host read of ERROR returns (R33): reserved bits 31:20 are 0. -/
def errorWord (e : ErrorReg) : Word :=
  (0 : BitVec 12) ++ e.uop ++ e.step ++ phaseCode e.phase ++ BitVec.ofBool e.wrapped ++ classCode e.cls

/-- ERROR as raise Err(class, phase, step, uop) writes it (spec/60_exceptions.md R305). -/
def errorOf (f : Failure) : ErrorReg := ⟨f.cls, wrapsIn f.pos.phase, f.pos.phase, f.pos.step, f.pos.uop⟩

/-- What the decoding of a CMD write while BUSY is 0 clears: DONE, ERR, OVERRUN and ERROR (spec/46_display_driver.md R280,
spec/10_state.md R26, R27, R33). -/
def clearForCommand (s : State) : State :=
  { s with statusDone := false, statusErr := false, overrun := false, error := .clear }

/-- A host write that is dropped because BUSY is 1 sets OVERRUN and has no other effect (R27). -/
def dropWrite (s : State) : State := { s with overrun := true }

/-- The last action of an operation: ACT IDLE, exactly one of DONE and ERR set, BUSY cleared (R25, R26; R281, R283, R305);
nothing of the operation remains. -/
def finishOperation (success : Bool) (s : State) : State :=
  { s with act := .idle, statusDone := success, statusErr := !success, busy := false, todo := [] }

end Sys2Proof.Machine
end

