-- ==== Sys2Proof/Machine/Operands.lean ====
section
/-! DEFINITION. The fields of words and the operands of steps: SRC_DIM, FIT_ORIGIN and FIT_SIZE (spec/10_state.md R34, R35),
the source pixel word (spec/30_encoding.md R93), and the entries of the step ROM (R95, R96). -/

namespace Sys2Proof.Machine

/-- SRC_W = SRC_DIM[15:0] (R34). -/
def srcW (s : State) : Nat := (s.srcDim.extractLsb' 0 16).toNat

/-- SRC_H = SRC_DIM[31:16] (R34). -/
def srcH (s : State) : Nat := (s.srcDim.extractLsb' 16 16).toNat

/-- The word {hi[15:0], lo[15:0]} (R35). -/
def pairWord (hi lo : Nat) : Word := BitVec.ofNat 16 hi ++ BitVec.ofNat 16 lo

/-- A source pixel's R, G and B samples; the A sample is ignored (spec/30_encoding.md R93). -/
def pixelRgb (w : Word) : Rgb := ⟨w.extractLsb' 0 8, w.extractLsb' 8 8, w.extractLsb' 16 8⟩

/-- CANVAS_W, CANVAS_H, PIXELS, FRAME_BYTES, CHUNK_MAX (spec/00_scope.md R10). -/
def canvasW : Nat := 800
def canvasH : Nat := 480
def pixels : Nat := 384000
def frameBytes : Nat := 192000
def chunkMax : Nat := 4096

/-- LINE_FLAGS: direction output, bias pull-down (R10, R45). -/
def lineFlags : LineFlags := ⟨true, true⟩

/-- The fixed identity of a line (spec/43_digital_line.md R190). -/
def lineIdentity (cfg : Config) : Line → LineId
  | .rst => cfg.rstLine
  | .dc => cfg.dcLine

/-- A step ROM entry: opcode, payload, and the settle delay after the step, 0 for none (spec/30_encoding.md R95). -/
structure RomEntry where
  op : Byte
  payload : Payload
  delayMs : BitVec 16
deriving DecidableEq, Repr

/-- The entry INIT[k]: INIT_SEQUENCE[k], no delay (R96, R239). -/
def initEntry (cfg : Config) (k : Fin 19) : RomEntry :=
  let e := cfg.initSequence[k]
  ⟨e.op, .const (e.first :: e.rest), 0⟩

/-- The entries PAINT[0..3]: frame data, power-on, start refresh, power-off, with their delays (R96). -/
def paintEntry (cfg : Config) : Fin 4 → RomEntry
  | 0 => ⟨cfg.opDtm, .frame, 1000⟩
  | 1 => ⟨cfg.opPon, .absent, 1000⟩
  | 2 => ⟨cfg.opDrf, .const [cfg.drfData], 35000⟩
  | 3 => ⟨cfg.opPof, .const [cfg.pofData], 1000⟩

/-- The 23 entries of the step ROM in execution order (R96). -/
def stepRom (cfg : Config) : List RomEntry :=
  (List.finRange 19).map (initEntry cfg) ++ (List.finRange 4).map (paintEntry cfg)

/-- Is a payload absent? One of length 0 is treated exactly as absent (R98). -/
def Payload.isAbsent : Payload → Bool
  | .absent => true
  | .const bytes => bytes.isEmpty
  | .frame => false

end Sys2Proof.Machine
end

