-- ==== Sys2Proof/Machine/Ops.lean ====
section
/-! DEFINITION. The named operations over memory, lines, pins and the trace, and the abort path that every failure takes
(spec/20_memory.md, spec/43_digital_line.md, spec/44_serial_bus.md, spec/60_exceptions.md R305). -/

namespace Sys2Proof.Machine

/-! ### Memory -/

/-- First byte addresses of SRCMEM and FRAMEMEM (spec/20_memory.md R61). -/
def srcBase : Nat := 0x100000
def frameBase : Nat := 0x800000

/-- The canonical form: addresses strictly rising. A byte nothing has written reads as no value, so no entry can equal what
an unlisted address reads as. -/
abbrev Memory.wf (m : Memory) : Prop := m.Pairwise (fun a b => a.1 < b.1)

/-- The byte at an address; none when nothing has written it since block reset (spec/10_state.md R48). -/
def memRead (m : Memory) (a : Nat) : Option Byte := List.lookup a m

/-- The cells of a byte list laid out from an address on, lowest address first. -/
def cellsFrom (a : Nat) : List Byte → Memory
  | [] => []
  | b :: bs => (a, b) :: cellsFrom (a + 1) bs

/-- Write bytes from an address on; every other byte keeps what it held. The one operation that writes memory. -/
def memWrite (m : Memory) (a : Nat) (bs : List Byte) : Memory :=
  m.filter (fun c => c.1 < a) ++ cellsFrom a bs ++ m.filter (fun c => a + bs.length ≤ c.1)

/-- The little-endian word at an address (R64), none unless all four bytes hold a value. -/
def memReadWord (m : Memory) (a : Nat) : Option Word :=
  match memRead m a, memRead m (a + 1), memRead m (a + 2), memRead m (a + 3) with
  | some b0, some b1, some b2, some b3 => some (wordOfBytes b0 b1 b2 b3)
  | _, _, _, _ => none

/-- Write a word, little-endian (R64). -/
def memWriteWord (m : Memory) (a : Nat) (w : Word) : Memory := memWrite m a (wordBytes w)

/-- The byte at an address, or byte `k` of draw `n` where nothing has written it (spec/10_state.md R48). -/
def byteOrDraw (m : Memory) (n k a : Nat) : Byte := (memRead m a).getD (Config.drawByte n k)

/-- The `len` bytes from an address on, each drawn where nothing has written it
(DESIGN CHOICE, assumption 28). -/
def bytesOrDraw (m : Memory) (n a len : Nat) : List Byte := (List.range len).map (fun k => byteOrDraw m n k (a + k))

/-! ### Trace, lines and pins -/

/-- Append an event to the trace (spec/00_scope.md R14). -/
def emitEvent (e : WireEvent) (s : State) : State := { s with trace := s.trace ++ [e] }

/-- Emit a fallible event and wait for its outcome (R14). -/
def issueEvent (e : WireEvent) (s : State) : State := { emitEvent e s with outstanding := some e }

/-- The state of a line (spec/10_state.md R45). -/
def lineOf (s : State) : Line → LineState
  | .rst => s.rst
  | .dc => s.dc

/-- The pin of a line (R46). -/
def pinOf (s : State) : Line → Pin
  | .rst => s.pinRst
  | .dc => s.pinDc

/-- Write a line's state and its pin. -/
def setLine (l : Line) (v : LineState) (p : Pin) (s : State) : State :=
  match l with
  | .rst => { s with rst := v, pinRst := p }
  | .dc => { s with dc := v, pinDc := p }

/-- CPOL and CPHA of a clock mode: SPI_MODE = 2*CPOL + CPHA (spec/44_serial_bus.md R210). -/
def cpol (mode : BitVec 2) : Bool := mode.getLsbD 1
def cpha (mode : BitVec 2) : Bool := mode.getLsbD 0

/-- The bus pins while no transfer is in progress: SCLK at its idle level CPOL, CS_N high (R200, R210, R212), MOSI at a
level no rule gives (DESIGN CHOICE, assumption 9). -/
def busPinsIdle (s : State) : State :=
  { s with pinSclk := .driven (cpol s.cfg.spiMode), pinCsN := .driven true,
           pinMosi := .driven (Config.drawBit s.draws), draws := s.draws + 1 }

/-- One change of level on a bus pin (R46). -/
def movePin (m : PinMove) (s : State) : State :=
  match m with
  | .csN level => { s with pinCsN := .driven level }
  | .sclk level => { s with pinSclk := .driven level }
  | .mosi level => { s with pinMosi := .driven level }

/-- The next change of level of the transfer in progress happens, if one is left to make; only an open bus drives its pins
(R205, R210 to R212). -/
def clockEdge (s : State) : State :=
  match s.bus, s.moves with
  | some _, m :: rest => { movePin m s with moves := rest, wave := s.wave ++ [m] }
  | _, _ => s

/-- The bus pins while the block does not drive them (R205). -/
def busPinsUndriven (s : State) : State :=
  { s with pinSclk := .undriven, pinMosi := .undriven, pinCsN := .undriven }

/-- LineRelease: the event, the line no longer claimed and its level 0, the pin no longer driven
(spec/43_digital_line.md R188); the same for a line that is not claimed (DEDUCED, assumption 30). -/
def releaseLine (l : Line) (s : State) : State := setLine l .released .undriven (emitEvent (.lineRelease l) s)

/-- BusClose: the event, the bus closed, its pins no longer driven (spec/44_serial_bus.md R205). -/
def closeBus (s : State) : State := { busPinsUndriven (emitEvent .busClose s) with bus := none }

/-- Delay(ms): the event, and the down-counter loaded (spec/70_reset_and_hazards.md R345). -/
def startDelay (ms : BitVec 16) (s : State) : State := { emitEvent (.delay ms) s with dly := ms }

/-! ### Failures -/

/-- Keep the failure of the micro-operation in progress until it is raised; the first one in program order stays
(spec/60_exceptions.md R304, spec/45_command_protocol.md R233). -/
def noteFailure (c : ErrClass) (s : State) : State :=
  match s.held with
  | none => { s with held := some ⟨c, s.pos⟩ }
  | some _ => s

/-- raise Err during an accepted operation: ERROR is written, the operation stops, ACT is RELEASE
(spec/60_exceptions.md R305); what is held is then released by the abort sequence. ERROR and ACT are written in one action, so no
host transaction falls between these two lines of R305 (DESIGN CHOICE, assumption 34). -/
def raiseError (f : Failure) (s : State) : State :=
  { s with error := errorOf f, act := .release, held := none, outstanding := none, todo := [] }

/-- raise Err(IllegalOperation, NONE, 0, 0), before any operation is accepted: ERROR is written, then ERR is set; BUSY
stays 0 (R305, spec/46_display_driver.md R280). -/
def raiseIllegal (s : State) : State :=
  { s with error := errorOf ⟨.illegalOperation, ⟨.noPhase, 0, 0⟩⟩, statusErr := true }

/-- The releases of the abort path, in its order: DC, RST, bus, each only if it is held, then the operation's end with ERR
set (R305). -/
def abortSequence (s : State) : List Op :=
  (if s.dc.claimed then [.gate, .request (.lineRelease .dc)] else [])
    ++ (if s.rst.claimed then [.gate, .request (.lineRelease .rst)] else [])
    ++ (if s.bus.isSome then [.gate, .request .busClose] else [])
    ++ [.gate, .finish false]

/-- Block reset (spec/70_reset_and_hazards.md R330): everything takes its value of spec/10_state.md R50, at once and with no
event; the build parameters stay (R333), and so do the model's own fields: what the outside world does, what the host has
read, how many values were drawn (DESIGN CHOICE, assumption 12). -/
def blockReset (s : State) : State :=
  { State.resetOf s.cfg with inputs := s.inputs, reads := s.reads, draws := s.draws }

end Sys2Proof.Machine
end

