-- ==== Sys2Proof/Machine/Fit.lean ====
section
/-! DEFINITION. PREPARE's first parts: the dimension check, the fit, the background and bilinear resampling
(spec/40_fit_resample.md). Everything is exact integer arithmetic. -/

namespace Sys2Proof.Machine

/-- The fitted region: origin and size on the canvas (R121). -/
structure Region where
  x0 : Nat
  y0 : Nat
  fw : Nat
  fh : Nat
deriving DecidableEq, Repr

/-- The dimension check: a zero dimension first, then the capacity (R120, spec/60_exceptions.md R304). -/
def dimensionError (words w h : Nat) : Option Failure :=
  if w = 0 ∨ h = 0 then some ⟨.invalidImage, ⟨.prepare, 0, 0⟩⟩
  else if words < w * h then some ⟨.invalidImage, ⟨.prepare, 0, 1⟩⟩
  else none

/-- The fit: the comparison r > 800/480 by cross-multiplication, floor in both divisions and in the centring (R121). -/
def fitRegion (w h : Nat) : Region :=
  if h * canvasW < w * canvasH then
    let fh := (canvasW * h) / w
    ⟨0, (canvasH - fh) / 2, canvasW, fh⟩
  else
    let fw := (canvasH * w) / h
    ⟨(canvasW - fw) / 2, 0, fw, canvasH⟩

/-- The fit's results in FIT_ORIGIN and FIT_SIZE (R121, spec/10_state.md R35). -/
def storeFit (r : Region) (s : State) : State :=
  { s with fitOrigin := pairWord r.y0 r.x0, fitSize := pairWord r.fh r.fw }

/-- The region that FIT_ORIGIN and FIT_SIZE hold (spec/10_state.md R35). -/
def storedRegion (s : State) : Region :=
  ⟨(s.fitOrigin.extractLsb' 0 16).toNat, (s.fitOrigin.extractLsb' 16 16).toNat,
   (s.fitSize.extractLsb' 0 16).toNat, (s.fitSize.extractLsb' 16 16).toNat⟩

/-- Is canvas pixel (x, y) in the fitted region (R121)? -/
def inRegion (r : Region) (x y : Nat) : Bool :=
  r.x0 ≤ x && x < r.x0 + r.fw && (r.y0 ≤ y && y < r.y0 + r.fh)

/-- Two source coordinates on an axis with their weights over a common denominator (R125). -/
structure AxisMap where
  lo : Nat
  hi : Nat
  wlo : Nat
  whi : Nat
  den : Nat
deriving DecidableEq, Repr

/-- The numerator of the continuous source coordinate of position `i`: n / (2F) = (i + 1/2) * S / F - 1/2 (R125). -/
def axisNumerator (i len fitted : Nat) : Int := (2 * i + 1) * len - fitted

/-- The axis map of destination position `i` of `fitted` onto a source axis of `len` samples, clamped at both ends (R125). -/
def axis (i len fitted : Nat) : AxisMap :=
  let den := 2 * fitted
  let n := axisNumerator i len fitted
  let lo := if n ≤ 0 then 0 else if ((len : Int) - 1) * den ≤ n then len - 1 else (n / den).toNat
  let a := if n ≤ 0 then 0 else if ((len : Int) - 1) * den ≤ n then 0 else (n % den).toNat
  ⟨lo, min (lo + 1) (len - 1), den - a, a, den⟩

/-- One channel of one resampled pixel: the weighted sum of the 2 x 2 footprint, rounded half up (R123). -/
def blendChannel (ax ay : AxisMap) (p00 p10 p01 p11 : Byte) : Byte :=
  let total := ax.wlo * ay.wlo * p00.toNat + ax.whi * ay.wlo * p10.toNat
    + ax.wlo * ay.whi * p01.toNat + ax.whi * ay.whi * p11.toNat
  BitVec.ofNat 8 ((2 * total + ax.den * ay.den) / (2 * (ax.den * ay.den)))

/-- The resampled pixel at (i, j) of the region, from source pixels `src` of a `w` x `h` image (R123). -/
def resamplePixel (src : Nat → Nat → Rgb) (w h : Nat) (r : Region) (i j : Nat) : Rgb :=
  let ax := axis i w r.fw
  let ay := axis j h r.fh
  let p00 := src ax.lo ay.lo
  let p10 := src ax.hi ay.lo
  let p01 := src ax.lo ay.hi
  let p11 := src ax.hi ay.hi
  ⟨blendChannel ax ay p00.r p10.r p01.r p11.r, blendChannel ax ay p00.g p10.g p01.g p11.g,
   blendChannel ax ay p00.b p10.b p01.b p11.b⟩

/-- The background: every CT pixel is PALETTE_RGB[1] (R122, BG_INDEX of spec/00_scope.md R10). -/
def backgroundCanvas (cfg : Config) : Array Rgb := Array.replicate pixels cfg.palette[1]

/-- Resampling: every CT pixel of the region is written, the others keep what they held (R123, R124). -/
def resampleCanvas (src : Nat → Nat → Rgb) (w h : Nat) (r : Region) (ct : Array Rgb) : Array Rgb :=
  ct.mapIdx (fun p old =>
    let x := p % canvasW
    let y := p / canvasW
    if inRegion r x y then resamplePixel src w h r (x - r.x0) (y - r.y0) else old)

/-- The host byte address of SRCMEM word `k` (spec/20_memory.md R61, R66). -/
def srcAddr (k : Nat) : Nat := srcBase + 4 * k

/-- The first SRCMEM word below `n` that nothing has written since block reset (spec/10_state.md R48). PREPARE reads
exactly the words below SRC_W * SRC_H (spec/20_memory.md R66; DEDUCED, assumption 6). -/
def unwrittenWord (m : Memory) (n : Nat) : Option Nat :=
  (List.range n).find? (fun k => (memReadWord m (srcAddr k)).isNone)

/-- Source pixel (x, y) of an image of width `w` (spec/20_memory.md R66, spec/30_encoding.md R93). The value for a word that
nothing has written is never used: the pipeline faults on it first. -/
def sourcePixel (m : Memory) (w x y : Nat) : Rgb := pixelRgb ((memReadWord m (srcAddr (y * w + x))).getD 0)

end Sys2Proof.Machine
end

