-- ==== Sys2Proof/Machine/Dither.lean ====
section
/-! DEFINITION. The error-diffusion ditherer and 7-colour quantizer (spec/41_dither.md). -/

namespace Sys2Proof.Machine

/-- clamp(v, lo, hi) (spec/00_scope.md R12). -/
def clamp (v lo hi : Int) : Int := if v < lo then lo else if hi < v then hi else v

/-- A quantization error: one integer a channel (R155). -/
structure Diff where
  r : Int
  g : Int
  b : Int
deriving DecidableEq, Repr

/-- The working value of one channel: the sample plus a sixteenth of the accumulated error, divided toward zero, clamped to
8 bits (R152). -/
def workingChannel (c : Byte) (e : BitVec 13) : Byte :=
  BitVec.ofInt 8 (clamp (c.toNat + Int.tdiv e.toInt 16) 0 255)

/-- The working value of a pixel (R152). -/
def workingValue (c : Rgb) (e : ErrTriple) : Rgb :=
  ⟨workingChannel c.r e.r, workingChannel c.g e.g, workingChannel c.b e.b⟩

/-- v.c - q.c for one channel (R155). -/
def channelDiff (v q : Byte) : Int := (v.toNat : Int) - q.toNat

/-- The quantization error of a working value against a palette colour (R155). -/
def quantError (v q : Rgb) : Diff := ⟨channelDiff v.r q.r, channelDiff v.g q.g, channelDiff v.b q.b⟩

/-- Squared Euclidean distance in 8-bit RGB (R153). -/
def colourDist (v q : Rgb) : Int := (quantError v q).r ^ 2 + (quantError v q).g ^ 2 + (quantError v q).b ^ 2

/-- The nearest palette index: the least index whose distance no other undercuts (R153). Only a strictly smaller distance
moves the choice to a later index. -/
def nearest (palette : Vector Rgb 7) (v : Rgb) : Fin 7 :=
  (List.finRange 7).foldl
    (fun best k => if colourDist v palette[k] < colourDist v palette[best] then k else best) 0

/-- Add a multiple of an error to one accumulator, per channel, in 13 bits (R156, spec/10_state.md R39). -/
def addShare (weight : Int) (d : Diff) (e : ErrTriple) : ErrTriple :=
  ⟨BitVec.ofInt 13 (e.r.toInt + weight * d.r), BitVec.ofInt 13 (e.g.toInt + weight * d.g),
   BitVec.ofInt 13 (e.b.toInt + weight * d.b)⟩

/-- diffuse(p, q, weight * e): the share goes to E[p][q] if that lies in the region and is discarded otherwise (R156). -/
def diffuse (r : Region) (p q : Int) (weight : Int) (d : Diff) (err : Array ErrTriple) : Array ErrTriple :=
  if 0 ≤ p ∧ p < r.fw ∧ 0 ≤ q ∧ q < r.fh then
    err.modify (q.toNat * r.fw + p.toNat) (addShare weight d)
  else err

/-- The four shares of Floyd and Steinberg: right 7, bottom-left 3, bottom 5, bottom-right 1 (R156). -/
def diffuseAll (r : Region) (i j : Nat) (d : Diff) (err : Array ErrTriple) : Array ErrTriple :=
  diffuse r (i + 1) (j + 1) 1 d (diffuse r i (j + 1) 5 d (diffuse r (i - 1) (j + 1) 3 d (diffuse r (i + 1) j 7 d err)))

/-- The buffers the dither pass writes: E and IDX (R150). -/
structure DitherBuffers where
  err : Array ErrTriple
  idx : Array (BitVec 3)
deriving DecidableEq, Repr

/-- The raster position of canvas pixel (x, y). -/
def rasterPos (x y : Nat) : Nat := canvasW * y + x

/-- The working value the pixel at (i, j) of the region is visited with (R152). -/
def visitValue (r : Region) (ct : Array Rgb) (b : DitherBuffers) (i j : Nat) : Rgb :=
  workingValue (ct.getD (rasterPos (r.x0 + i) (r.y0 + j)) default) (b.err.getD (j * r.fw + i) default)

/-- The index that visit emits (R153, R154). -/
def visitIndex (palette : Vector Rgb 7) (r : Region) (ct : Array Rgb) (b : DitherBuffers) (i j : Nat) : Fin 7 :=
  nearest palette (visitValue r ct b i j)

/-- The quantization error of that visit (R155). -/
def visitError (palette : Vector Rgb 7) (r : Region) (ct : Array Rgb) (b : DitherBuffers) (i j : Nat) : Diff :=
  quantError (visitValue r ct b i j) palette[visitIndex palette r ct b i j]

/-- Visit the pixel at (i, j) of the region: its index is emitted and its error diffused (R152 to R156). -/
def quantizePixel (palette : Vector Rgb 7) (r : Region) (ct : Array Rgb) (b : DitherBuffers) (i j : Nat) : DitherBuffers :=
  ⟨diffuseAll r i j (visitError palette r ct b i j) b.err,
   b.idx.setIfInBounds (rasterPos (r.x0 + i) (r.y0 + j)) (BitVec.ofNat 3 (visitIndex palette r ct b i j))⟩

/-- The buffers before the first visit: E is zero over the region, and every canvas pixel has index 1, which a pixel
outside the region keeps (R150, R151; DESIGN CHOICE, assumptions 24 and 25). -/
def ditherStart (r : Region) : DitherBuffers :=
  ⟨Array.replicate (r.fw * r.fh) ⟨0, 0, 0⟩, Array.replicate pixels 1⟩

/-- The first `n` visits of the dither pass: every row top to bottom, every row left to right (R150). Position `q` of the
region is row `q / FW` and column `q % FW`. -/
def ditherPrefix (palette : Vector Rgb 7) (r : Region) (ct : Array Rgb) (n : Nat) : DitherBuffers :=
  (List.range n).foldl (fun b q => quantizePixel palette r ct b (q % r.fw) (q / r.fw)) (ditherStart r)

/-- The dither pass: every pixel of the region is visited (R150). -/
def ditherPass (palette : Vector Rgb 7) (r : Region) (ct : Array Rgb) : DitherBuffers :=
  ditherPrefix palette r ct (r.fw * r.fh)

end Sys2Proof.Machine
end

