-- ==== Sys2Proof/Machine/Pack.lean ====
section
/-! DEFINITION. The nibble packer and its inverse (spec/42_pack.md). -/

namespace Sys2Proof.Machine

/-- IDX[x][y] of an index buffer in raster order (spec/10_state.md R40). -/
def idxAt (idx : Array (BitVec 3)) (x y : Nat) : BitVec 3 := idx.getD (rasterPos x y) 0

/-- A packed byte: the even pixel's index in the high nibble, the odd pixel's in the low one (R170, spec/30_encoding.md
R94). -/
def packPair (even odd : BitVec 3) : Byte := (even.zeroExtend 8 <<< 4) ||| odd.zeroExtend 8

/-- PackedFrame byte `n`: canvas pixels 2n and 2n + 1 in raster order (R170). -/
def packedByte (idx : Array (BitVec 3)) (n : Nat) : Byte :=
  let x := (2 * n) % canvasW
  let y := (2 * n) / canvasW
  packPair (idxAt idx x y) (idxAt idx (x + 1) y)

/-- The PackedFrame: exactly FRAME_BYTES bytes (R170, R171). -/
def packFrame (idx : Array (BitVec 3)) : List Byte := (List.range frameBytes).map (packedByte idx)

/-- The palette index of canvas pixel (x, y) read back from a PackedFrame (R172). -/
def unpackPixel (frame : Nat → Byte) (x y : Nat) : BitVec 4 :=
  let b := frame ((canvasW * y + x) / 2)
  if x % 2 = 0 then b.extractLsb' 4 4 else b.extractLsb' 0 4

end Sys2Proof.Machine
end

