-- ==== Sys2Proof/Machine/Wire.lean ====
section
/-! DEFINITION. How a transfer appears on the bus pins: sub-transfers, bit order, clock mode and chip select
(spec/44_serial_bus.md R204, R210 to R212; PRESUMED, assumption 10). The trace holds one event for a whole transfer; these
definitions say what that event is on SCLK, MOSI and CS_N, how far a transfer that fails has come there, and what a receiver
reads. The engine puts these changes on the pins (Engine.lean, clockEdge). -/

namespace Sys2Proof.Machine

/-- The sub-transfers of a transfer: bytes [c*4096, min((c+1)*4096, n)) for c = 0, 1, ... below ceil(n / 4096) (R204). -/
def subTransfers (bytes : List Byte) : List (List Byte) :=
  (List.range ((bytes.length + (chunkMax - 1)) / chunkMax)).map (fun c => (bytes.drop (c * chunkMax)).take chunkMax)

/-- The bits of a byte in the order they are shifted out, most significant first (R211). -/
def byteBits (b : Byte) : List Bool := (List.range 8).map (fun k => b.getLsbD (7 - k))

/-- One bit on the pins. With CPHA = 0 the bit is on MOSI before the leading edge; with CPHA = 1 it is put there by the
leading edge (R210). -/
def bitMoves (mode : BitVec 2) (b : Bool) : List PinMove :=
  if cpha mode then [.sclk (!cpol mode), .mosi b, .sclk (cpol mode)]
  else [.mosi b, .sclk (!cpol mode), .sclk (cpol mode)]

/-- The clocked bits of a sub-transfer (R211). -/
def chunkMoves (mode : BitVec 2) (chunk : List Byte) : List PinMove := (chunk.flatMap byteBits).flatMap (bitMoves mode)

/-- CS_N between two sub-transfers of one transfer, held low or pulsed high (R212; DESIGN CHOICE, assumption 11); no change of
MOSI falls inside the pulse (DESIGN CHOICE, assumption 36). -/
def chunkGap (pulsed : Bool) : List PinMove := if pulsed then [.csN true, .csN false] else []

/-- A whole transfer on the pins: CS_N low, the sub-transfers in order, CS_N high (R204, R212); no change for no bytes. CS_N
falls before the first bit is put on MOSI, also with CPHA = 0, where R210, R212 and 91 N17 leave the order of these two open
(DESIGN CHOICE, assumption 36). With CPHA = 0 and CS_N pulsed, the first bit of a later sub-transfer is put on MOSI after the
pulse, MOSI keeping the bit before it until then, where they leave its place open too (DESIGN CHOICE, assumption 36). -/
def transferMoves (mode : BitVec 2) (pulsed : Bool) (bytes : List Byte) : List PinMove :=
  if bytes.isEmpty then []
  else [.csN false] ++ (((subTransfers bytes).map (chunkMoves mode)).intersperse (chunkGap pulsed)).flatten ++ [.csN true]

/-- The level that a change writes to SCLK, if it does; and to CS_N. -/
def PinMove.sclkLevel : PinMove → Option Bool
  | .sclk level => some level
  | .mosi _ => none
  | .csN _ => none
def PinMove.csNLevel : PinMove → Option Bool
  | .csN level => some level
  | .mosi _ => none
  | .sclk _ => none

/-- The level of a pin after some changes, given its level before them. -/
def levelAfter (level : PinMove → Option Bool) (before : Bool) (moves : List PinMove) : Bool :=
  moves.foldl (fun l m => (level m).getD l) before

/-- How many changes of SCLK there are among some changes: 16 for each byte (R210, R211). -/
def sclkEdges (moves : List PinMove) : Nat := moves.countP (fun m => m.sclkLevel.isSome)

/-- The changes up to the `n`-th change of SCLK. -/
def takeEdges : Nat → List PinMove → List PinMove
  | 0, _ => []
  | _ + 1, [] => []
  | n + 1, .sclk level :: rest => .sclk level :: takeEdges n rest
  | n + 1, .mosi level :: rest => .mosi level :: takeEdges (n + 1) rest
  | n + 1, .csN level :: rest => .csN level :: takeEdges (n + 1) rest

/-- How far a transfer that fails has come, of all its changes, when `made` had been seen and `more` followed: a byte in
progress is finished, so that the pins carried a whole number of bytes (R203; DESIGN CHOICE, assumption 8). -/
def failedMoves (all : List PinMove) (made more : Nat) : List PinMove :=
  let sent := all.take (made + more)
  sent ++ takeEdges ((16 - sclkEdges sent % 16) % 16) (all.drop (made + more))

/-- Chip select goes high after a transfer that failed inside a sub-transfer (R212). -/
def raiseCsN (sent : List PinMove) : List PinMove := if levelAfter PinMove.csNLevel true sent then [] else [.csN true]

/-- What a receiver samples from the pins, given MOSI's level so far: on the leading edge of SCLK with CPHA = 0, on the
trailing edge with CPHA = 1 (R210). -/
def sampledBits (mode : BitVec 2) : Bool → List PinMove → List Bool
  | _, [] => []
  | _, .mosi l :: rest => sampledBits mode l rest
  | m, .csN _ :: rest => sampledBits mode m rest
  | m, .sclk l :: rest =>
    if l = (cpol mode == cpha mode) then m :: sampledBits mode m rest else sampledBits mode m rest

end Sys2Proof.Machine
end

