-- ==== Sys2Proof/Machine/Engine.lean ====
section
/-! DEFINITION. The engine: what each action of its sequence does, and running a sequence until it ends, fails, or waits for
the outside world (spec/10_state.md R20, R21; spec/60_exceptions.md R304, R305; spec/70_reset_and_hazards.md R351). -/

namespace Sys2Proof.Machine

/-- What a step of the machine answers. -/
abbrev StepOutcome := Host.Outcome State Fault Refusal

/-- What one action of the engine comes to. -/
inductive OpResult where
  /-- The action is done. -/
  | done (s : State)
  /-- The action waits for something the outside world has not done yet. -/
  | wait (s : State)
  /-- The action raises an error. -/
  | raise (f : Failure) (s : State)
  /-- The operation has ended. -/
  | ended (s : State)
  /-- A fault of the model. -/
  | fault (f : Fault)
deriving DecidableEq, Repr

/-! ### Wire events -/

/-- The failure classes an event can be answered with (R14; spec/43_digital_line.md R185, R187; spec/44_serial_bus.md R200,
R203). -/
def failureClasses : WireEvent → List ErrClass
  | .busOpen _ _ => [.deviceUnavailable, .configurationFailed]
  | .lineClaim _ _ => [.deviceUnavailable, .lineRequestFailed]
  | .lineSet _ _ => [.lineWriteFailed]
  | .xfer _ _ => [.transferFailed]
  | .busClose => []
  | .lineRelease _ => []
  | .delay _ => []

/-- Is this an outcome the environment can answer the event with (R14, D44)? -/
def admits (e : WireEvent) : Answer → Bool
  | .ok => true
  | .fail c => (failureClasses e).contains c

/-- The bytes of a payload; the frame is FRAMEMEM's bytes as they stand, in address order (spec/45_command_protocol.md
R261). -/
def payloadBytes (s : State) : Payload → List Byte
  | .absent => []
  | .const bytes => bytes
  | .frame => bytesOrDraw s.mem s.draws frameBase frameBytes

/-- Start a transfer: the event, and the changes of level it is to make on the pins (spec/44_serial_bus.md R202, R204, R210 to
R212). -/
def startXfer (bytes : List Byte) (s : State) : State :=
  { issueEvent (.xfer s.dc.level bytes) s with moves := transferMoves s.cfg.spiMode s.cfg.csPulsed bytes }

/-- Ask for a wire event. A release, a close and a delay have no outcome and take effect at once (DEDUCED, assumption
21); the others wait for theirs. A line is driven only while claimed and the bus used only while open
(spec/43_digital_line.md R185, R186, R188, R189; spec/44_serial_bus.md R200, R202, R205, R207;
spec/70_reset_and_hazards.md R345). Nothing depends on a line's identity (DESIGN CHOICE, assumption 27). -/
def perfRequest (r : Request) (s : State) : OpResult :=
  match r with
  | .busOpen => .done (issueEvent (.busOpen s.cfg.spiMode s.cfg.spiClockHz) s)
  | .busClose => .done (closeBus s)
  | .lineClaim l => .done (issueEvent (.lineClaim l lineFlags) s)
  | .lineRelease l => .done (releaseLine l s)
  | .lineSet l v => if (lineOf s l).claimed then .done (issueEvent (.lineSet l v) s) else .fault (.lineNotClaimed l)
  | .xfer p =>
    if s.bus.isSome then .done (startXfer (payloadBytes s p) { s with draws := s.draws + 1 })
    else .fault .busClosed
  | .delay ms => .done (startDelay ms s)

/-- A line's level and pin are written only while it is claimed (spec/43_digital_line.md R189). -/
def driveLine (l : Line) (level : Bool) (p : Pin) (s : State) : State :=
  if (lineOf s l).claimed then setLine l ⟨true, level⟩ p s else s

/-- A transfer is over with outcome ok: all its bytes are out, every change of level left to make has been made, and the pins
are between transfers (spec/44_serial_bus.md R202, R212). -/
def finishXfer (dc : Bool) (bytes : List Byte) (s : State) : State :=
  busPinsIdle { s with
    shifted := s.shifted ++ bytes.map (fun b => ⟨dc, b⟩), wave := s.wave ++ s.moves, moves := [] }

/-- A transfer is over with a failure: the changes of level made so far, a drawn number of further ones, and those that finish a
byte have been made; the pins carried a prefix of the bytes and are between transfers (R203, R212; DESIGN CHOICE, assumption
8). -/
def failXfer (dc : Bool) (bytes : List Byte) (s : State) : State :=
  let all := transferMoves s.cfg.spiMode s.cfg.csPulsed bytes
  let made := all.length - s.moves.length
  let sent := failedMoves all made (Config.drawCount s.draws)
  busPinsIdle { s with
    shifted := s.shifted ++ (bytes.take (sclkEdges sent / 16)).map (fun b => ⟨dc, b⟩)
    wave := s.wave ++ sent.drop made ++ raiseCsN sent, moves := [], draws := s.draws + 1 }

/-- The effect of outcome ok (R185, R186, R200, R202). -/
def effectOk (e : WireEvent) (s : State) : State :=
  match e with
  | .busOpen mode hz => busPinsIdle { s with bus := some ⟨mode, hz⟩ }
  | .lineClaim l _ => setLine l ⟨true, false⟩ (.driven false) s
  | .lineSet l v => driveLine l v (.driven v) s
  | .xfer dc bytes => finishXfer dc bytes s
  | .busClose => s
  | .lineRelease _ => s
  | .delay _ => s

/-- A pin's level after a failed line write: drawn from its previous level and the requested one (R187;
DESIGN CHOICE, assumption 7). -/
def pinAfterFailedWrite (draw : Bool) (requested : Bool) (previous : Pin) : Pin := if draw then .driven requested else previous

/-- What a failure leaves on the pins: an unknown level after a line write, a prefix after a transfer
(R187, R203); an open or a claim leaves nothing held (R185, R200). -/
def effectFail (e : WireEvent) (s : State) : State :=
  match e with
  | .lineSet l v =>
    { driveLine l (lineOf s l).level (pinAfterFailedWrite (Config.drawBit s.draws) v (pinOf s l)) s with
      draws := s.draws + 1 }
  | .xfer dc bytes => failXfer dc bytes s
  | .busOpen _ _ => s
  | .lineClaim _ _ => s
  | .busClose => s
  | .lineRelease _ => s
  | .delay _ => s

/-- The environment's outcome for the event in progress: the event is over, the outcome is recorded, it takes effect, and
a failure is kept to be raised. -/
def settleEvent (e : WireEvent) (a : Answer) (s : State) : State :=
  let t := { s with outstanding := none, outcomes := s.outcomes ++ [a] }
  match a with
  | .ok => effectOk e t
  | .fail c => noteFailure c (effectFail e t)

/-- Stay in the event in progress until its outcome arrives (spec/70_reset_and_hazards.md R351). -/
def perfAwait (s : State) : OpResult :=
  match s.outstanding, s.inputs with
  | none, _ => .done s
  | some e, .answer a :: rest => if admits e a then .done (settleEvent e a { s with inputs := rest }) else .wait s
  | some _, _ => .wait s

/-- Raise the failure that is kept, if any, in one action with the outcome before it (DESIGN CHOICE, assumption 34). -/
def perfCheck (s : State) : OpResult :=
  match s.held with
  | none => .done s
  | some f => .raise f s

/-- Count down one for every TICK that has passed (R345): what remains of the inputs and of the count. -/
def countDown : List Input → BitVec 16 → List Input × BitVec 16
  | .tick :: rest, d => if d = 0 then (.tick :: rest, d) else countDown rest (d - 1)
  | inputs, d => (inputs, d)

/-- `while dly != 0: await one TICK; dly <- dly - 1` (R345; DESIGN CHOICE, assumption 20). -/
def perfTimer (s : State) : OpResult :=
  let c := countDown s.inputs s.dly
  let t := { s with inputs := c.1, dly := c.2 }
  if c.2 = 0 then .done t else .wait t

/-- Wait until the engine's own work has gone on by one action (DESIGN CHOICE, assumption 4). -/
def perfGate (s : State) : OpResult :=
  match s.inputs with
  | .work :: rest => .done { s with inputs := rest }
  | _ => .wait s

/-! ### PREPARE's parts, each of which takes effect at once (DESIGN CHOICE, assumption 5) -/

/-- dimension_check() (spec/40_fit_resample.md R120); a check that fails and the raise of its error are one action (DESIGN CHOICE,
assumption 34). -/
def perfDimensionCheck (s : State) : OpResult :=
  match dimensionError s.cfg.srcmemWords (srcW s) (srcH s) with
  | none => .done s
  | some f => .raise f s

/-- fit() (R121). -/
def perfFit (s : State) : OpResult := .done (storeFit (fitRegion (srcW s) (srcH s)) s)

/-- background() (R122). -/
def perfBackground (s : State) : OpResult := .done { s with ct := backgroundCanvas s.cfg }

/-- resample() (R123): a fault names the first source word that nothing has written (spec/10_state.md R48). -/
def perfResample (s : State) : OpResult :=
  match unwrittenWord s.mem (srcW s * srcH s) with
  | some k => .fault (.unwrittenSource k)
  | none => .done { s with ct := resampleCanvas (sourcePixel s.mem (srcW s)) (srcW s) (srcH s) (storedRegion s) s.ct }

/-- dither() (spec/41_dither.md R150 to R156). -/
def perfDither (s : State) : OpResult :=
  let b := ditherPass s.cfg.palette (storedRegion s) s.ct
  .done { s with errAcc := b.err, idx := b.idx }

/-- pack() (spec/42_pack.md R170). -/
def perfPack (s : State) : OpResult := .done { s with mem := memWrite s.mem frameBase (packFrame s.idx) }

/-! ### Running a sequence -/

/-- What one action does. -/
def perform (op : Op) (s : State) : OpResult :=
  match op with
  | .setAct a => .done { s with act := a }
  | .setPState p => .done { s with pstate := p, stepIx := 0 }
  | .setStep k => .done { s with stepIx := k }
  | .setPos p => .done { s with pos := p }
  | .gate => perfGate s
  | .request r => perfRequest r s
  | .await => perfAwait s
  | .check => perfCheck s
  | .timer => perfTimer s
  | .dimensionCheck => perfDimensionCheck s
  | .fit => perfFit s
  | .background => perfBackground s
  | .resample => perfResample s
  | .dither => perfDither s
  | .pack => perfPack s
  | .finish success => .ended (finishOperation success s)

/-- Run actions in order. An action that waits leaves itself and what follows in `todo`, before what stood there; a raised
error is recorded and handed to `onRaise`; the end of an operation leaves nothing to do. -/
def runOps (onRaise : State → StepOutcome) : List Op → State → StepOutcome
  | [], s => .next s
  | op :: rest, s =>
    match perform op s with
    | .done t => runOps onRaise rest t
    | .wait t => .next { t with todo := op :: rest ++ t.todo }
    | .raise f t => onRaise (raiseError f t)
    | .ended t => .next t
    | .fault f => .fault f

/-- The abort path after a raise (spec/60_exceptions.md R305); nothing on it can fail (R308). -/
def runAbort (s : State) : StepOutcome := runOps .next (abortSequence s) s

/-- Run a sequence as the engine does: as far as the outside world lets it. -/
def engine (ops : List Op) (s : State) : StepOutcome := runOps runAbort ops s

/-- Go on with the operation in progress. -/
def resume (s : State) : StepOutcome := engine s.todo { s with todo := [] }

/-! ### Sequences -/

/-- One fallible micro-operation at a position, its failure raised at once (spec/60_exceptions.md R303). -/
def microOp (p : Pos) (r : Request) : List Op := [.setPos p, .request r, .await, .check]

/-- wait(ms): one Delay event, then the count (spec/00_scope.md R16, R345). -/
def waitFor (ms : BitVec 16) : List Op := [.request (.delay ms), .timer]

/-- sendCommand(ph, k, op, payload) (spec/45_command_protocol.md R233): micro-operation 0 sends the opcode; with a payload,
1 drives DC high, 2 sends it, 3 drives DC low whether or not 2 succeeded, and then the first failure of the two is
raised. A gate stands between two of them, so that block reset and host transactions can land there (R330). None stands between the
outcome of 3 and the raise: after a failed payload the outcome of the DC-low write, which makes DC_LEVEL 0 if it is ok, and the raise,
which writes ERROR and ACT <- RELEASE, are one action, so no host read falls between them; spec/60_exceptions.md R310 gives no grain
here (DESIGN CHOICE, assumption 34). -/
def sendCommand (ph : Phase) (k : BitVec 8) (op : Byte) (payload : Payload) : List Op :=
  microOp ⟨ph, k, 0⟩ (.xfer (.const [op]))
    ++ if payload.isAbsent then []
       else .gate :: microOp ⟨ph, k, 1⟩ (.lineSet .dc true)
         ++ [.gate, .setPos ⟨ph, k, 2⟩, .request (.xfer payload), .await, .gate]
         ++ microOp ⟨ph, k, 3⟩ (.lineSet .dc false)

/-- One protocol step: STEP <- k, sendCommand of its ROM entry, and its settle delay if it has one (R240, R261). -/
def protocolStep (ph : Phase) (k : BitVec 8) (e : RomEntry) : List Op :=
  .setStep k :: .gate :: sendCommand ph k e.op e.payload ++ if e.delayMs = 0 then [] else .gate :: waitFor e.delayMs

/-- Init step k (R241 to R259). -/
def initStep (cfg : Config) (k : Fin 19) : List Op := protocolStep .init (BitVec.ofNat 8 k) (initEntry cfg k)

/-- Paint step k (R261 to R265). -/
def paintStep (cfg : Config) (k : Fin 4) : List Op := protocolStep .paint (BitVec.ofNat 8 k) (paintEntry cfg k)

/-- A write of the reset line at a position, and the wait after it, each behind a gate (R235, R330). -/
def resetPulse (u : BitVec 4) (level : Bool) (ms : BitVec 16) : List Op :=
  .gate :: microOp ⟨.reset, 0, u⟩ (.lineSet .rst level) ++ .gate :: waitFor ms

/-- The reset sequence (R235, R236). -/
def resetSequence : List Op :=
  [.gate, .setPState .resetting, .gate] ++ microOp ⟨.reset, 0, 0⟩ (.lineSet .dc false)
    ++ resetPulse 1 true 100 ++ resetPulse 2 false 100 ++ resetPulse 3 true 1000

/-- The init sequence (R240): the 19 steps in order, back to back (R239). -/
def initSequence (cfg : Config) : List Op :=
  [.gate, .setPState .initialized] ++ (List.finRange 19).flatMap (fun k => .gate :: initStep cfg k)

/-- The paint sequence (R260, R275): the 4 steps in order, each with its delay. -/
def paintSequence (cfg : Config) : List Op :=
  [.gate, .setPState .painting] ++ (List.finRange 4).flatMap (fun k => .gate :: paintStep cfg k)
    ++ [.gate, .setPState .settled]

/-- The acquisition sequence: the bus, then RST, then DC (spec/46_display_driver.md R284). -/
def acquireSequence : List Op :=
  [.gate, .setAct .acquire, .gate] ++ microOp ⟨.acquire, 0, 0⟩ .busOpen ++ .gate :: microOp ⟨.acquire, 1, 0⟩ (.lineClaim .rst)
    ++ .gate :: microOp ⟨.acquire, 2, 0⟩ (.lineClaim .dc)

/-- The release sequence of the success path: the reverse of acquisition (R286). -/
def releaseSequence : List Op :=
  [.gate, .setAct .release, .gate, .request (.lineRelease .dc), .gate, .request (.lineRelease .rst), .gate,
   .request .busClose, .gate, .finish true]

/-- From dimension_check() to pack() (R281, R283). -/
def pipelineSequence : List Op :=
  [.gate, .dimensionCheck, .gate, .fit, .gate, .background, .gate, .resample, .gate, .dither, .gate, .pack]

/-- What PREPARE does once it is accepted (R281). -/
def prepareSequence : List Op := pipelineSequence ++ [.gate, .finish true]

/-- What RENDER does once it is accepted (R283). -/
def renderSequence (cfg : Config) : List Op :=
  pipelineSequence ++ acquireSequence ++ [.gate, .setAct .protocol] ++ resetSequence ++ initSequence cfg
    ++ paintSequence cfg ++ releaseSequence

end Sys2Proof.Machine
end

