-- ==== Sys2Proof/Machine/Bus.lean ====
section
/-! DEFINITION. The serial bus's micro-operations and the delay (spec/44_serial_bus.md, spec/70_reset_and_hazards.md R345). -/

namespace Sys2Proof.Machine

/-- BusOpen (R200): a failure is recorded at (ACQUIRE, 0, 0). -/
def execBusOpen (s : State) : StepOutcome := engine (microOp ⟨.acquire, 0, 0⟩ .busOpen) s

/-- Xfer (R202, R203): the bytes go out under the DC level that stands; a failure is recorded at the caller's position,
which the state holds (DEDUCED, assumption 18). The ill-formed Xfer of no bytes, which is never issued (R208), emits its event and
goes on, and moves no pin (DESIGN CHOICE, assumption 37). -/
def execXfer (bytes : List Byte) (s : State) : StepOutcome :=
  engine [.request (.xfer (.const bytes)), .await, .check] s

/-- BusClose (R205). -/
def execBusClose (s : State) : StepOutcome := engine [.request .busClose] s

/-- Delay(ms) (R345): the event, then one count a TICK. -/
def execDelay (ms : BitVec 16) (s : State) : StepOutcome := engine (waitFor ms) s

end Sys2Proof.Machine
end

