-- ==== Sys2Proof/Machine/HostPort.lean ====
section
/-! DEFINITION. The host port: the address map and what a read or a write of each place does (spec/20_memory.md R60 to R69,
spec/10_state.md R22 to R36). -/

namespace Sys2Proof.Machine

/-- The places of the host address map (R61, spec/10_state.md R22). -/
inductive Place where
  | cmd
  | status
  | error
  | srcDim
  | fitOrigin
  | fitSize
  /-- Register offsets 0x18 to 0xFC (R36). -/
  | reserved
  /-- The SRCMEM word at byte address `addr`. -/
  | srcmem (addr : Nat)
  /-- The FRAMEMEM word at byte address `addr`. -/
  | framemem (addr : Nat)
  | unmapped
deriving DecidableEq, Repr

/-- The register at an offset of the window 0x00 to 0xFF (spec/10_state.md R22, R36). -/
def registerAt (offset : Nat) : Place :=
  if offset = 0x00 then .cmd
  else if offset = 0x04 then .status
  else if offset = 0x08 then .error
  else if offset = 0x0C then .srcDim
  else if offset = 0x10 then .fitOrigin
  else if offset = 0x14 then .fitSize
  else .reserved

/-- The place at a word-aligned byte address (R61). -/
def placeAt (cfg : Config) (addr : Nat) : Place :=
  if addr < 0x100 then registerAt addr
  else if srcBase ≤ addr ∧ addr < srcBase + 4 * cfg.srcmemWords then .srcmem addr
  else if frameBase ≤ addr ∧ addr < frameBase + frameBytes then .framemem addr
  else .unmapped

/-- The word whose bytes are those of draw `n` (spec/10_state.md R48). -/
def drawnWord (n : Nat) : Word :=
  wordOfBytes (Config.drawByte n 0) (Config.drawByte n 1) (Config.drawByte n 2) (Config.drawByte n 3)

/-- The word at a memory address, its bytes drawn where nothing has written them (R64, R67, R69, spec/10_state.md R48). -/
def wordOrDraw (m : Memory) (n a : Nat) : Word :=
  wordOfBytes (byteOrDraw m n 0 a) (byteOrDraw m n 1 (a + 1)) (byteOrDraw m n 2 (a + 2)) (byteOrDraw m n 3 (a + 3))

/-- Is FRAMEMEM being rewritten (R67)? -/
def frameBeingWritten (s : State) : Bool := s.busy && decide (s.act = .prepare)

/-- The value a host read of a place returns. -/
def readPlace (s : State) : Place → Word
  | .cmd => 0
  | .status => statusWord s
  | .error => errorWord s.error
  | .srcDim => s.srcDim
  | .fitOrigin => s.fitOrigin
  | .fitSize => s.fitSize
  | .reserved => 0
  | .srcmem a => wordOrDraw s.mem s.draws a
  | .framemem a => if frameBeingWritten s then drawnWord s.draws else wordOrDraw s.mem s.draws a
  | .unmapped => 0

/-- A host read: the value goes to the host and nothing of the block changes (R71). Every read takes a draw of its own, so
that two reads of one unwritten location may differ (spec/10_state.md R48). -/
def hostRead (addr : HostAddr) (s : State) : State :=
  { s with reads := s.reads ++ [⟨addr, readPlace s (placeAt s.cfg addr.toNat)⟩], draws := s.draws + 1 }

/-- A host write to a place other than CMD: SRC_DIM and SRCMEM take the value unless BUSY is 1, and are dropped with
OVERRUN set if it is; every other write is ignored (spec/10_state.md R27, R34, R36; R62, R68, R69). -/
def writePlace (v : Word) (s : State) : Place → State
  | .srcDim => if s.busy then dropWrite s else { s with srcDim := v }
  | .srcmem a => if s.busy then dropWrite s else { s with mem := memWriteWord s.mem a v }
  | .cmd => s
  | .status => s
  | .error => s
  | .fitOrigin => s
  | .fitSize => s
  | .reserved => s
  | .framemem _ => s
  | .unmapped => s

/-- Does the block define a behaviour for this access: 32 bits at a multiple of 4 (R63; DEDUCED, assumption 26)? -/
def accessDefined (addr : HostAddr) (size : Nat) : Bool := decide (size = 4) && decide (addr.toNat % 4 = 0)

/-- Accept a host operation: BUSY becomes 1 and ACT, which is 0 exactly when BUSY is 0, PREPARE (spec/10_state.md R25, R32;
spec/46_display_driver.md R280, R281, R283). -/
def acceptOperation (s : State) : State :=
  { clearForCommand s with busy := true, act := .prepare, held := none, outstanding := none, todo := [], moves := [] }

/-- What starts a run: PSTATE UNPOWERED and STEP 0 (spec/45_command_protocol.md R231, R283). -/
def startRun (s : State) : State := { s with pstate := .unpowered, stepIx := 0 }

end Sys2Proof.Machine
end

