-- ==== Sys2Proof/Machine/Driver.lean ====
section
/-! DEFINITION. The host operations, as the CMD write that starts them means them (spec/46_display_driver.md). -/

namespace Sys2Proof.Machine

/-- PREPARE (R280, R281): dropped with OVERRUN while BUSY is 1; else accepted, and run as far as the outside world lets it:
with the engine's work going on undisturbed, to its end. -/
def execPrepare (s : State) : StepOutcome :=
  if s.busy then .next (dropWrite s) else engine prepareSequence (acceptOperation s)

/-- RENDER (R280, R282, R283): dropped with OVERRUN while BUSY is 1; else accepted, and run as far as the outside world
lets it: with every outcome and TICK there, to its end. -/
def execRender (s : State) : StepOutcome :=
  if s.busy then .next (dropWrite s) else engine (renderSequence s.cfg) (startRun (acceptOperation s))

/-- Every other CMD value (R280): dropped with OVERRUN while BUSY is 1, before its legality is looked at (spec/60_exceptions.md
R304); else IllegalOperation, whatever the word is. -/
def execIllegal (_v : Word) (s : State) : StepOutcome :=
  if s.busy then .next (dropWrite s) else .next (raiseIllegal (clearForCommand s))

end Sys2Proof.Machine
end

