-- ==== Sys2Proof/Machine/Lines.lean ====
section
/-! DEFINITION. The output lines' micro-operations (spec/43_digital_line.md). -/

namespace Sys2Proof.Machine

/-- The acquisition step of a line: step(RST) = 1, step(DC) = 2 (R185). -/
def claimStep : Line → BitVec 8
  | .rst => 1
  | .dc => 2

/-- LineClaim (R185): a failure is recorded at (ACQUIRE, step(L), 0). -/
def execLineClaim (line : Line) (s : State) : StepOutcome :=
  engine (microOp ⟨.acquire, claimStep line, 0⟩ (.lineClaim line)) s

/-- LineSet (R186, R187): a failure is recorded at the caller's position, which the state holds (DEDUCED,
assumption 18), and raised at once. -/
def execLineSet (line : Line) (level : Bool) (s : State) : StepOutcome :=
  engine [.request (.lineSet line level), .await, .check] s

/-- LineRelease (R188). -/
def execLineRelease (line : Line) (s : State) : StepOutcome := engine [.request (.lineRelease line)] s

end Sys2Proof.Machine
end

