-- ==== Sys2Proof/Machine/Protocol.lean ====
section
/-! DEFINITION. The protocol steps: INIT[0..18] and PAINT[0..3] of the step ROM, one definition each
(spec/45_command_protocol.md R241 to R259, R262 to R265). -/

namespace Sys2Proof.Machine

/-- INIT[0] (R241): STEP <- 0, sendCommand of INIT_SEQUENCE[0], no delay. -/
def execInit0 (s : State) : StepOutcome := engine (initStep s.cfg 0) s

/-- INIT[1] (R242): STEP <- 1, sendCommand of INIT_SEQUENCE[1], no delay. -/
def execInit1 (s : State) : StepOutcome := engine (initStep s.cfg 1) s

/-- INIT[2] (R243): STEP <- 2, sendCommand of INIT_SEQUENCE[2], no delay. -/
def execInit2 (s : State) : StepOutcome := engine (initStep s.cfg 2) s

/-- INIT[3] (R244): STEP <- 3, sendCommand of INIT_SEQUENCE[3], no delay. -/
def execInit3 (s : State) : StepOutcome := engine (initStep s.cfg 3) s

/-- INIT[4] (R245): STEP <- 4, sendCommand of INIT_SEQUENCE[4], no delay. -/
def execInit4 (s : State) : StepOutcome := engine (initStep s.cfg 4) s

/-- INIT[5] (R246): STEP <- 5, sendCommand of INIT_SEQUENCE[5], no delay. -/
def execInit5 (s : State) : StepOutcome := engine (initStep s.cfg 5) s

/-- INIT[6] (R247): STEP <- 6, sendCommand of INIT_SEQUENCE[6], no delay. -/
def execInit6 (s : State) : StepOutcome := engine (initStep s.cfg 6) s

/-- INIT[7] (R248): STEP <- 7, sendCommand of INIT_SEQUENCE[7], no delay. -/
def execInit7 (s : State) : StepOutcome := engine (initStep s.cfg 7) s

/-- INIT[8] (R249): STEP <- 8, sendCommand of INIT_SEQUENCE[8], no delay. -/
def execInit8 (s : State) : StepOutcome := engine (initStep s.cfg 8) s

/-- INIT[9] (R250): STEP <- 9, sendCommand of INIT_SEQUENCE[9], no delay. -/
def execInit9 (s : State) : StepOutcome := engine (initStep s.cfg 9) s

/-- INIT[10] (R251): STEP <- 10, sendCommand of INIT_SEQUENCE[10], no delay. -/
def execInit10 (s : State) : StepOutcome := engine (initStep s.cfg 10) s

/-- INIT[11] (R252): STEP <- 11, sendCommand of INIT_SEQUENCE[11], no delay. -/
def execInit11 (s : State) : StepOutcome := engine (initStep s.cfg 11) s

/-- INIT[12] (R253): STEP <- 12, sendCommand of INIT_SEQUENCE[12], no delay. -/
def execInit12 (s : State) : StepOutcome := engine (initStep s.cfg 12) s

/-- INIT[13] (R254): STEP <- 13, sendCommand of INIT_SEQUENCE[13], no delay. -/
def execInit13 (s : State) : StepOutcome := engine (initStep s.cfg 13) s

/-- INIT[14] (R255): STEP <- 14, sendCommand of INIT_SEQUENCE[14], no delay. -/
def execInit14 (s : State) : StepOutcome := engine (initStep s.cfg 14) s

/-- INIT[15] (R256): STEP <- 15, sendCommand of INIT_SEQUENCE[15], no delay. -/
def execInit15 (s : State) : StepOutcome := engine (initStep s.cfg 15) s

/-- INIT[16] (R257): STEP <- 16, sendCommand of INIT_SEQUENCE[16], no delay. -/
def execInit16 (s : State) : StepOutcome := engine (initStep s.cfg 16) s

/-- INIT[17] (R258): STEP <- 17, sendCommand of INIT_SEQUENCE[17], no delay. -/
def execInit17 (s : State) : StepOutcome := engine (initStep s.cfg 17) s

/-- INIT[18] (R259): STEP <- 18, sendCommand of INIT_SEQUENCE[18], no delay. -/
def execInit18 (s : State) : StepOutcome := engine (initStep s.cfg 18) s

/-- PAINT[0], frame data (R262): OP_DTM with the 192000 bytes of FRAMEMEM, then 1000 ms. -/
def execPaint0 (s : State) : StepOutcome := engine (paintStep s.cfg 0) s

/-- PAINT[1], power-on (R263): OP_PON with no payload, then 1000 ms. -/
def execPaint1 (s : State) : StepOutcome := engine (paintStep s.cfg 1) s

/-- PAINT[2], start refresh (R264): OP_DRF with DRF_DATA, then 35000 ms. -/
def execPaint2 (s : State) : StepOutcome := engine (paintStep s.cfg 2) s

/-- PAINT[3], power-off (R265): OP_POF with POF_DATA, then 1000 ms. -/
def execPaint3 (s : State) : StepOutcome := engine (paintStep s.cfg 3) s

end Sys2Proof.Machine
end

