-- ==== Sys2Proof/Machine/Dispatch.lean ====
section
/-! DEFINITION. exec: one arm per constructor of Instr, each one direct call of its meaning. -/

namespace Sys2Proof.Machine

def exec (i : Instr) (s : State) : Host.Outcome State Fault Refusal :=
  match i with
  | .prepare => Sys2Proof.Machine.execPrepare s
  | .render => Sys2Proof.Machine.execRender s
  | .illegal v => Sys2Proof.Machine.execIllegal v s
  | .init0 => Sys2Proof.Machine.execInit0 s
  | .init1 => Sys2Proof.Machine.execInit1 s
  | .init2 => Sys2Proof.Machine.execInit2 s
  | .init3 => Sys2Proof.Machine.execInit3 s
  | .init4 => Sys2Proof.Machine.execInit4 s
  | .init5 => Sys2Proof.Machine.execInit5 s
  | .init6 => Sys2Proof.Machine.execInit6 s
  | .init7 => Sys2Proof.Machine.execInit7 s
  | .init8 => Sys2Proof.Machine.execInit8 s
  | .init9 => Sys2Proof.Machine.execInit9 s
  | .init10 => Sys2Proof.Machine.execInit10 s
  | .init11 => Sys2Proof.Machine.execInit11 s
  | .init12 => Sys2Proof.Machine.execInit12 s
  | .init13 => Sys2Proof.Machine.execInit13 s
  | .init14 => Sys2Proof.Machine.execInit14 s
  | .init15 => Sys2Proof.Machine.execInit15 s
  | .init16 => Sys2Proof.Machine.execInit16 s
  | .init17 => Sys2Proof.Machine.execInit17 s
  | .init18 => Sys2Proof.Machine.execInit18 s
  | .paint0 => Sys2Proof.Machine.execPaint0 s
  | .paint1 => Sys2Proof.Machine.execPaint1 s
  | .paint2 => Sys2Proof.Machine.execPaint2 s
  | .paint3 => Sys2Proof.Machine.execPaint3 s
  | .busOpen => Sys2Proof.Machine.execBusOpen s
  | .xfer bytes => Sys2Proof.Machine.execXfer bytes s
  | .busClose => Sys2Proof.Machine.execBusClose s
  | .lineClaim line => Sys2Proof.Machine.execLineClaim line s
  | .lineSet line level => Sys2Proof.Machine.execLineSet line level s
  | .lineRelease line => Sys2Proof.Machine.execLineRelease line s
  | .delay ms => Sys2Proof.Machine.execDelay ms s

end Sys2Proof.Machine
end

