-- ==== Sys2Proof/Machine/Fetch.lean ====
section
/-! DEFINITION. What a step of the machine comes to before any instruction is run: the outside world's next input, and where
it goes (spec/10_state.md R20, spec/20_memory.md R72, spec/60_exceptions.md R310). -/

namespace Sys2Proof.Machine

/-- What the next input comes to: an instruction to run, written to CMD by the host, or an outcome. -/
inductive Fetched where
  | command (i : Instr) (s : State)
  | settled (o : StepOutcome)

/-- A host transaction (R60): one the block defines no behaviour for is refused (R63); a write to CMD is a command, decoded
at once and not retained (spec/10_state.md R23); the rest goes to its place. -/
def fetchHost (t : HostTxn) (s : State) : Fetched :=
  match t with
  | .read addr size =>
    if accessDefined addr size then .settled (.next (hostRead addr s)) else .settled (.refused (.hostAccess addr size))
  | .write addr size v =>
    if accessDefined addr size then
      if placeAt s.cfg addr.toNat = .cmd then .command (decodeCmd v) s
      else .settled (.next (writePlace v s (placeAt s.cfg addr.toNat)))
    else .settled (.refused (.hostAccess addr size))

/-- Is this the input the engine's operation in progress waits for? A wire event waits for an outcome it can have, a gate
for the engine's work, the timer for a TICK. -/
def engineTakes (s : State) (x : Input) : Bool :=
  match s.todo, x with
  | .await :: _, .answer a => (s.outstanding.map (fun e => admits e a)).getD true
  | .gate :: _, .work => true
  | .timer :: _, .tick => true
  | _, _ => false

/-- The next input: block reset, a host transaction, a change of level of the transfer in progress, or what the engine waits
for, which lets the operation in progress go on. Block reset acts for a moment, and the next host access is served at once
(DESIGN CHOICE, assumption 35). An outcome, work or TICK that nothing waits for passes without effect (DESIGN CHOICE, assumption
17), and so does a change of level that no transfer has to make. With no input nothing happens: the block is idle, or stuck in
its event (spec/70_reset_and_hazards.md R351; DESIGN CHOICE, assumption 22). -/
def fetch (s : State) : Fetched :=
  match s.inputs with
  | [] => .settled (.next s)
  | .reset :: rest => .settled (.next (blockReset { s with inputs := rest }))
  | .host t :: rest => fetchHost t { s with inputs := rest }
  | .edge :: rest => .settled (.next (clockEdge { s with inputs := rest }))
  | x :: rest => if engineTakes s x then .settled (resume s) else .settled (.next { s with inputs := rest })

/-- The host's CMD write of a word (spec/10_state.md R22, R23). -/
def commandWrite (v : Word) : Input := .host (.write 0 4 v)

end Sys2Proof.Machine
end

