-- ==== Sys2Proof/Machine/Step.lean ====
section
/-! DEFINITION. One step of the machine: the next input, and the instruction it brings, if any. -/

namespace Sys2Proof.Machine

/-- One step: what the outside world does next takes effect; a command it brings is executed. -/
def step (s : State) : Host.Outcome State Fault Refusal :=
  match fetch s with
  | .command i t => exec i t
  | .settled o => o

/-- `s` with the host about to write the command word `w` to CMD: the block loads no program, its instructions are the
command words the host writes, so the next step runs exactly this one (DESIGN CHOICE, assumption 13). -/
def State.withFetchWord (s : State) (nbits w : Nat) : State :=
  { s with inputs := commandWrite (BitVec.ofNat 32 (w % 2 ^ nbits)) :: s.inputs }

end Sys2Proof.Machine
end

