-- ==== Sys2Proof/Safety.lean ====
section
/-! DEFINITION. The terms claims use: an outside world that lets the engine go on undisturbed, the wire events a step or a
run emits (spec/45_command_protocol.md R276, spec/46_display_driver.md R290), and what a safe state is: nothing held while
idle (R287), flags and fields the spec allows (spec/10_state.md R26, R32; spec/30_encoding.md R100), and the order in which
ACT, PSTATE and STEP go (spec/45_command_protocol.md R230). -/

namespace Sys2Proof.Machine

/-! ### An undisturbed outside world -/

/-- What an action takes from the outside world when every outcome is ok and no host transaction comes between: work for a
gate, ok for an event, one TICK for every count of a delay. -/
def calmInput : Op → List Input
  | .gate => [.work]
  | .await => [.answer .ok]
  | .request (.delay ms) => List.replicate ms.toNat .tick
  | .request .busOpen | .request .busClose | .request (.lineClaim _) | .request (.lineRelease _) | .request (.lineSet _ _)
  | .request (.xfer _) => []
  | .setAct _ | .setPState _ | .setStep _ | .setPos _ | .check | .timer | .dimensionCheck | .fit | .background | .resample
  | .dither | .pack | .finish _ => []

/-- What a whole sequence takes from an undisturbed outside world. -/
def calmInputs (ops : List Op) : List Input := ops.flatMap calmInput

/-- What it does for a protocol step with a payload, its delay apart. -/
def stepInputs : List Input := [.work, .answer .ok, .work, .answer .ok, .work, .answer .ok, .work, .answer .ok]

/-- What it does for a reset sequence up to the outcome of the line write `u`, and to its end (spec/45_command_protocol.md
R235). -/
def resetInputs : Fin 4 → List Input
  | 0 => [.work, .work]
  | 1 => [.work, .work, .answer .ok, .work]
  | 2 => [.work, .work, .answer .ok, .work, .answer .ok, .work] ++ List.replicate 100 .tick ++ [.work]
  | 3 => [.work, .work, .answer .ok, .work, .answer .ok, .work] ++ List.replicate 100 .tick ++ [.work, .answer .ok, .work]
      ++ List.replicate 100 .tick ++ [.work]
def resetInputsAll : List Input := resetInputs 3 ++ [.answer .ok, .work] ++ List.replicate 1000 .tick

/-! ### Wire events of a run -/

/-- The data-mode bracket of a payload (spec/45_command_protocol.md R233). -/
def payloadTrace (bytes : List Byte) : List WireEvent := [.lineSet .dc true, .xfer true bytes, .lineSet .dc false]

/-- The wire events of a reset sequence (R235). -/
def resetTrace : List WireEvent :=
  [.lineSet .dc false, .lineSet .rst true, .delay 100, .lineSet .rst false, .delay 100, .lineSet .rst true, .delay 1000]

/-- The payload bytes of INIT_SEQUENCE[k] (spec/30_encoding.md R96). -/
def initData (cfg : Config) (k : Fin 19) : List Byte := cfg.initSequence[k].first :: cfg.initSequence[k].rest

/-- The wire events of init step k (R241 to R259). -/
def initTrace (cfg : Config) (k : Fin 19) : List WireEvent :=
  .xfer false [cfg.initSequence[k].op] :: payloadTrace (initData cfg k)

/-- The wire events of the paint steps, with the frame that step 0 sends (R262 to R265). -/
def paintTrace (cfg : Config) (frame : List Byte) : Fin 4 → List WireEvent
  | 0 => .xfer false [cfg.opDtm] :: payloadTrace frame ++ [.delay 1000]
  | 1 => [.xfer false [cfg.opPon], .delay 1000]
  | 2 => .xfer false [cfg.opDrf] :: payloadTrace [cfg.drfData] ++ [.delay 35000]
  | 3 => .xfer false [cfg.opPof] :: payloadTrace [cfg.pofData] ++ [.delay 1000]

/-- The wire events of an acquisition and of a release (spec/46_display_driver.md R284, R286). -/
def acquireTrace (cfg : Config) : List WireEvent :=
  [.busOpen cfg.spiMode cfg.spiClockHz, .lineClaim .rst lineFlags, .lineClaim .dc lineFlags]
def releaseTrace : List WireEvent := [.lineRelease .dc, .lineRelease .rst, .busClose]

/-- The wire events of a successful RENDER that sends `frame` (R290). -/
def renderTrace (cfg : Config) (frame : List Byte) : List WireEvent :=
  acquireTrace cfg ++ resetTrace ++ (List.finRange 19).flatMap (initTrace cfg)
    ++ (List.finRange 4).flatMap (paintTrace cfg frame) ++ releaseTrace

/-- The changes of level on the bus pins that an event, and a run of events, make when every outcome is ok
(spec/44_serial_bus.md R204, R210 to R212). -/
def eventWave (cfg : Config) : WireEvent → List PinMove
  | .xfer _ bytes => transferMoves cfg.spiMode cfg.csPulsed bytes
  | .busOpen _ _ | .busClose | .lineClaim _ _ | .lineRelease _ | .lineSet _ _ | .delay _ => []
def traceWave (cfg : Config) (events : List WireEvent) : List PinMove := events.flatMap (eventWave cfg)

/-! ### The frame that PREPARE computes -/

/-- CT, E and IDX, and the PackedFrame, that PREPARE computes from a block's palette, SRC_DIM and SRCMEM
(spec/46_display_driver.md R281). -/
def preparedCanvas (s : State) : Array Rgb :=
  resampleCanvas (sourcePixel s.mem (srcW s)) (srcW s) (srcH s) (fitRegion (srcW s) (srcH s)) (backgroundCanvas s.cfg)
def preparedBuffers (s : State) : DitherBuffers :=
  ditherPass s.cfg.palette (fitRegion (srcW s) (srcH s)) (preparedCanvas s)
def preparedFrame (s : State) : List Byte := packFrame (preparedBuffers s).idx

/-- The weight with which a visit of the region pixel (i, j) adds its error to the accumulator at (p, q): right 7, bottom-left
3, bottom 5, bottom-right 1, none elsewhere (spec/41_dither.md R156). -/
def shareWeight (i j p q : Nat) : Int :=
  if q = j ∧ p = i + 1 then 7
  else if q = j + 1 ∧ p + 1 = i then 3
  else if q = j + 1 ∧ p = i then 5
  else if q = j + 1 ∧ p = i + 1 then 1
  else 0

/-- One channel of a resampled pixel before the division: the weighted sum S of its four source samples
(spec/40_fit_resample.md R123). -/
def weightedSum (ax ay : AxisMap) (sample : Nat → Nat → Byte) : Nat :=
  ax.wlo * ay.wlo * (sample ax.lo ay.lo).toNat + ax.whi * ay.wlo * (sample ax.hi ay.lo).toNat
    + ax.wlo * ay.whi * (sample ax.lo ay.hi).toNat + ax.whi * ay.whi * (sample ax.hi ay.hi).toNat

/-- The dimensions of the source image pass the check: neither is zero, and SRCMEM holds that many pixels
(spec/40_fit_resample.md R120). -/
abbrev sourceLegal (s : State) : Prop := 1 ≤ srcW s ∧ 1 ≤ srcH s ∧ srcW s * srcH s ≤ s.cfg.srcmemWords.val

/-- A PREPARE that can complete: the dimensions pass the check and every source word has been written
(spec/20_memory.md R66, spec/70_reset_and_hazards.md R335). -/
abbrev sourceReady (s : State) : Prop :=
  sourceLegal s ∧ ∀ k, k < srcW s * srcH s → memReadWord s.mem (0x100000 + 4 * k) ≠ none

/-! ### Protocol steps and their failures -/

/-- The instructions INIT[0..18] and PAINT[0..3] by their step index (spec/45_command_protocol.md R241 to R259, R262 to
R265). -/
def initInstr (k : Fin 19) : Instr :=
  #v[.init0, .init1, .init2, .init3, .init4, .init5, .init6, .init7, .init8, .init9, .init10, .init11, .init12, .init13,
     .init14, .init15, .init16, .init17, .init18][k]
def paintInstr (k : Fin 4) : Instr := #v[.paint0, .paint1, .paint2, .paint3][k]

/-- The bytes that a paint step's payload stands for once its opcode has been sent (spec/30_encoding.md R96,
spec/45_command_protocol.md R261); a FRAMEMEM byte that nothing has written is drawn. -/
def paintData (s : State) : Fin 4 → List Byte
  | 0 => bytesOrDraw s.mem (s.draws + 2) frameBase frameBytes
  | 1 => []
  | 2 => [s.cfg.drfData]
  | 3 => [s.cfg.pofData]

/-- The opcode byte of a paint step (R96). -/
def paintOp (cfg : Config) : Fin 4 → Byte
  | 0 => cfg.opDtm
  | 1 => cfg.opPon
  | 2 => cfg.opDrf
  | 3 => cfg.opPof

/-- The delay of a paint step in milliseconds (R96). -/
def paintDelay : Fin 4 → BitVec 16
  | 0 => 1000
  | 1 => 1000
  | 2 => 35000
  | 3 => 1000

/-- The 23 commands of a run that sends `frame`, in order (R96). -/
def runCommands (cfg : Config) (frame : List Byte) : List WireCommand :=
  (List.finRange 19).map (fun k => ⟨cfg.initSequence[k].op, initData cfg k⟩)
    ++ [⟨cfg.opDtm, frame⟩, ⟨cfg.opPon, []⟩, ⟨cfg.opDrf, [cfg.drfData]⟩, ⟨cfg.opPof, [cfg.pofData]⟩]

/-- The releases of what a state holds, in the abort path's order: DC, RST, bus (spec/60_exceptions.md R305). -/
def heldReleases (s : State) : List WireEvent :=
  (if s.dc.claimed then [.lineRelease .dc] else []) ++ (if s.rst.claimed then [.lineRelease .rst] else [])
    ++ (if s.bus.isSome then [.busClose] else [])

/-- How many of the three resources a state holds. -/
def heldCount (s : State) : Nat := s.dc.claimed.toNat + s.rst.claimed.toNat + s.bus.isSome.toNat

/-- The state after the abort path has run from `s` to its end (R305), with `ins` still to come: what was held is released
and its pins are no longer driven, ERR is 1, BUSY 0, ACT IDLE, and nothing remains to be done. -/
def afterAbort (ins : List Input) (s : State) : State :=
  { s with
    act := .idle, statusDone := false, statusErr := true, busy := false, todo := []
    dc := if s.dc.claimed then .released else s.dc, pinDc := if s.dc.claimed then .undriven else s.pinDc
    rst := if s.rst.claimed then .released else s.rst, pinRst := if s.rst.claimed then .undriven else s.pinRst
    bus := none
    pinSclk := if s.bus.isSome then .undriven else s.pinSclk, pinMosi := if s.bus.isSome then .undriven else s.pinMosi
    pinCsN := if s.bus.isSome then .undriven else s.pinCsN
    trace := s.trace ++ heldReleases s, inputs := ins }

/-- A host read took `v` from address `a`: the value goes to the host and nothing of the block changes
(spec/20_memory.md R71). -/
def afterRead (a : HostAddr) (v : Word) (rest : List Input) (s : State) : State :=
  { s with inputs := rest, reads := s.reads ++ [⟨a, v⟩], draws := s.draws + 1 }

/-- Running `i` from `s`, answered with `answers`, each after some work of the engine, emits `emitted`, fails at `p` with class `c`, and aborts: ERROR, the flags,
the releases of bus and lines, PSTATE and STEP as they were at the failure (R305, R268). -/
def failsAt (i : Instr) (s : State) (answers : List Answer) (emitted : List WireEvent) (c : ErrClass) (p : Pos) : Prop :=
  ∀ rest : List Input, s.inputs = .work :: (answers.map .answer).intersperse .work ++ (List.replicate 4 .work ++ rest) →
    ∃ t, exec i s = .next t ∧ t.error = ⟨c, true, p.phase, p.step, p.uop⟩ ∧ t.trace = s.trace ++ emitted ++ releaseTrace
      ∧ t.statusErr = true ∧ t.statusDone = false ∧ t.busy = false ∧ t.act = .idle ∧ t.bus = none ∧ t.rst = .released
      ∧ t.dc = .released ∧ t.pstate = s.pstate ∧ t.stepIx = p.step ∧ t.mem = s.mem ∧ t.todo = [] ∧ t.inputs = rest

/-! ### Safe states -/

/-- No resource is held: BUS_HELD = RST_HELD = DC_HELD = 0 (spec/46_display_driver.md R287). -/
abbrev nothingHeld (s : State) : Prop := s.bus = none ∧ s.rst.claimed = false ∧ s.dc.claimed = false

/-- STATUS's flags are as the spec allows: DONE and ERR never both, neither while BUSY, ACT IDLE exactly when BUSY is 0
(spec/10_state.md R26, R32); a sequence is in progress only while BUSY, and it writes ACT IDLE nowhere but at its end. -/
abbrev flagsOk (s : State) : Prop :=
  (s.statusDone && s.statusErr) = false ∧ (s.busy = true → s.statusDone = false ∧ s.statusErr = false)
    ∧ (s.busy = false ↔ s.act = .idle) ∧ (s.busy = false → s.todo = []) ∧ Op.setAct .idle ∉ s.todo

/-- ERROR.WRAPPED is 1 exactly for the phases INIT and PAINT (spec/60_exceptions.md R301). -/
abbrev errorOk (s : State) : Prop := s.error.wrapped = wrapsIn s.error.phase

/-- Which of the three resources are meant. -/
structure Holdings where
  bus : Bool
  rst : Bool
  dc : Bool
deriving DecidableEq, Repr

/-- What the block holds. -/
def heldBy (s : State) : Holdings := ⟨s.bus.isSome, s.rst.claimed, s.dc.claimed⟩

/-- What the event in progress asks for. -/
def askedFor : Option WireEvent → Holdings
  | some (.busOpen _ _) => ⟨true, false, false⟩
  | some (.lineClaim .rst _) => ⟨false, true, false⟩
  | some (.lineClaim .dc _) => ⟨false, false, true⟩
  | some (.busClose) | some (.lineRelease _) | some (.lineSet _ _) | some (.xfer _ _) | some (.delay _) | none =>
    ⟨false, false, false⟩

/-- What an action may leave held, given what is held and asked for before it: an outcome gives what was asked for, a release
takes it. -/
def holdAfter (h asked : Holdings) : Op → Holdings
  | .await => ⟨h.bus || asked.bus, h.rst || asked.rst, h.dc || asked.dc⟩
  | .request .busClose => { h with bus := false }
  | .request (.lineRelease .rst) => { h with rst := false }
  | .request (.lineRelease .dc) => { h with dc := false }
  | .request .busOpen | .request (.lineClaim _) | .request (.lineSet _ _) | .request (.xfer _) | .request (.delay _) => h
  | .setAct _ | .setPState _ | .setStep _ | .setPos _ | .gate | .check | .timer | .dimensionCheck | .fit | .background
  | .resample | .dither | .pack | .finish _ => h

/-- What is asked for after an action. -/
def askedAfter (asked : Holdings) : Op → Holdings
  | .await => ⟨false, false, false⟩
  | .request .busOpen => ⟨true, false, false⟩
  | .request (.lineClaim .rst) => ⟨false, true, false⟩
  | .request (.lineClaim .dc) => ⟨false, false, true⟩
  | .request (.lineSet _ _) | .request (.xfer _) => ⟨false, false, false⟩
  | .request .busClose | .request (.lineRelease _) | .request (.delay _) => asked
  | .setAct _ | .setPState _ | .setStep _ | .setPos _ | .gate | .check | .timer | .dimensionCheck | .fit | .background
  | .resample | .dither | .pack | .finish _ => asked

/-- Does a sequence give back everything it may hold before the operation ends? -/
def endsClean : List Op → Holdings → Holdings → Bool
  | [], _, _ => true
  | .finish _ :: _, h, _ => !h.bus && !h.rst && !h.dc
  | op :: rest, h, asked => endsClean rest (holdAfter h asked op) (askedAfter asked op)

/-- The release invariant (spec/46_display_driver.md R287): nothing is held while BUSY is 0, and what remains of the
operation in progress gives everything back. -/
abbrev releasesAll (s : State) : Prop :=
  (s.busy = false → nothingHeld s ∧ s.todo = []) ∧ endsClean s.todo (heldBy s) (askedFor s.outstanding) = true

/-- The engine's position within an operation, as STATUS shows it (spec/10_state.md R21). -/
structure Progress where
  act : Act
  pstate : PState
  step : BitVec 8
deriving DecidableEq, Repr

/-- The position of a state. -/
def progressOf (s : State) : Progress := ⟨s.act, s.pstate, s.stepIx⟩

/-- The activity that follows an activity in RENDER (spec/46_display_driver.md R283). -/
def nextAct : Act → Option Act
  | .prepare => some .acquire
  | .acquire => some .protocol
  | .protocol => some .release
  | .idle | .release => none

/-- The protocol state that follows a protocol state (spec/45_command_protocol.md R230). -/
def nextPState : PState → Option PState
  | .unpowered => some .resetting
  | .resetting => some .initialized
  | .initialized => some .painting
  | .painting => some .settled
  | .settled => none

/-- The last step of a protocol state: 18 of INITIALIZED, 3 of PAINTING, 0 of the others (spec/10_state.md R29). -/
def lastStep : PState → BitVec 8
  | .initialized => 18
  | .painting => 3
  | .unpowered | .resetting | .settled => 0

/-- May the engine stand at a micro-operation of position `q` (spec/60_exceptions.md R302)? The acquisition steps belong to
ACT ACQUIRE; the others to ACT PROTOCOL, the reset sequence's to RESETTING, and those of step k of the init and of the paint
sequence to INITIALIZED and PAINTING with STEP k. -/
def standsAt (p : Progress) (q : Pos) : Bool :=
  match q.phase with
  | .acquire => decide (p.act = .acquire)
  | .reset => decide (p.act = .protocol ∧ p.pstate = .resetting ∧ q.step = 0)
  | .init => decide (p.act = .protocol ∧ p.pstate = .initialized ∧ q.step = p.step)
  | .paint => decide (p.act = .protocol ∧ p.pstate = .painting ∧ q.step = p.step)
  | .noPhase | .prepare => false

/-- May the engine ask for a wire event at this position? BusOpen and LineClaim belong to ACT ACQUIRE, before the protocol
has begun; LineRelease and BusClose to ACT RELEASE; the rest to ACT PROTOCOL, with RST written and delays counted only in
RESETTING, delays also in PAINTING, and bytes sent only in INITIALIZED and PAINTING (spec/10_state.md R32,
spec/45_command_protocol.md R235, R240, R260, spec/70_reset_and_hazards.md R347). -/
def asksFor (p : Progress) : Request → Bool
  | .busOpen | .lineClaim _ => decide (p.act = .acquire ∧ p.pstate = .unpowered)
  | .lineRelease _ | .busClose => decide (p.act = .release)
  | .lineSet .rst _ => decide (p.act = .protocol ∧ p.pstate = .resetting)
  | .lineSet .dc _ =>
    decide (p.act = .protocol ∧ (p.pstate = .resetting ∨ p.pstate = .initialized ∨ p.pstate = .painting))
  | .xfer _ => decide (p.act = .protocol ∧ (p.pstate = .initialized ∨ p.pstate = .painting))
  | .delay _ => decide (p.act = .protocol ∧ (p.pstate = .resetting ∨ p.pstate = .painting))

/-- The request that a wire event answers. -/
def requestOf : WireEvent → Request
  | .busOpen _ _ => .busOpen
  | .busClose => .busClose
  | .lineClaim l _ => .lineClaim l
  | .lineRelease l => .lineRelease l
  | .lineSet l v => .lineSet l v
  | .xfer _ bytes => .xfer (.const bytes)
  | .delay ms => .delay ms

/-- Does a request wait for an outcome (spec/00_scope.md R14)? -/
def Request.awaited : Request → Bool
  | .busOpen | .lineClaim _ | .lineSet _ _ | .xfer _ => true
  | .busClose | .lineRelease _ | .delay _ => false

/-- May an action be taken at this position? ACT and PSTATE go to their successor only, PSTATE when its last step has been
reached and ACT to RELEASE when the panel has settled; STEP starts at 0 and goes up by one; PREPARE's parts belong to ACT
PREPARE, and a count to a delay of RESETTING or PAINTING; an operation succeeds from PREPARE, or from RELEASE once settled,
and fails from RELEASE (spec/10_state.md R28, R29, R32, spec/45_command_protocol.md R230, R240, R260, R275). -/
def allowedAt (p : Progress) : Op → Bool
  | .setAct a => decide (nextAct p.act = some a ∧ (a = .release → p.pstate = .settled))
  | .setPState q => decide (p.act = .protocol ∧ nextPState p.pstate = some q ∧ p.step = lastStep p.pstate)
  | .setStep k =>
    decide (p.act = .protocol ∧ (p.pstate = .initialized ∨ p.pstate = .painting) ∧ k ≤ lastStep p.pstate
      ∧ (k = p.step + 1 ∨ (k = 0 ∧ p.step = 0)))
  | .setPos q => standsAt p q
  | .request r => asksFor p r
  | .timer => decide (p.act = .protocol ∧ (p.pstate = .resetting ∨ p.pstate = .painting))
  | .dimensionCheck | .fit | .background | .resample | .dither | .pack => decide (p.act = .prepare)
  | .finish true => decide (p.act = .prepare ∨ (p.act = .release ∧ p.pstate = .settled))
  | .finish false => decide (p.act = .release)
  | .gate | .await | .check => true

/-- The position after an action. -/
def progressAfter (p : Progress) : Op → Progress
  | .setAct a => { p with act := a }
  | .setPState q => { p with pstate := q, step := 0 }
  | .setStep k => { p with step := k }
  | .setPos _ | .gate | .request _ | .await | .check | .timer | .dimensionCheck | .fit | .background | .resample | .dither
  | .pack | .finish _ => p

/-- Must this action be followed by the wait for an outcome? -/
def thenAwaits : Op → Bool
  | .request r => r.awaited
  | .setAct _ | .setPState _ | .setStep _ | .setPos _ | .gate | .await | .check | .timer | .dimensionCheck | .fit | .background
  | .resample | .dither | .pack | .finish _ => false

/-- Does a sequence keep to the order of ACT, PSTATE and STEP from a position on? -/
def keepsOrder : List Op → Progress → Bool
  | [], _ => true
  | op :: rest, p =>
    allowedAt p op && (!thenAwaits op || decide (rest.head? = some .await)) && keepsOrder rest (progressAfter p op)

/-- The order invariant (spec/10_state.md R28, R29, R32, spec/45_command_protocol.md R230): STEP is within its protocol
state; what remains of the operation in progress keeps to the order of ACT, PSTATE and STEP; and an event in progress, at
which the engine stands until its outcome, belongs to the activity and the protocol state that STATUS shows. -/
abbrev progressOk (s : State) : Prop :=
  s.stepIx ≤ lastStep s.pstate ∧ keepsOrder s.todo (progressOf s) = true
    ∧ ∀ e ∈ s.outstanding, asksFor (progressOf s) (requestOf e) = true ∧ s.todo.head? = some .await

/-- A line's level reads 0 while it is not claimed (spec/10_state.md R31), and its pin is driven exactly while it is
claimed (spec/43_digital_line.md R185, R188). -/
abbrev lineOk (l : LineState) (p : Pin) : Prop := (l.claimed = false → l.level = false) ∧ (l.claimed = false ↔ p = .undriven)
abbrev linesOk (s : State) : Prop := lineOk s.rst s.pinRst ∧ lineOk s.dc s.pinDc

/-- Every palette index is 0 to 6, in IDX and in both nibbles of every FRAMEMEM byte (spec/10_state.md R40,
spec/30_encoding.md R94). -/
abbrev nibblesOk (b : Byte) : Prop := b.extractLsb' 4 4 ≤ 6 ∧ b.extractLsb' 0 4 ≤ 6
abbrev indicesOk (s : State) : Prop :=
  (∀ k ∈ s.idx.toList, k ≤ 6) ∧ ∀ c ∈ s.mem, frameBase ≤ c.1 → nibblesOk c.2

end Sys2Proof.Machine
end

