-- ==== Sys2Proof/Certificates/Slice0/Obligations.lean ====
section
/-! DEFINITION. The statements for the provers. Each docstring names the rule of the spec it formalises. -/

open Sys2Proof Sys2Proof.Machine

/-! ### Encodings -/

/-- Every well-formed instruction that a CMD word encodes is what the decoder reads back from its word and from its bytes,
whatever bytes follow; and every word is the word of the one well-formed instruction it decodes to, so that no bit of a CMD
word is dropped (spec/30_encoding.md R90 to R92, spec/20_memory.md R64). -/
def Obligations.DecodeEncodeAgree : Prop :=
  (∀ (i : Instr) (v : Word) (rest : List Byte), i.wf = true → encodeCmd i = some v →
    decodeCmd v = i ∧ encode i = some (wordBytes v) ∧ decode (wordBytes v ++ rest) = .ok i rest)
    ∧ ∀ v : Word, (decodeCmd v).wf = true ∧ encodeCmd (decodeCmd v) = some v

/-- Exactly two CMD values are PREPARE and RENDER, every other one is ILLEGAL, and there is one length
(spec/30_encoding.md R92). -/
def Obligations.ExactlyTwoCommands : Prop :=
  (∀ v : Word, (decodeCmd v = .prepare ↔ v = 0x00000001) ∧ (decodeCmd v = .render ↔ v = 0x00000002)
      ∧ (v ≠ 0x00000001 → v ≠ 0x00000002 → decodeCmd v = .illegal v))
    ∧ ∀ b0 b1 b2 b3 : Byte, ∀ rest : List Byte, decode (b0 :: b1 :: b2 :: b3 :: rest) = .ok (decodeCmd (b3 ++ b2 ++ b1 ++ b0)) rest

/-- A few command words written out from the spec's encoding of them (spec/30_encoding.md R90, R91; vectors V-CMD of
spec/95_test_vectors.md). -/
def Obligations.SampleWordsDecode : Prop :=
  decode [0x01, 0x00, 0x00, 0x00] = .ok .prepare [] ∧ decode [0x02, 0x00, 0x00, 0x00] = .ok .render []
    ∧ decode [0x03, 0x00, 0x00, 0x00] = .ok (.illegal 0x00000003) [] ∧ decode [0x00, 0x00, 0x00, 0x00] = .ok (.illegal 0) []
    ∧ decode [0x01, 0x01, 0x00, 0x00] = .ok (.illegal 0x00000101) [] ∧ decode [0x02, 0x00, 0x00, 0x80] = .ok (.illegal 0x80000002) []
    ∧ decodeTableWord 32 0x00000001 = some .prepare ∧ decodeTableWord 32 0x00000002 = some .render

/-- The wire framing of any sequence of commands can be undone from the DC levels alone (spec/30_encoding.md R97, R98). -/
def Obligations.WireFramingDecodes : Prop :=
  ∀ cs : List WireCommand, deframe (cs.flatMap frameCommand) = some cs

/-! ### A step -/

/-- A step at which the host writes a word to CMD is exec of the instruction the word decodes to, on the state with that
input taken (spec/10_state.md R23, spec/46_display_driver.md R280); nothing is added around exec. -/
def Obligations.StepRunsCommand : Prop :=
  (∀ (s : State) (v : Word) (rest : List Input), s.inputs = .host (.write 0 4 v) :: rest →
      step s = exec (decodeCmd v) { s with inputs := rest })
    ∧ ∀ (s : State) (w : Nat), step (s.withFetchWord 32 w) = exec (decodeCmd (BitVec.ofNat 32 w)) s

/-- An outcome, work or a TICK lets the operation in progress go on exactly if it is what that operation waits for: work at a
gate, a TICK at the delay timer, and at a wire event an outcome that the event can have; else it passes without effect
(spec/10_state.md R20, R21, spec/00_scope.md R14; the model's choice of assumptions 1, 4 and 17). Every event can have outcome ok,
and of the failures only those the rules name (spec/43_digital_line.md R185, R187, spec/44_serial_bus.md R200, R203). An operation
that waits goes on where it stood: a sequence that stops with its inputs used up comes, with more inputs, to the same as if they had
all been there at first. A change of level that the transfer in progress has still to make appears on its pin and in the record;
with none to make, or with the bus closed, nothing happens (spec/44_serial_bus.md R210 to R212; the model's choice of assumption
33). -/
def Obligations.StepContinuesOperation : Prop :=
  (∀ (s : State) (x : Input) (rest : List Input), s.inputs = x :: rest → (∀ t, x ≠ .host t) → x ≠ .reset → x ≠ .edge →
    let goesOn := (∃ ops, s.todo = .gate :: ops ∧ x = .work) ∨ (∃ ops, s.todo = .timer :: ops ∧ x = .tick)
      ∨ ∃ ops a, s.todo = .await :: ops ∧ x = .answer a ∧ ∀ e, s.outstanding = some e → admits e a = true
    (goesOn → step s = engine s.todo { s with todo := [] }) ∧ (¬ goesOn → step s = .next { s with inputs := rest }))
  ∧ (∀ (e : WireEvent) (c : ErrClass), admits e .ok = true
      ∧ (admits e (.fail c) = true ↔
        ((∃ mode hz, e = .busOpen mode hz) ∧ (c = .deviceUnavailable ∨ c = .configurationFailed))
          ∨ ((∃ l flags, e = .lineClaim l flags) ∧ (c = .deviceUnavailable ∨ c = .lineRequestFailed))
          ∨ ((∃ l v, e = .lineSet l v) ∧ c = .lineWriteFailed) ∨ ((∃ dc bytes, e = .xfer dc bytes) ∧ c = .transferFailed)))
  ∧ (∀ (ops : List Op) (s t : State) (more : List Input), s.todo = [] → engine ops s = .next t → t.todo ≠ [] → t.inputs = [] →
    engine ops { s with inputs := s.inputs ++ more } = engine t.todo { t with todo := [], inputs := more })
  ∧ ∀ (s : State) (rest : List Input), s.inputs = .edge :: rest →
    (s.bus = none ∨ s.moves = [] → step s = .next { s with inputs := rest })
    ∧ ∀ m more, s.bus.isSome = true → s.moves = m :: more →
      step s = .next { s with
        inputs := rest, moves := more, wave := s.wave ++ [m]
        pinCsN := (m.csNLevel.map Pin.driven).getD s.pinCsN, pinSclk := (m.sclkLevel.map Pin.driven).getD s.pinSclk
        pinMosi := (match m with | .mosi level => .driven level | .csN _ | .sclk _ => s.pinMosi) }

/-- While the environment does not answer a wire event, the engine stays in that event with BUSY = 1, and no error is raised
for it, whatever else happens but block reset (spec/70_reset_and_hazards.md R351). With nothing left to happen the state stays as it
is (the model's choice of assumption 22), and what the event does not wait for, work, a TICK or an outcome it cannot have, passes
it by (assumption 17). -/
def Obligations.StuckWithoutOutcome : Prop :=
  ∀ (s : State) (e : WireEvent) (ops : List Op), s.busy = true → s.outstanding = some e → s.todo = .await :: ops →
    s.inputs.head? ≠ some .reset → (∀ a, admits e a = true → s.inputs.head? ≠ some (.answer a)) →
    (s.inputs = [] → step s = .next s)
      ∧ ∀ t, step s = .next t → t.busy = true ∧ t.outstanding = some e ∧ t.todo = .await :: ops ∧ t.error = s.error
          ∧ t.statusErr = s.statusErr ∧ t.trace = s.trace

/-! ### The host port -/

/-- What a host read of each register offset returns, and that it changes nothing of the block
(spec/10_state.md R22, R36). -/
def Obligations.RegisterReads : Prop :=
  ∀ (s : State) (a : HostAddr) (rest : List Input), s.inputs = .host (.read a 4) :: rest →
    (a = 0x00 → step s = .next (afterRead a 0 rest s)) ∧ (a = 0x04 → step s = .next (afterRead a (statusWord s) rest s))
      ∧ (a = 0x08 → step s = .next (afterRead a (errorWord s.error) rest s))
      ∧ (a = 0x0C → step s = .next (afterRead a s.srcDim rest s)) ∧ (a = 0x10 → step s = .next (afterRead a s.fitOrigin rest s))
      ∧ (a = 0x14 → step s = .next (afterRead a s.fitSize rest s))
      ∧ (0x18 ≤ a.toNat → a.toNat ≤ 0xFC → a.toNat % 4 = 0 → step s = .next (afterRead a 0 rest s))

/-- An unmapped address reads as 0 and ignores writes, which do not set OVERRUN (spec/20_memory.md R61, R62). -/
def Obligations.UnmappedAccess : Prop :=
  ∀ (s : State) (a : HostAddr) (v : Word) (rest : List Input), a.toNat % 4 = 0 →
    ((0x100 ≤ a.toNat ∧ a.toNat < 0x100000)
      ∨ (0x100000 + 4 * s.cfg.srcmemWords.val ≤ a.toNat ∧ a.toNat < 0x800000) ∨ 0x82EE00 ≤ a.toNat) →
    (s.inputs = .host (.read a 4) :: rest → step s = .next (afterRead a 0 rest s))
      ∧ (s.inputs = .host (.write a 4 v) :: rest → step s = .next { s with inputs := rest })

/-- A host access that is not 32 bits wide or not at a multiple of 4 is refused (spec/20_memory.md R63). -/
def Obligations.MisalignedRefused : Prop :=
  ∀ (s : State) (a : HostAddr) (size : Nat) (v : Word) (rest : List Input), (size ≠ 4 ∨ a.toNat % 4 ≠ 0) →
    (s.inputs = .host (.read a size) :: rest → step s = .refused (.hostAccess a size))
      ∧ (s.inputs = .host (.write a size v) :: rest → step s = .refused (.hostAccess a size))

/-- SRC_DIM: its fields, a write while idle, which takes any value and which a read returns, and a write while BUSY, which is
dropped (spec/10_state.md R34). -/
def Obligations.SrcDimWrite : Prop :=
  ∀ (s : State) (v : Word) (rest : List Input), s.inputs = .host (.write 0x0C 4 v) :: rest →
    (s.busy = false → step s = .next { s with inputs := rest, srcDim := v })
      ∧ (s.busy = true → step s = .next { s with inputs := rest, overrun := true })
      ∧ srcW { s with srcDim := v } = v.toNat % 65536 ∧ srcH { s with srcDim := v } = v.toNat / 65536
      ∧ ∀ more : List Input, rest = .host (.read 0x0C 4) :: more →
        step { s with inputs := rest, srcDim := v } = .next (afterRead 0x0C v more { s with srcDim := v })

/-- SRCMEM: a word written while idle is read back, and no other byte of memory changes; a write while BUSY is dropped; a read
returns the word stored there, BUSY or not, and a draw if nothing is stored there (spec/20_memory.md R69, R64,
spec/10_state.md R48). -/
def Obligations.SrcmemAccess : Prop :=
  ∀ (s : State) (k : Nat) (a : HostAddr) (v : Word) (rest : List Input), k < s.cfg.srcmemWords.val → a.toNat = 0x100000 + 4 * k →
    (s.busy = false → s.inputs = .host (.write a 4 v) :: .host (.read a 4) :: rest →
      ∃ m, step s = .next { s with inputs := .host (.read a 4) :: rest, mem := m }
        ∧ step { s with inputs := .host (.read a 4) :: rest, mem := m } = .next (afterRead a v rest { s with mem := m })
        ∧ (∀ j, j < 4 → memRead m (a.toNat + j) = (wordBytes v)[j]?)
        ∧ ∀ x, ¬ (a.toNat ≤ x ∧ x < a.toNat + 4) → memRead m x = memRead s.mem x)
      ∧ (s.busy = true → s.inputs = .host (.write a 4 v) :: rest → step s = .next { s with inputs := rest, overrun := true })
      ∧ (s.inputs = .host (.read a 4) :: rest →
        (∀ w, memReadWord s.mem a.toNat = some w → step s = .next (afterRead a w rest s))
          ∧ ((∀ j, j < 4 → memRead s.mem (a.toNat + j) = none) → step s = .next (afterRead a (drawnWord s.draws) rest s)))

/-- A host read of a FRAMEMEM word: little-endian over the frame's bytes; a draw while PREPARE rewrites it, or where nothing
has been written (spec/20_memory.md R67). -/
def Obligations.FramememReads : Prop :=
  ∀ (s : State) (k : Nat) (a : HostAddr) (rest : List Input), k < 48000 → a.toNat = 0x800000 + 4 * k →
    s.inputs = .host (.read a 4) :: rest →
    (∀ b0 b1 b2 b3, ¬ (s.busy = true ∧ s.act = .prepare) → memRead s.mem (0x800000 + 4 * k) = some b0 →
        memRead s.mem (0x800000 + (4 * k + 1)) = some b1 → memRead s.mem (0x800000 + (4 * k + 2)) = some b2 →
        memRead s.mem (0x800000 + (4 * k + 3)) = some b3 → step s = .next (afterRead a (b3 ++ b2 ++ b1 ++ b0) rest s))
      ∧ (s.busy = true ∧ s.act = .prepare → step s = .next (afterRead a (drawnWord s.draws) rest s))
      ∧ ((∀ j, j < 4 → memRead s.mem (a.toNat + j) = none) → step s = .next (afterRead a (drawnWord s.draws) rest s))

/-- A host write to a read-only register, a reserved offset or FRAMEMEM is ignored and does not set OVERRUN
(spec/10_state.md R36, spec/20_memory.md R68). -/
def Obligations.ReadOnlyWritesIgnored : Prop :=
  ∀ (s : State) (a : HostAddr) (v : Word) (rest : List Input), a.toNat % 4 = 0 →
    ((0x04 ≤ a.toNat ∧ a.toNat < 0x100 ∧ a.toNat ≠ 0x0C) ∨ (0x800000 ≤ a.toNat ∧ a.toNat < 0x82EE00)) →
    s.inputs = .host (.write a 4 v) :: rest → step s = .next { s with inputs := rest }

/-- No host read has a side effect on the block: what changes is what the host has read, and the model's own counters
(spec/20_memory.md R71). -/
def Obligations.HostReadsHaveNoSideEffect : Prop :=
  ∀ (s t : State) (a : HostAddr) (size : Nat) (rest : List Input), s.inputs = .host (.read a size) :: rest → step s = .next t →
    { t with inputs := s.inputs, reads := s.reads, draws := s.draws } = s ∧ t.inputs = rest
      ∧ ∃ v, t.reads = s.reads ++ [⟨a, v⟩]

/-- The fields of the words that host reads of STATUS and ERROR return (spec/10_state.md R24, R33), with the codes of PSTATE,
ACT, CLASS and PHASE (R28, R32, spec/60_exceptions.md R300) and the mirrored resource state (R30, R31). -/
def Obligations.StatusAndErrorFields : Prop :=
  (∀ s : State,
    (statusWord s).getLsbD 0 = s.busy ∧ (statusWord s).getLsbD 1 = s.statusDone ∧ (statusWord s).getLsbD 2 = s.statusErr
      ∧ (statusWord s).getLsbD 3 = s.overrun ∧ (statusWord s).extractLsb' 4 3 = pstateCode s.pstate
      ∧ (statusWord s).getLsbD 7 = false ∧ (statusWord s).extractLsb' 8 8 = s.stepIx
      ∧ (statusWord s).getLsbD 16 = s.bus.isSome ∧ (statusWord s).getLsbD 17 = s.rst.claimed
      ∧ (statusWord s).getLsbD 18 = s.dc.claimed ∧ (statusWord s).getLsbD 19 = s.rst.level
      ∧ (statusWord s).getLsbD 20 = s.dc.level ∧ (statusWord s).extractLsb' 21 3 = actCode s.act
      ∧ (statusWord s).extractLsb' 24 8 = 0)
    ∧ [PState.unpowered, .resetting, .initialized, .painting, .settled].map pstateCode = [0, 1, 2, 3, 4]
    ∧ [Act.idle, .prepare, .acquire, .protocol, .release].map actCode = [0, 1, 2, 3, 4]
    ∧ (∀ e : ErrorReg,
    (errorWord e).extractLsb' 0 4 = classCode e.cls ∧ (errorWord e).getLsbD 4 = e.wrapped
      ∧ (errorWord e).extractLsb' 5 3 = phaseCode e.phase ∧ (errorWord e).extractLsb' 8 8 = e.step
      ∧ (errorWord e).extractLsb' 16 4 = e.uop ∧ (errorWord e).extractLsb' 20 12 = 0)
    ∧ [ErrClass.noError, .invalidImage, .deviceUnavailable, .lineRequestFailed, .lineWriteFailed, .configurationFailed,
        .transferFailed, .illegalOperation].map classCode = [0, 1, 2, 3, 4, 5, 6, 7]
    ∧ [Phase.noPhase, .prepare, .acquire, .reset, .init, .paint].map phaseCode = [0, 1, 2, 3, 4, 5]

/-! ### Host operations -/

/-- A host write of CMD, SRC_DIM or an SRCMEM address while BUSY is 1 is dropped and sets OVERRUN, and has no other effect;
OVERRUN returns to 0 only when a CMD write is decoded while BUSY is 0, block reset apart (spec/10_state.md R27). -/
def Obligations.OverrunRule : Prop :=
  (∀ (s : State) (a : HostAddr) (v : Word) (rest : List Input), s.busy = true → s.inputs = .host (.write a 4 v) :: rest →
      (a = 0 ∨ a = 0x0C ∨ ∃ k, k < s.cfg.srcmemWords.val ∧ a.toNat = 0x100000 + 4 * k) →
      step s = .next { s with inputs := rest, overrun := true })
    ∧ ∀ s t : State, step s = .next t → s.overrun = true → t.overrun = false → s.inputs.head? ≠ some .reset →
      s.busy = false ∧ ∃ v rest, s.inputs = .host (.write 0 4 v) :: rest

/-- Every CMD value but the two is IllegalOperation: ERROR = 0x00000007, ERR is set, BUSY stays 0, and nothing else changes
(spec/46_display_driver.md R280, spec/60_exceptions.md R305). -/
def Obligations.IllegalOperation : Prop :=
  ∀ (s : State) (v : Word), s.busy = false →
    exec (.illegal v) s = .next { s with
      statusDone := false, statusErr := true, overrun := false, error := ⟨.illegalOperation, false, .noPhase, 0, 0⟩ }
      ∧ errorWord ⟨.illegalOperation, false, .noPhase, 0, 0⟩ = 0x00000007

/-- PREPARE, accepted while idle with a source image of legal dimensions that has been written, and left to work: FIT_ORIGIN,
FIT_SIZE and FRAMEMEM hold the results, DONE is set, BUSY is 0, and nothing on the wire or the pins changes; every byte outside
FRAMEMEM reads as before (spec/46_display_driver.md R281). -/
def Obligations.PrepareCompletes : Prop :=
  ∀ (s : State) (rest : List Input), s.busy = false → sourceReady s → s.inputs = List.replicate 7 .work ++ rest →
    (∀ a, (a < 0x800000 ∨ 0x82EE00 ≤ a) → memRead (memWrite s.mem frameBase (preparedFrame s)) a = memRead s.mem a)
    ∧ (∀ n, n < 192000 → memRead (memWrite s.mem frameBase (preparedFrame s)) (0x800000 + n) = (preparedFrame s)[n]?)
    ∧ exec .prepare s = .next { s with
      busy := false, statusDone := true, statusErr := false, overrun := false, error := .clear, act := .idle
      fitOrigin := pairWord (fitRegion (srcW s) (srcH s)).y0 (fitRegion (srcW s) (srcH s)).x0
      fitSize := pairWord (fitRegion (srcW s) (srcH s)).fh (fitRegion (srcW s) (srcH s)).fw
      ct := preparedCanvas s, errAcc := (preparedBuffers s).err, idx := (preparedBuffers s).idx
      mem := memWrite s.mem frameBase (preparedFrame s)
      held := none, outstanding := none, todo := [], moves := [], inputs := rest }

/-- A PREPARE or RENDER of an image with a zero dimension or over capacity fails with InvalidImage at its position, emits no
wire event, touches no pin and writes no result (spec/40_fit_resample.md R120, spec/46_display_driver.md R289). -/
def Obligations.InvalidImageTouchesNothing : Prop :=
  ∀ (s : State) (rest : List Input), s.busy = false → nothingHeld s →
    (srcW s = 0 ∨ srcH s = 0 ∨ s.cfg.srcmemWords.val < srcW s * srcH s) → s.inputs = .work :: .work :: rest →
    exec .prepare s = .next { s with
      busy := false, statusDone := false, statusErr := true, overrun := false, act := .idle
      error := ⟨.invalidImage, false, .prepare, 0, if srcW s = 0 ∨ srcH s = 0 then 0 else 1⟩
      held := none, outstanding := none, todo := [], moves := [], inputs := rest }
    ∧ exec .render s = .next { s with
      busy := false, statusDone := false, statusErr := true, overrun := false, act := .idle, pstate := .unpowered, stepIx := 0
      error := ⟨.invalidImage, false, .prepare, 0, if srcW s = 0 ∨ srcH s = 0 then 0 else 1⟩
      held := none, outstanding := none, todo := [], moves := [], inputs := rest }

/-- A PREPARE or RENDER whose pipeline reads an SRCMEM word that nothing has written faults, naming the first such word
(spec/10_state.md R48). -/
def Obligations.UnwrittenSourceFaults : Prop :=
  ∀ (s : State) (k : Nat) (rest : List Input), s.busy = false → sourceLegal s →
    k < srcW s * srcH s → memReadWord s.mem (0x100000 + 4 * k) = none →
    (∀ j, j < k → memReadWord s.mem (0x100000 + 4 * j) ≠ none) → s.inputs = List.replicate 4 .work ++ rest →
    exec .prepare s = .fault (.unwrittenSource k) ∧ exec .render s = .fault (.unwrittenSource k)

/-- RENDER with every outcome ok: the whole final state. The trace grows by the 106 events of R290, the bytes on the bus are
the framing of the 23 commands of the step ROM with the frame PREPARE computed, the changes of level on the bus pins are those of
the trace's transfers, STATUS ends as 0x00000042, and everything acquired has been released (spec/46_display_driver.md R282, R283,
R290, R291). The inputs that let it run, and the changes of level of a transfer, are the model's choice (assumptions 3, 4, 10, 16,
33, 36). -/
def Obligations.RenderCompletes : Prop :=
  ∀ (s : State) (rest : List Input), s.busy = false → sourceReady s → s.inputs = calmInputs (renderSequence s.cfg) ++ rest →
    ∃ t, exec .render s = .next t ∧ statusWord t = 0x00000042
      ∧ (∀ a, (a < 0x800000 ∨ 0x82EE00 ≤ a) → memRead t.mem a = memRead s.mem a) ∧ (renderTrace s.cfg (preparedFrame s)).length = 106
      ∧ t = { s with
        busy := false, statusDone := true, statusErr := false, overrun := false, error := .clear
        pstate := .settled, stepIx := 0, act := .idle
        fitOrigin := pairWord (fitRegion (srcW s) (srcH s)).y0 (fitRegion (srcW s) (srcH s)).x0
        fitSize := pairWord (fitRegion (srcW s) (srcH s)).fh (fitRegion (srcW s) (srcH s)).fw
        ct := preparedCanvas s, errAcc := (preparedBuffers s).err, idx := (preparedBuffers s).idx
        mem := memWrite s.mem frameBase (preparedFrame s)
        bus := none, rst := .released, dc := .released
        pinSclk := .undriven, pinMosi := .undriven, pinCsN := .undriven, pinRst := .undriven, pinDc := .undriven, dly := 0
        trace := s.trace ++ renderTrace s.cfg (preparedFrame s)
        outcomes := s.outcomes ++ List.replicate 96 .ok
        shifted := s.shifted ++ (runCommands s.cfg (preparedFrame s)).flatMap frameCommand
        wave := s.wave ++ traceWave s.cfg (renderTrace s.cfg (preparedFrame s)), moves := []
        pos := ⟨.paint, 3, 3⟩, held := none, outstanding := none, todo := [], inputs := rest, draws := s.draws + 91 }

/-! ### Micro-operations -/

/-- BusOpen answered ok: the bus is open with its configuration, SCLK at its idle level, CS_N high, MOSI at some level
(spec/44_serial_bus.md R200; MOSI is the free value of assumption 9, and that SCLK's idle level is bit 1 of SPI_MODE is assumption
10). -/
def Obligations.BusOpenCompletes : Prop :=
  ∀ (s : State) (rest : List Input), s.held = none → s.inputs = .answer .ok :: rest →
    ∃ mosi, exec .busOpen s = .next { s with
      bus := some ⟨s.cfg.spiMode, s.cfg.spiClockHz⟩, pinSclk := .driven (s.cfg.spiMode.getLsbD 1), pinCsN := .driven true
      pinMosi := .driven mosi, trace := s.trace ++ [.busOpen s.cfg.spiMode s.cfg.spiClockHz]
      outcomes := s.outcomes ++ [.ok], pos := ⟨.acquire, 0, 0⟩, outstanding := none, inputs := rest, draws := s.draws + 1 }

/-- LineClaim answered ok: the line is claimed with level 0 and its pin driven to 0 (spec/43_digital_line.md R185). -/
def Obligations.LineClaimCompletes : Prop :=
  ∀ (s : State) (rest : List Input), s.held = none → s.inputs = .answer .ok :: rest →
    exec (.lineClaim .rst) s = .next { s with
      rst := ⟨true, false⟩, pinRst := .driven false, trace := s.trace ++ [.lineClaim .rst ⟨true, true⟩]
      outcomes := s.outcomes ++ [.ok], pos := ⟨.acquire, 1, 0⟩, outstanding := none, inputs := rest }
    ∧ exec (.lineClaim .dc) s = .next { s with
      dc := ⟨true, false⟩, pinDc := .driven false, trace := s.trace ++ [.lineClaim .dc ⟨true, true⟩]
      outcomes := s.outcomes ++ [.ok], pos := ⟨.acquire, 2, 0⟩, outstanding := none, inputs := rest }

/-- LineSet of a claimed line, answered ok: the level and the pin take the value (spec/43_digital_line.md R186). -/
def Obligations.LineSetCompletes : Prop :=
  ∀ (s : State) (v : Bool) (rest : List Input), s.held = none → s.inputs = .answer .ok :: rest →
    (s.rst.claimed = true → exec (.lineSet .rst v) s = .next { s with
      rst := ⟨true, v⟩, pinRst := .driven v, trace := s.trace ++ [.lineSet .rst v], outcomes := s.outcomes ++ [.ok]
      outstanding := none, inputs := rest })
    ∧ (s.dc.claimed = true → exec (.lineSet .dc v) s = .next { s with
      dc := ⟨true, v⟩, pinDc := .driven v, trace := s.trace ++ [.lineSet .dc v], outcomes := s.outcomes ++ [.ok]
      outstanding := none, inputs := rest })

/-- LineRelease and BusClose: the line is no longer claimed, its level reads 0 and its pin is no longer driven; the bus is
closed and its pins are no longer driven (spec/43_digital_line.md R188, spec/44_serial_bus.md R205). That they take effect at once
is assumption 21; that they do the same to an unclaimed line and a closed bus is assumption 30. -/
def Obligations.ReleasesComplete : Prop :=
  ∀ s : State,
    exec (.lineRelease .rst) s = .next { s with
      rst := ⟨false, false⟩, pinRst := .undriven, trace := s.trace ++ [.lineRelease .rst] }
    ∧ exec (.lineRelease .dc) s = .next { s with
      dc := ⟨false, false⟩, pinDc := .undriven, trace := s.trace ++ [.lineRelease .dc] }
    ∧ exec .busClose s = .next { s with
      bus := none, pinSclk := .undriven, pinMosi := .undriven, pinCsN := .undriven, trace := s.trace ++ [.busClose] }

/-- Xfer on an open bus. Before its outcome, the event stands in the trace and every change of level the transfer is to make on the
bus pins is still to come; answered ok, all of them have been made, the bytes have gone out in list order under the DC level that
stands, which is recorded, and CS_N is high and SCLK idle, MOSI at some level (spec/44_serial_bus.md R202, R204, R210 to R212; the
changes of level are assumptions 10, 33 and 36, MOSI between transfers is assumption 9, and an empty list of bytes is assumption
37). -/
def Obligations.XferCompletes : Prop :=
  ∀ (s : State) (bytes : List Byte), s.bus.isSome = true → s.held = none →
    (s.inputs = [] → exec (.xfer bytes) s = .next { s with
      trace := s.trace ++ [.xfer s.dc.level bytes], moves := transferMoves s.cfg.spiMode s.cfg.csPulsed bytes
      outstanding := some (.xfer s.dc.level bytes), todo := .await :: .check :: s.todo, draws := s.draws + 1 })
    ∧ ∀ rest : List Input, s.inputs = .answer .ok :: rest → ∃ mosi, exec (.xfer bytes) s = .next { s with
      shifted := s.shifted ++ bytes.map (fun b => ⟨s.dc.level, b⟩), trace := s.trace ++ [.xfer s.dc.level bytes]
      wave := s.wave ++ transferMoves s.cfg.spiMode s.cfg.csPulsed bytes, moves := []
      outcomes := s.outcomes ++ [.ok], pinSclk := .driven (s.cfg.spiMode.getLsbD 1), pinCsN := .driven true
      pinMosi := .driven mosi, outstanding := none, inputs := rest, draws := s.draws + 2 }

/-- Delay(ms): one event, before the count; the wait is over exactly when `ms` TICKs have passed, and with fewer the rest of
the count stands in the down-counter and the operation goes on waiting (spec/70_reset_and_hazards.md R345). -/
def Obligations.DelayCounts : Prop :=
  ∀ (s : State) (ms : BitVec 16),
    (∀ rest : List Input, s.inputs = List.replicate ms.toNat .tick ++ rest →
      exec (.delay ms) s = .next { s with trace := s.trace ++ [.delay ms], dly := 0, inputs := rest })
    ∧ ∀ n, n < ms.toNat → s.inputs = List.replicate n .tick →
      exec (.delay ms) s = .next { s with
        trace := s.trace ++ [.delay ms], dly := ms - BitVec.ofNat 16 n, todo := .timer :: s.todo, inputs := [] }

/-- A LineSet on an unclaimed line and an Xfer on a closed bus are outside the rules: the model faults
(spec/43_digital_line.md R189, spec/44_serial_bus.md R207). -/
def Obligations.UnownedUseFaults : Prop :=
  (∀ (s : State) (l : Line) (v : Bool), (lineOf s l).claimed = false → exec (.lineSet l v) s = .fault (.lineNotClaimed l))
    ∧ ∀ (s : State) (bytes : List Byte), s.bus = none → exec (.xfer bytes) s = .fault .busClosed

/-- A line write that fails: the level keeps its previous value, the pin is at its previous level or at the requested one,
and the error is raised at once, at the caller's position; ACT is RELEASE and only the releases remain to be done
(spec/43_digital_line.md R187, spec/60_exceptions.md R305). -/
def Obligations.LineSetFailure : Prop :=
  ∀ (s : State) (l : Line) (v : Bool), (lineOf s l).claimed = true → s.held = none →
    s.inputs = [.answer (.fail .lineWriteFailed)] →
    ∃ t, exec (.lineSet l v) s = .next t ∧ lineOf t l = lineOf s l ∧ (pinOf t l = pinOf s l ∨ pinOf t l = .driven v)
      ∧ t.error = ⟨.lineWriteFailed, wrapsIn s.pos.phase, s.pos.phase, s.pos.step, s.pos.uop⟩ ∧ t.act = .release
      ∧ t.trace = s.trace ++ [.lineSet l v] ∧ t.todo = abortSequence s ∧ t.busy = s.busy ∧ t.mem = s.mem
      ∧ t.bus = s.bus ∧ t.inputs = []

/-- A transfer that fails: the pins carried some prefix of its bytes, which is what a receiver has read and what is recorded, and
SCLK and CS_N are back at their idle levels; the error is raised at the caller's position, what is held is released, and the
operation ends with ERR set (spec/44_serial_bus.md R203, R212, spec/60_exceptions.md R305; how far it got is assumption 8, the
meaning of the clock mode assumption 10). -/
def Obligations.XferFailure : Prop :=
  ∀ (s : State) (bytes : List Byte) (rest : List Input), s.bus.isSome = true → s.held = none →
    s.inputs = .answer (.fail .transferFailed) :: (List.replicate (heldCount s + 1) .work ++ rest) →
    ∃ t, exec (.xfer bytes) s = .next t
      ∧ (∃ m sent, m ≤ bytes.length ∧ t.shifted = s.shifted ++ (bytes.take m).map (fun b => ⟨s.dc.level, b⟩)
        ∧ t.wave = s.wave ++ sent ∧ sampledBits s.cfg.spiMode false sent = (bytes.take m).flatMap byteBits
        ∧ levelAfter PinMove.csNLevel true sent = true
        ∧ levelAfter PinMove.sclkLevel (s.cfg.spiMode.getLsbD 1) sent = s.cfg.spiMode.getLsbD 1)
      ∧ t.trace = s.trace ++ .xfer s.dc.level bytes :: heldReleases s
      ∧ t.error = ⟨.transferFailed, wrapsIn s.pos.phase, s.pos.phase, s.pos.step, s.pos.uop⟩
      ∧ t.statusErr = true ∧ t.statusDone = false ∧ t.busy = false ∧ t.act = .idle ∧ nothingHeld t ∧ t.pstate = s.pstate
      ∧ t.stepIx = s.stepIx ∧ t.mem = s.mem ∧ t.inputs = rest

/-- When acquisition fails at step 0, 1 or 2, the trace goes on with nothing, BusClose, or LineRelease(RST) BusClose, the
error is recorded at (ACQUIRE, step, 0), not wrapped, and nothing is held (spec/46_display_driver.md R284, R285). -/
def Obligations.PartialAcquisitionReleases : Prop :=
  ∀ (s : State) (c : ErrClass) (rest : List Input), s.held = none → s.dc.claimed = false →
    s.inputs = .answer (.fail c) :: (List.replicate (heldCount s + 1) .work ++ rest) →
    (s.bus = none → s.rst.claimed = false → c = .deviceUnavailable ∨ c = .configurationFailed →
      ∃ t, exec .busOpen s = .next t ∧ t.trace = s.trace ++ [.busOpen s.cfg.spiMode s.cfg.spiClockHz]
        ∧ t.error = ⟨c, false, .acquire, 0, 0⟩ ∧ t.statusErr = true ∧ t.busy = false ∧ nothingHeld t)
    ∧ (s.bus.isSome = true → s.rst.claimed = false → c = .deviceUnavailable ∨ c = .lineRequestFailed →
      ∃ t, exec (.lineClaim .rst) s = .next t ∧ t.trace = s.trace ++ [.lineClaim .rst lineFlags, .busClose]
        ∧ t.error = ⟨c, false, .acquire, 1, 0⟩ ∧ t.statusErr = true ∧ t.busy = false ∧ nothingHeld t)
    ∧ (s.bus.isSome = true → s.rst.claimed = true → c = .deviceUnavailable ∨ c = .lineRequestFailed →
      ∃ t, exec (.lineClaim .dc) s = .next t
        ∧ t.trace = s.trace ++ [.lineClaim .dc lineFlags, .lineRelease .rst, .busClose]
        ∧ t.error = ⟨c, false, .acquire, 2, 0⟩ ∧ t.statusErr = true ∧ t.busy = false ∧ nothingHeld t)

/-- The abort path: a raised error stops the operation, whatever remained of it; ERROR is written, what is held is released in
the order DC, RST, bus, and the operation ends with ERR set and BUSY 0; PSTATE and STEP stay. For IllegalOperation only ERROR
and ERR are written (spec/60_exceptions.md R305). -/
def Obligations.AbortPath : Prop :=
  (∀ (s : State) (f : Failure) (ops : List Op) (rest : List Input), s.held = some f →
    s.inputs = List.replicate (heldCount s + 1) .work ++ rest →
    engine (.check :: ops) s = .next (afterAbort rest { s with
      error := ⟨f.cls, wrapsIn f.pos.phase, f.pos.phase, f.pos.step, f.pos.uop⟩, held := none, outstanding := none }))
  ∧ ∀ (s : State) (v : Word), s.busy = false → exec (.illegal v) s = .next { s with
      statusDone := false, statusErr := true, overrun := false, error := ⟨.illegalOperation, false, .noPhase, 0, 0⟩ }

/-! ### Protocol steps -/

/-- Every init step, with its four outcomes ok: STEP is the step's index, the wire carries opcode, DC high, payload, DC low,
and the bytes go out with the payload under DC = 1 (spec/45_command_protocol.md R240, R241 to R259, R233; SCLK's level and the
changes on the bus pins rest on assumptions 10, 33 and 36, MOSI on assumption 9, the work between the micro-operations on
assumption 4). -/
def Obligations.InitStepsComplete : Prop :=
  ∀ (k : Fin 19) (s : State) (rest : List Input), s.bus.isSome = true → s.dc.claimed = true → s.held = none →
    s.inputs = stepInputs ++ rest →
    ∃ mosi, exec (initInstr k) s = .next { s with
      stepIx := BitVec.ofNat 8 k
      trace := s.trace ++ [.xfer s.dc.level [s.cfg.initSequence[k].op], .lineSet .dc true, .xfer true (initData s.cfg k),
        .lineSet .dc false]
      outcomes := s.outcomes ++ [.ok, .ok, .ok, .ok]
      shifted := s.shifted ++ ⟨s.dc.level, s.cfg.initSequence[k].op⟩ :: (initData s.cfg k).map (fun b => ⟨true, b⟩)
      dc := ⟨true, false⟩, pinDc := .driven false, pinSclk := .driven (s.cfg.spiMode.getLsbD 1), pinCsN := .driven true
      wave := s.wave ++ (transferMoves s.cfg.spiMode s.cfg.csPulsed [s.cfg.initSequence[k].op]
        ++ transferMoves s.cfg.spiMode s.cfg.csPulsed (initData s.cfg k)), moves := []
      pinMosi := .driven mosi, pos := ⟨.init, BitVec.ofNat 8 k, 3⟩, outstanding := none, inputs := rest
      draws := s.draws + 4 }

/-- Every paint step that has a payload, with its outcomes ok and its delay waited for: STEP, the wire events with the delay
last, and the bytes (spec/45_command_protocol.md R261, R262, R264, R265; assumptions 4, 9, 10, 33 and 36 as for the init
steps). PAINT[1] is the next statement's. -/
def Obligations.PaintPayloadStepsComplete : Prop :=
  ∀ (k : Fin 4) (s : State) (rest : List Input), k ≠ 1 → s.bus.isSome = true → s.dc.claimed = true → s.held = none →
    s.inputs = stepInputs ++ .work :: (List.replicate (paintDelay k).toNat .tick ++ rest) →
    ∃ mosi, exec (paintInstr k) s = .next { s with
      stepIx := BitVec.ofNat 8 k
      trace := s.trace ++ [.xfer s.dc.level [paintOp s.cfg k], .lineSet .dc true, .xfer true (paintData s k),
        .lineSet .dc false, .delay (paintDelay k)]
      outcomes := s.outcomes ++ [.ok, .ok, .ok, .ok]
      shifted := s.shifted ++ ⟨s.dc.level, paintOp s.cfg k⟩ :: (paintData s k).map (fun b => ⟨true, b⟩)
      dc := ⟨true, false⟩, pinDc := .driven false, pinSclk := .driven (s.cfg.spiMode.getLsbD 1), pinCsN := .driven true
      wave := s.wave ++ (transferMoves s.cfg.spiMode s.cfg.csPulsed [paintOp s.cfg k]
        ++ transferMoves s.cfg.spiMode s.cfg.csPulsed (paintData s k)), moves := []
      pinMosi := .driven mosi, dly := 0, pos := ⟨.paint, BitVec.ofNat 8 k, 3⟩, outstanding := none, inputs := rest
      draws := s.draws + 4 }

/-- PAINT[1], power-on, has no payload: the opcode and the delay alone (spec/45_command_protocol.md R263; assumptions 4, 9, 10, 33
and 36 as for the init steps). -/
def Obligations.PowerOnStepCompletes : Prop :=
  ∀ (s : State) (rest : List Input), s.bus.isSome = true → s.held = none →
    s.inputs = .work :: .answer .ok :: .work :: (List.replicate 1000 .tick ++ rest) →
    ∃ mosi, exec .paint1 s = .next { s with
      stepIx := 1, trace := s.trace ++ [.xfer s.dc.level [s.cfg.opPon], .delay 1000], outcomes := s.outcomes ++ [.ok]
      shifted := s.shifted ++ [⟨s.dc.level, s.cfg.opPon⟩], pinSclk := .driven (s.cfg.spiMode.getLsbD 1), pinCsN := .driven true
      wave := s.wave ++ transferMoves s.cfg.spiMode s.cfg.csPulsed [s.cfg.opPon], moves := []
      pinMosi := .driven mosi, dly := 0, pos := ⟨.paint, 1, 0⟩, outstanding := none, inputs := rest, draws := s.draws + 2 }

/-- The frame data of PAINT[0] are FRAMEMEM's 192000 bytes in address order (spec/45_command_protocol.md R261,
spec/20_memory.md R65). -/
def Obligations.FrameDataAreFramemem : Prop :=
  ∀ s : State, (paintData s 0).length = 192000
    ∧ ∀ (n : Nat) (b : Byte), n < 192000 → memRead s.mem (0x800000 + n) = some b → (paintData s 0)[n]? = some b

/-- Every way in which a step of the init or paint sequence fails, at each of its four micro-operations: what was emitted, the
position, and WRAPPED; a failed payload transfer is still followed by the DC-low write, and its error is the one reported
(spec/45_command_protocol.md R233, R268, R269). -/
def Obligations.StepFailuresAreAnnotated : Prop :=
  (∀ (k : Fin 19) (s : State), s.bus.isSome = true → s.rst.claimed = true → s.dc.claimed = true → s.held = none →
    let op : WireEvent := .xfer s.dc.level [s.cfg.initSequence[k].op]
    let sent := op :: payloadTrace (initData s.cfg k)
    failsAt (initInstr k) s [.fail .transferFailed] [op] .transferFailed ⟨.init, BitVec.ofNat 8 k, 0⟩
      ∧ failsAt (initInstr k) s [.ok, .fail .lineWriteFailed] [op, .lineSet .dc true] .lineWriteFailed ⟨.init, BitVec.ofNat 8 k, 1⟩
      ∧ failsAt (initInstr k) s [.ok, .ok, .fail .transferFailed, .ok] sent .transferFailed ⟨.init, BitVec.ofNat 8 k, 2⟩
      ∧ failsAt (initInstr k) s [.ok, .ok, .fail .transferFailed, .fail .lineWriteFailed] sent .transferFailed
          ⟨.init, BitVec.ofNat 8 k, 2⟩
      ∧ failsAt (initInstr k) s [.ok, .ok, .ok, .fail .lineWriteFailed] sent .lineWriteFailed ⟨.init, BitVec.ofNat 8 k, 3⟩)
  ∧ ∀ (k : Fin 4) (s : State), s.bus.isSome = true → s.rst.claimed = true → s.dc.claimed = true → s.held = none →
    let op : WireEvent := .xfer s.dc.level [paintOp s.cfg k]
    let sent := op :: payloadTrace (paintData s k)
    failsAt (paintInstr k) s [.fail .transferFailed] [op] .transferFailed ⟨.paint, BitVec.ofNat 8 k, 0⟩
      ∧ (k ≠ 1 →
        failsAt (paintInstr k) s [.ok, .fail .lineWriteFailed] [op, .lineSet .dc true] .lineWriteFailed
          ⟨.paint, BitVec.ofNat 8 k, 1⟩
        ∧ failsAt (paintInstr k) s [.ok, .ok, .fail .transferFailed, .ok] sent .transferFailed ⟨.paint, BitVec.ofNat 8 k, 2⟩
        ∧ failsAt (paintInstr k) s [.ok, .ok, .fail .transferFailed, .fail .lineWriteFailed] sent .transferFailed
            ⟨.paint, BitVec.ofNat 8 k, 2⟩
        ∧ failsAt (paintInstr k) s [.ok, .ok, .ok, .fail .lineWriteFailed] sent .lineWriteFailed ⟨.paint, BitVec.ofNat 8 k, 3⟩)

/-- The reset sequence. With every outcome ok: PSTATE RESETTING and STEP 0 first, then four line writes and three delays in
their order. When line write `u` fails: the error is LineWriteFailed at (RESET, 0, u), not wrapped, no later line write and no
later delay happens, and everything held is released (spec/45_command_protocol.md R235, R236, R237, spec/60_exceptions.md R305; the
work between its parts is assumption 4). -/
def Obligations.ResetSequenceRuns : Prop :=
  (∀ (s : State) (u : Fin 4) (rest : List Input), s.bus.isSome = true → s.rst.claimed = true → s.dc.claimed = true →
    s.held = none →
    s.inputs = resetInputs u ++ .answer (.fail .lineWriteFailed) :: (List.replicate 4 .work ++ rest) →
    ∃ t, engine resetSequence s = .next t ∧ t.error = ⟨.lineWriteFailed, false, .reset, 0, BitVec.ofNat 4 u⟩
      ∧ t.trace = s.trace ++ resetTrace.take (#v[1, 2, 4, 6][u]) ++ releaseTrace
      ∧ t.statusErr = true ∧ t.statusDone = false ∧ t.busy = false ∧ t.act = .idle ∧ t.pstate = .resetting ∧ t.stepIx = 0
      ∧ t.bus = none ∧ t.rst = .released ∧ t.dc = .released ∧ t.mem = s.mem ∧ t.todo = [] ∧ t.inputs = rest)
  ∧ ∀ (s : State) (rest : List Input), s.rst.claimed = true → s.dc.claimed = true → s.held = none →
    s.inputs = resetInputsAll ++ rest →
    engine resetSequence s = .next { s with
      pstate := .resetting, stepIx := 0, rst := ⟨true, true⟩, dc := ⟨true, false⟩, pinRst := .driven true
      pinDc := .driven false, dly := 0
      trace := s.trace ++ [.lineSet .dc false, .lineSet .rst true, .delay 100, .lineSet .rst false, .delay 100,
        .lineSet .rst true, .delay 1000]
      outcomes := s.outcomes ++ [.ok, .ok, .ok, .ok], pos := ⟨.reset, 0, 3⟩, outstanding := none, inputs := rest }

/-! ### The image pipeline -/

/-- The fit: a source wider than 5:3 gets the full width, the height (800 * SRC_H) div SRC_W, and is centred vertically; any other
gets the full height, the width (480 * SRC_W) div SRC_H, and is centred horizontally; the region is X0 <= x < X0 + FW, Y0 <= y <
Y0 + FH; FIT_ORIGIN takes {Y0, X0} and FIT_SIZE {FH, FW}; and the fitted region lies within the canvas and touches a full dimension
(spec/40_fit_resample.md R121, R126). -/
def Obligations.FitIsContained : Prop :=
  (∀ w h : Nat, 1 ≤ w → 1 ≤ h →
    (fitRegion w h).x0 + (fitRegion w h).fw ≤ 800 ∧ (fitRegion w h).y0 + (fitRegion w h).fh ≤ 480
      ∧ ((fitRegion w h).fw = 800 ∨ (fitRegion w h).fh = 480)
      ∧ (h * 800 < w * 480 → (fitRegion w h).fw = 800 ∧ (fitRegion w h).fh = (800 * h) / w ∧ (fitRegion w h).x0 = 0
        ∧ (fitRegion w h).y0 = (480 - (800 * h) / w) / 2)
      ∧ (w * 480 ≤ h * 800 → (fitRegion w h).fh = 480 ∧ (fitRegion w h).fw = (480 * w) / h ∧ (fitRegion w h).y0 = 0
        ∧ (fitRegion w h).x0 = (800 - (480 * w) / h) / 2))
  ∧ (∀ (r : Region) (x y : Nat), inRegion r x y = true ↔ r.x0 ≤ x ∧ x < r.x0 + r.fw ∧ r.y0 ≤ y ∧ y < r.y0 + r.fh)
  ∧ ∀ s : State, 1 ≤ srcW s → 1 ≤ srcH s →
    let r := fitRegion (srcW s) (srcH s)
    ∃ t, perform .fit s = .done t ∧ (t.fitOrigin.extractLsb' 16 16).toNat = r.y0 ∧ (t.fitOrigin.extractLsb' 0 16).toNat = r.x0
      ∧ (t.fitSize.extractLsb' 16 16).toNat = r.fh ∧ (t.fitSize.extractLsb' 0 16).toNat = r.fw
      ∧ t = { s with fitOrigin := t.fitOrigin, fitSize := t.fitSize }

/-- The axis map: its coordinates lie on the source axis, its weights sum to 2F, and it stands for the continuous coordinate
n / (2F), clamped at both ends (spec/40_fit_resample.md R125). -/
def Obligations.AxisMapIsExact : Prop :=
  ∀ i S F : Nat, i < F → 1 ≤ S →
    let m := axis i S F
    let n : Int := (2 * (i : Int) + 1) * S - F
    m.den = 2 * F ∧ m.wlo + m.whi = m.den ∧ m.whi < m.den ∧ m.lo ≤ S - 1 ∧ m.hi = min (m.lo + 1) (S - 1)
      ∧ (n ≤ 0 → m.lo = 0 ∧ m.whi = 0) ∧ (0 < n → ((S : Int) - 1) * (2 * F) ≤ n → m.lo = S - 1 ∧ m.whi = 0)
      ∧ (0 < n → n < ((S : Int) - 1) * (2 * F) → (m.lo : Int) * (2 * F) + m.whi = n)

/-- Background and bilinear resampling: the background is PALETTE_RGB[1] in every canvas pixel; every canvas pixel of the fitted region becomes, channel by channel, the weighted sum of its four source
samples over Dx * Dy rounded half up, which stays in 0 to 255 because the sum is at most 255 * Dx * Dy; every other canvas pixel
keeps its colour; and a source of exactly 800 x 480 is copied pixel for pixel (spec/40_fit_resample.md R122, R123). -/
def Obligations.FullSizeSourceIsCopied : Prop :=
  (∀ (cfg : Config) (p : Nat), (backgroundCanvas cfg)[p]? = if p < 384000 then some cfg.palette[1] else none)
  ∧ (∀ (src : Nat → Nat → Rgb) (w h : Nat) (r : Region) (ct : Array Rgb) (x y : Nat) (old : Rgb), 1 ≤ w → 1 ≤ h → x < 800 →
    ct[800 * y + x]? = some old →
    ∃ px, (resampleCanvas src w h r ct)[800 * y + x]? = some px
      ∧ (inRegion r x y = false → px = old)
      ∧ (inRegion r x y = true → ∀ channel ∈ [Rgb.r, Rgb.g, Rgb.b],
        let ax := axis (x - r.x0) w r.fw
        let ay := axis (y - r.y0) h r.fh
        let sum := weightedSum ax ay (fun a b => channel (src a b))
        let den := (2 * r.fw) * (2 * r.fh)
        (channel px).toNat = (2 * sum + den) / (2 * den) ∧ sum ≤ 255 * den))
  ∧ ∀ (src : Nat → Nat → Rgb) (ct : Array Rgb) (x y : Nat), ct.size = 384000 → x < 800 → y < 480 →
    (resampleCanvas src 800 480 (fitRegion 800 480) ct)[800 * y + x]? = some (src x y)

/-- The nearest palette colour has the least squared distance, and the lowest index among equals
(spec/41_dither.md R153). -/
def Obligations.NearestIsLeast : Prop :=
  ∀ (palette : Vector Rgb 7) (v : Rgb),
    let dist : Fin 7 → Int := fun k => ((v.r.toNat : Int) - palette[k].r.toNat) ^ 2 + ((v.g.toNat : Int) - palette[k].g.toNat) ^ 2
      + ((v.b.toNat : Int) - palette[k].b.toNat) ^ 2
    (∀ m, dist (nearest palette v) ≤ dist m) ∧ (∀ k, (∀ m, dist k ≤ dist m) → nearest palette v ≤ k) ∧ ∀ k, dist k ≤ 195075

/-- A region of one palette colour: however far the pass has come every accumulator of E is zero, the quantization error of
every visit is zero, every region pixel gets that index, and if the region is the whole canvas the frame is 192000 copies of the
index in both nibbles (spec/41_dither.md R158). -/
def Obligations.SolidColourStaysSolid : Prop :=
  ∀ (palette : Vector Rgb 7) (r : Region) (ct : Array Rgb) (k : Fin 7), r.x0 + r.fw ≤ 800 → r.y0 + r.fh ≤ 480 →
    (∀ m, m < k → palette[m] ≠ palette[k]) →
    (∀ x y, inRegion r x y = true → ct[800 * y + x]? = some palette[k]) →
    (∀ n, n ≤ r.fw * r.fh → ∀ e ∈ (ditherPrefix palette r ct n).err.toList, e = ⟨0, 0, 0⟩)
      ∧ (∀ n, n < r.fw * r.fh →
        visitError palette r ct (ditherPrefix palette r ct n) (n % r.fw) (n / r.fw) = ⟨0, 0, 0⟩)
      ∧ (∀ x y, inRegion r x y = true → (ditherPass palette r ct).idx[800 * y + x]? = some (BitVec.ofNat 3 k))
      ∧ (r = ⟨0, 0, 800, 480⟩ →
        packFrame (ditherPass palette r ct).idx = List.replicate 192000 (BitVec.ofNat 8 (16 * k + k)))

/-- The dither pass, visit by visit. The accumulated error never leaves -4080 to 4080, however far the pass has come, so 13 bits
hold it without overflow. The visit of pixel (i, j) works with the sample plus a sixteenth of the accumulated error, divided toward
zero and clamped to 0 to 255; it emits the index of the nearest palette colour; its error, at most 255 in magnitude, is the working
value less that colour; and it adds exactly 7, 3, 5 and 1 times the error to the accumulators right, bottom-left, bottom and
bottom-right of it that lie in the region, and nothing to any other (spec/41_dither.md R152, R154, R155, R156, spec/10_state.md
R39). -/
def Obligations.ErrorNeverOverflows : Prop :=
  ∀ (palette : Vector Rgb 7) (r : Region) (ct : Array Rgb) (n : Nat), r.x0 + r.fw ≤ 800 → r.y0 + r.fh ≤ 480 →
    (n ≤ r.fw * r.fh → ∀ e ∈ (ditherPrefix palette r ct n).err.toList, ∀ channel ∈ [ErrTriple.r, ErrTriple.g, ErrTriple.b],
      -4080 ≤ (channel e).toInt ∧ (channel e).toInt ≤ 4080)
    ∧ (n < r.fw * r.fh →
      let b := ditherPrefix palette r ct n
      let i := n % r.fw
      let j := n / r.fw
      let v := visitValue r ct b i j
      let k := nearest palette v
      let e := visitError palette r ct b i j
      (∀ c acc, ct[800 * (r.y0 + j) + (r.x0 + i)]? = some c → b.err[j * r.fw + i]? = some acc →
        (v.r.toNat : Int) = max 0 (min 255 (c.r.toNat + Int.tdiv acc.r.toInt 16))
          ∧ (v.g.toNat : Int) = max 0 (min 255 (c.g.toNat + Int.tdiv acc.g.toInt 16))
          ∧ (v.b.toNat : Int) = max 0 (min 255 (c.b.toNat + Int.tdiv acc.b.toInt 16)))
      ∧ (ditherPrefix palette r ct (n + 1)).idx[800 * (r.y0 + j) + (r.x0 + i)]? = some (BitVec.ofNat 3 k)
      ∧ e.r = (v.r.toNat : Int) - palette[k].r.toNat ∧ e.g = (v.g.toNat : Int) - palette[k].g.toNat
      ∧ e.b = (v.b.toNat : Int) - palette[k].b.toNat
      ∧ (∀ d ∈ [e.r, e.g, e.b], -255 ≤ d ∧ d ≤ 255)
      ∧ ∀ p q, p < r.fw → q < r.fh → ∃ old new, b.err[q * r.fw + p]? = some old
        ∧ (ditherPrefix palette r ct (n + 1)).err[q * r.fw + p]? = some new
        ∧ new.r.toInt = old.r.toInt + shareWeight i j p q * e.r ∧ new.g.toInt = old.g.toInt + shareWeight i j p q * e.g
        ∧ new.b.toInt = old.b.toInt + shareWeight i j p q * e.b)

/-- The frame has 192000 bytes, and its byte n holds the indices of canvas pixels 2n and 2n + 1 in raster order, the first of them
in the high nibble; and unpacking the packed bytes recovers every index (spec/42_pack.md R170, R171, R172). -/
def Obligations.UnpackRecoversIndices : Prop :=
  (∀ (idx : Array (BitVec 3)) (n : Nat) (even odd : BitVec 3), (packFrame idx).length = 192000
    ∧ (n < 192000 → idx[2 * n]? = some even → idx[2 * n + 1]? = some odd →
      (packFrame idx)[n]? = some (BitVec.ofNat 8 (16 * even.toNat + odd.toNat))))
  ∧ ∀ (idx : Array (BitVec 3)) (x y : Nat) (k : BitVec 3), x < 800 → y < 480 → idx[800 * y + x]? = some k →
    unpackPixel (fun n => (packFrame idx).getD n 0) x y = k.zeroExtend 4

/-- Every frame byte whose two pixels lie outside the region is 0x11, and with an empty region all 192000 are
(spec/42_pack.md R173, spec/40_fit_resample.md R124). -/
def Obligations.MarginBytesAreWhite : Prop :=
  ∀ (palette : Vector Rgb 7) (r : Region) (ct : Array Rgb), r.x0 + r.fw ≤ 800 → r.y0 + r.fh ≤ 480 →
    (∀ n, n < 192000 → inRegion r ((2 * n) % 800) ((2 * n) / 800) = false → inRegion r ((2 * n) % 800 + 1) ((2 * n) / 800) = false →
      (packFrame (ditherPass palette r ct).idx)[n]? = some 0x11)
    ∧ (r.fw = 0 ∨ r.fh = 0 → packFrame (ditherPass palette r ct).idx = List.replicate 192000 0x11)

/-- Source pixel (x, y) is the SRCMEM word w at 0x100000 + 4 * (y * SRC_W + x), with R = w[7:0], G = w[15:8], B = w[23:16]. The
frame depends on the palette, SRC_DIM and the R, G and B samples of the source pixels alone: two states that agree in
these get the same frame, whatever their alpha samples, unused words and other state (spec/20_memory.md R66, spec/30_encoding.md
R93, spec/41_dither.md R157). -/
def Obligations.FrameIgnoresAlpha : Prop :=
  (∀ (s : State) (x y : Nat) (w : Word), memReadWord s.mem (0x100000 + 4 * (y * srcW s + x)) = some w →
    sourcePixel s.mem (srcW s) x y = ⟨w.extractLsb' 0 8, w.extractLsb' 8 8, w.extractLsb' 16 8⟩)
  ∧ ∀ s t : State, s.cfg.palette = t.cfg.palette → s.srcDim = t.srcDim → 1 ≤ srcW s → 1 ≤ srcH s →
    (∀ k, k < srcW s * srcH s →
      (memReadWord s.mem (srcAddr k)).map (fun w => w.extractLsb' 0 24) = (memReadWord t.mem (srcAddr k)).map (fun w => w.extractLsb' 0 24)) →
    preparedFrame s = preparedFrame t

/-! ### The pins -/

/-- The sub-transfers of a transfer: their bytes in order are the transfer's, their number is ceil(n / 4096), and all but the
last have 4096 bytes (spec/44_serial_bus.md R204). -/
def Obligations.SubTransfersAreTheTransfer : Prop :=
  ∀ bytes : List Byte, (subTransfers bytes).flatten = bytes ∧ (subTransfers bytes).length = (bytes.length + 4095) / 4096
    ∧ (∀ c ∈ (subTransfers bytes).dropLast, c.length = 4096) ∧ ∀ c ∈ subTransfers bytes, 1 ≤ c.length ∧ c.length ≤ 4096

/-- The changes of level that an Xfer makes on the bus pins. A receiver that samples them as the clock mode says reads the
transfer's bytes, most significant bit first, in every clock mode and with chip select held or pulsed between sub-transfers; SCLK
changes twice for every bit; CS_N is low at every change of SCLK, and at the end CS_N is high and SCLK idle (spec/44_serial_bus.md R204, R210, R211, R212; the meaning of
CPOL and CPHA is the spec's general knowledge, assumption 10, the place of the first bit of a transfer and of a sub-transfer is
assumption 36). -/
def Obligations.WaveformCarriesTheBytes : Prop :=
  ∀ (mode : BitVec 2) (pulsed mosi : Bool) (bytes : List Byte),
    sampledBits mode mosi (transferMoves mode pulsed bytes) = bytes.flatMap byteBits
      ∧ sclkEdges (transferMoves mode pulsed bytes) = 16 * bytes.length
      ∧ (∀ (b : Byte) (n : Nat), n < 8 → (byteBits b)[n]? = some (b.getLsbD (7 - n)))
      ∧ (∀ before level after, transferMoves mode pulsed bytes = before ++ .sclk level :: after →
        levelAfter PinMove.csNLevel true before = false)
      ∧ (∀ before level after, transferMoves mode pulsed bytes = before ++ .csN level :: after →
        levelAfter PinMove.sclkLevel (mode.getLsbD 1) before = mode.getLsbD 1)
      ∧ levelAfter PinMove.csNLevel true (transferMoves mode pulsed bytes) = true
      ∧ levelAfter PinMove.sclkLevel (mode.getLsbD 1) (transferMoves mode pulsed bytes) = mode.getLsbD 1

/-! ### Reset -/

/-- What block reset leaves: the values of the table (spec/10_state.md R50), and memory with nothing written. -/
def Obligations.ResetValues : Prop :=
  statusWord State.reset = 0 ∧ errorWord State.reset.error = 0 ∧ State.reset.srcDim = 0 ∧ State.reset.fitOrigin = 0
    ∧ State.reset.fitSize = 0 ∧ (∀ a, memRead State.reset.mem a = none) ∧ State.reset.bus = none
    ∧ State.reset.rst.claimed = false ∧ State.reset.dc.claimed = false ∧ State.reset.pinRst = .undriven
    ∧ State.reset.pinDc = .undriven ∧ State.reset.pinSclk = .undriven ∧ State.reset.pinMosi = .undriven
    ∧ State.reset.pinCsN = .undriven ∧ State.reset.dly = 0 ∧ State.reset.trace = [] ∧ State.reset.cfg = Config.build

/-- Block reset, whatever the engine is doing: every piece of state takes its reset value at once, no event is emitted, and
the build parameters stay (spec/70_reset_and_hazards.md R330, R332, R333). What the host has read and still sends, and how
many values were drawn, are the model's own (assumption 12). -/
def Obligations.BlockResetTakesEffectAtOnce : Prop :=
  ∀ (s : State) (rest : List Input), s.inputs = .reset :: rest →
    step s = .next { State.resetOf s.cfg with inputs := rest, reads := s.reads, draws := s.draws }

/-! ### Invariants that every step keeps -/

/-- At reset every invariant below holds. -/
def Obligations.InvariantsHoldAtReset : Prop :=
  State.reset.mem.wf ∧ releasesAll State.reset ∧ flagsOk State.reset ∧ errorOk State.reset ∧ progressOk State.reset
    ∧ linesOk State.reset ∧ indicesOk State.reset

/-- Every step keeps memory in its canonical form. -/
def Obligations.MemoryStaysCanonical : Prop :=
  ∀ s t : State, s.mem.wf → step s = .next t → t.mem.wf

/-- Every step keeps the release invariant: nothing is held while BUSY is 0, and what remains of the operation in progress
gives everything back before it ends (spec/46_display_driver.md R287). -/
def Obligations.ResourcesAreReleased : Prop :=
  ∀ s t : State, releasesAll s → step s = .next t → releasesAll t

/-- Every step keeps the flags as the spec allows them: DONE and ERR never both 1, neither while BUSY, ACT IDLE exactly when
BUSY is 0; and ERROR.WRAPPED equal to "PHASE is INIT or PAINT" (spec/10_state.md R26, R32, spec/60_exceptions.md R301). And every
step keeps ACT, PSTATE and STEP in their order: an operation goes through PREPARE, ACQUIRE, PROTOCOL and RELEASE, a run through
UNPOWERED, RESETTING, INITIALIZED, PAINTING and SETTLED, each once and after the last step of the one before it, with STEP 0 to 18
in INITIALIZED, 0 to 3 in PAINTING and 0 else; each wire event, each delay and each part of PREPARE belongs to the ACT and PSTATE
that STATUS shows while it is in progress, and each protocol step to its STEP (spec/10_state.md R28, R29, R32,
spec/45_command_protocol.md R230, R240, R260, R275, spec/70_reset_and_hazards.md R347). -/
def Obligations.FlagsStayConsistent : Prop :=
  ∀ s t : State, step s = .next t → (flagsOk s → flagsOk t) ∧ (errorOk s → errorOk t) ∧ (progressOk s → progressOk t)

/-- Every step keeps a line's level at 0 and its pin undriven while the line is not claimed, and its pin driven while it is
(spec/10_state.md R31, spec/43_digital_line.md R185, R188). -/
def Obligations.UnclaimedLinesAreLow : Prop :=
  ∀ s t : State, linesOk s → step s = .next t → linesOk t

/-- Every step keeps every palette index at 0 to 6, in IDX and in both nibbles of every FRAMEMEM byte (spec/10_state.md R40,
spec/30_encoding.md R94, spec/42_pack.md R174). -/
def Obligations.IndicesStayInPalette : Prop :=
  ∀ s t : State, indicesOk s → step s = .next t → indicesOk t

/-- Neither the step that accepts a command nor any step while BUSY is 1, block reset apart, changes SRC_DIM, a byte of SRCMEM, or
the frame that the pipeline computes from them: it computes from the contents that stood when its CMD write was accepted
(spec/20_memory.md R74). -/
def Obligations.SourceIsASnapshot : Prop :=
  ∀ s t : State, (s.busy = true ∧ s.inputs.head? ≠ some .reset) ∨ (∃ v rest, s.inputs = commandWrite v :: rest) →
    step s = .next t →
    t.srcDim = s.srcDim ∧ (∀ a, a < 0x800000 → memRead t.mem a = memRead s.mem a)
      ∧ (sourceReady s → sourceReady t ∧ preparedFrame t = preparedFrame s)

/-- No step changes the build parameters: palette, step ROM, line identities and bus configuration (spec/20_memory.md R77,
spec/10_state.md R42, R43); and no step but block reset takes an event out of the trace (spec/00_scope.md R14). -/
def Obligations.ParametersAndTraceStand : Prop :=
  ∀ s t : State, step s = .next t → t.cfg = s.cfg ∧ (s.inputs.head? ≠ some .reset → s.trace <+: t.trace)
end

