-- ==== Sys2Proof/Laws/Memory.lean ====
section
/-! SUPPORT. Memory: a write is read back, leaves every other byte alone and keeps the canonical form; words are
little-endian (spec/20_memory.md R64). -/

namespace Sys2Proof.Machine

theorem cellsFrom_length (a : Nat) (bs : List Byte) : (cellsFrom a bs).length = bs.length := by
  induction bs generalizing a with
  | nil => rfl
  | cons b bs ih => simp [cellsFrom, ih]

/-- The keys of a laid-out byte list are the addresses from its first on. -/
theorem mem_cellsFrom {a : Nat} {bs : List Byte} {c : Host.Cell} (h : c ∈ cellsFrom a bs) :
    a ≤ c.1 ∧ c.1 < a + bs.length := by
  induction bs generalizing a with
  | nil => simp [cellsFrom] at h
  | cons b bs ih =>
    simp only [cellsFrom, List.mem_cons] at h
    rcases h with rfl | h
    · simp
    · have := ih h
      simp only [List.length_cons]
      omega

/-- A laid-out byte list holds its bytes. -/
theorem snd_mem_of_mem_cellsFrom {a : Nat} {bs : List Byte} {c : Host.Cell} (h : c ∈ cellsFrom a bs) : c.2 ∈ bs := by
  induction bs generalizing a with
  | nil => simp [cellsFrom] at h
  | cons b bs ih =>
    simp only [cellsFrom, List.mem_cons] at h
    rcases h with rfl | h
    · simp
    · exact List.mem_cons_of_mem _ (ih h)

theorem lookup_cellsFrom (a x : Nat) (bs : List Byte) :
    List.lookup x (cellsFrom a bs) = if a ≤ x then bs[x - a]? else none := by
  induction bs generalizing a with
  | nil => simp [cellsFrom]
  | cons b bs ih =>
    simp only [cellsFrom, List.lookup_cons, ih]
    by_cases hx : x = a
    · simp [hx]
    · have hne : (x == a) = false := by simp [hx]
      rw [hne]
      by_cases ha : a ≤ x
      · have h1 : a + 1 ≤ x := by omega
        have h2 : x - a = (x - (a + 1)) + 1 := by omega
        simp [ha, h1, h2]
      · have h1 : ¬ a + 1 ≤ x := by omega
        simp [ha, h1]

/-- A lookup in a filtered list whose filter looks at the key alone. -/
theorem lookup_filter_key (p : Nat → Bool) (x : Nat) (m : Memory) :
    List.lookup x (m.filter (fun c => p c.1)) = if p x then List.lookup x m else none := by
  induction m with
  | nil => simp
  | cons c m ih =>
    obtain ⟨key, b⟩ := c
    by_cases hp : p key
    · rw [List.filter_cons_of_pos (by simpa using hp), List.lookup_cons, List.lookup_cons, ih]
      by_cases hx : x = key
      · simp [hx, hp]
      · have hne : (x == key) = false := by simp [hx]
        simp [hne]
    · rw [List.filter_cons_of_neg (by simpa using hp), List.lookup_cons, ih]
      by_cases hx : x = key
      · simp [hx, hp]
      · have hne : (x == key) = false := by simp [hx]
        simp [hne]

/-- Read after write: a byte of the written block is the byte written, and every other byte is as before. -/
theorem memRead_memWrite (m : Memory) (a : Nat) (bs : List Byte) (x : Nat) :
    memRead (memWrite m a bs) x = if a ≤ x ∧ x < a + bs.length then bs[x - a]? else memRead m x := by
  unfold memRead memWrite
  rw [List.lookup_append, List.lookup_append, lookup_filter_key (fun k => decide (k < a)),
    lookup_filter_key (fun k => decide (a + bs.length ≤ k)), lookup_cellsFrom]
  by_cases h1 : x < a
  · have h2 : ¬ a ≤ x := by omega
    have h3 : ¬ a + bs.length ≤ x := by omega
    simp [h1, h2, h3]
  · have h2 : a ≤ x := by omega
    by_cases h3 : x < a + bs.length
    · have h4 : x - a < bs.length := by omega
      have h5 : ¬ a + bs.length ≤ x := by omega
      simp [h1, h2, h3, h5, List.getElem?_eq_getElem h4]
    · have h4 : bs.length ≤ x - a := by omega
      have h5 : a + bs.length ≤ x := by omega
      simp [h1, h2, h3, h5, List.getElem?_eq_none h4]

theorem memRead_memWrite_of_not_mem {m : Memory} {a x : Nat} {bs : List Byte} (h : ¬ (a ≤ x ∧ x < a + bs.length)) :
    memRead (memWrite m a bs) x = memRead m x := by
  rw [memRead_memWrite, if_neg h]

theorem cellsFrom_wf (a : Nat) (bs : List Byte) : Memory.wf (cellsFrom a bs) := by
  induction bs generalizing a with
  | nil => exact List.Pairwise.nil
  | cons b bs ih =>
    refine List.pairwise_cons.2 ⟨fun c hc => ?_, ih (a + 1)⟩
    have := mem_cellsFrom hc
    omega

/-- A write keeps the canonical form. -/
theorem memWrite_wf {m : Memory} (h : m.wf) (a : Nat) (bs : List Byte) : (memWrite m a bs).wf := by
  unfold memWrite Memory.wf
  refine List.pairwise_append.2 ⟨List.pairwise_append.2 ⟨h.filter _, cellsFrom_wf a bs, ?_⟩, h.filter _, ?_⟩
  · intro c hc d hd
    have h1 := (List.mem_filter.1 hc).2
    have h2 := mem_cellsFrom hd
    simp only [decide_eq_true_eq] at h1
    omega
  · intro c hc d hd
    have h2 := (List.mem_filter.1 hd).2
    simp only [decide_eq_true_eq] at h2
    rcases List.mem_append.1 hc with hc | hc
    · have h1 := (List.mem_filter.1 hc).2
      simp only [decide_eq_true_eq] at h1
      omega
    · have h1 := mem_cellsFrom hc
      omega

/-- What a write leaves is either an old cell outside the block or one of the bytes written. -/
theorem mem_memWrite {m : Memory} {a : Nat} {bs : List Byte} {c : Host.Cell} (h : c ∈ memWrite m a bs) :
    (c ∈ m ∧ ¬ (a ≤ c.1 ∧ c.1 < a + bs.length)) ∨ ((a ≤ c.1 ∧ c.1 < a + bs.length) ∧ c.2 ∈ bs) := by
  unfold memWrite at h
  rcases List.mem_append.1 h with h | h
  · rcases List.mem_append.1 h with h | h
    · have := List.mem_filter.1 h
      simp only [decide_eq_true_eq] at this
      exact .inl ⟨this.1, by omega⟩
    · exact .inr ⟨mem_cellsFrom h, snd_mem_of_mem_cellsFrom h⟩
  · have := List.mem_filter.1 h
    simp only [decide_eq_true_eq] at this
    exact .inl ⟨this.1, by omega⟩

/-- A word is its four bytes (R64). -/
theorem wordOfBytes_wordBytes (w : Word) :
    wordOfBytes (w.extractLsb' 0 8) (w.extractLsb' 8 8) (w.extractLsb' 16 8) (w.extractLsb' 24 8) = w := by
  apply BitVec.eq_of_getLsbD_eq
  intro i hi
  simp only [wordOfBytes, BitVec.getLsbD_append, BitVec.getLsbD_extractLsb']
  by_cases h1 : i < 8
  · simp [h1]
  · by_cases h2 : i - 8 < 8
    · simp [h1, h2]; congr 1; omega
    · by_cases h3 : i - 8 - 8 < 8
      · simp [h1, h2, h3]; congr 1; omega
      · have h4 : i - 8 - 8 - 8 < 8 := by omega
        simp [h1, h2, h3, h4]; congr 1; omega

theorem wordBytes_length (w : Word) : (wordBytes w).length = 4 := rfl

/-- A word read where a word was written is that word. -/
theorem memReadWord_memWriteWord (m : Memory) (a : Nat) (w : Word) : memReadWord (memWriteWord m a w) a = some w := by
  have hr : ∀ k, k < 4 → memRead (memWrite m a (wordBytes w)) (a + k) = (wordBytes w)[k]? := by
    intro k hk
    rw [memRead_memWrite, if_pos (by simp [wordBytes_length]; omega)]
    congr 1; omega
  have h0 := hr 0 (by omega)
  have h1 := hr 1 (by omega)
  have h2 := hr 2 (by omega)
  have h3 := hr 3 (by omega)
  simp only [Nat.add_zero] at h0
  rw [memReadWord, memWriteWord, h0, h1, h2, h3]
  simp [wordBytes, wordOfBytes_wordBytes]

/-- A host read of a word that holds a value returns it, whatever the draw. -/
theorem wordOrDraw_of_memReadWord {m : Memory} {a : Nat} {w : Word} (n : Nat) (h : memReadWord m a = some w) :
    wordOrDraw m n a = w := by
  unfold memReadWord at h
  split at h
  · rename_i b0 b1 b2 b3 h0 h1 h2 h3
    simp only [Option.some.injEq] at h
    simp [wordOrDraw, byteOrDraw, h0, h1, h2, h3, h]
  · exact absurd h (by simp)

theorem bytesOrDraw_length (m : Memory) (n a len : Nat) : (bytesOrDraw m n a len).length = len := by
  simp [bytesOrDraw]

/-- Bytes read where a block was written are that block: no draw is used. -/
theorem bytesOrDraw_memWrite (m : Memory) (n a : Nat) (bs : List Byte) :
    bytesOrDraw (memWrite m a bs) n a bs.length = bs := by
  apply List.ext_getElem
  · simp [bytesOrDraw]
  · intro k h1 h2
    have hk : a ≤ a + k ∧ a + k < a + bs.length := by omega
    simp [bytesOrDraw, byteOrDraw, memRead_memWrite, h2]

end Sys2Proof.Machine
end

