-- ==== Sys2Proof/Laws/State.lean ====
section
/-! SUPPORT. What every named update of the state does to every field: one lemma per field, so that no proof unfolds a
record update. -/

namespace Sys2Proof.Machine

@[simp] theorem emitEvent_cfg (e : WireEvent) (s : State) : (emitEvent e s).cfg = s.cfg := rfl
@[simp] theorem emitEvent_busy (e : WireEvent) (s : State) : (emitEvent e s).busy = s.busy := rfl
@[simp] theorem emitEvent_statusDone (e : WireEvent) (s : State) : (emitEvent e s).statusDone = s.statusDone := rfl
@[simp] theorem emitEvent_statusErr (e : WireEvent) (s : State) : (emitEvent e s).statusErr = s.statusErr := rfl
@[simp] theorem emitEvent_overrun (e : WireEvent) (s : State) : (emitEvent e s).overrun = s.overrun := rfl
@[simp] theorem emitEvent_pstate (e : WireEvent) (s : State) : (emitEvent e s).pstate = s.pstate := rfl
@[simp] theorem emitEvent_stepIx (e : WireEvent) (s : State) : (emitEvent e s).stepIx = s.stepIx := rfl
@[simp] theorem emitEvent_act (e : WireEvent) (s : State) : (emitEvent e s).act = s.act := rfl
@[simp] theorem emitEvent_error (e : WireEvent) (s : State) : (emitEvent e s).error = s.error := rfl
@[simp] theorem emitEvent_srcDim (e : WireEvent) (s : State) : (emitEvent e s).srcDim = s.srcDim := rfl
@[simp] theorem emitEvent_fitOrigin (e : WireEvent) (s : State) : (emitEvent e s).fitOrigin = s.fitOrigin := rfl
@[simp] theorem emitEvent_fitSize (e : WireEvent) (s : State) : (emitEvent e s).fitSize = s.fitSize := rfl
@[simp] theorem emitEvent_mem (e : WireEvent) (s : State) : (emitEvent e s).mem = s.mem := rfl
@[simp] theorem emitEvent_ct (e : WireEvent) (s : State) : (emitEvent e s).ct = s.ct := rfl
@[simp] theorem emitEvent_errAcc (e : WireEvent) (s : State) : (emitEvent e s).errAcc = s.errAcc := rfl
@[simp] theorem emitEvent_idx (e : WireEvent) (s : State) : (emitEvent e s).idx = s.idx := rfl
@[simp] theorem emitEvent_bus (e : WireEvent) (s : State) : (emitEvent e s).bus = s.bus := rfl
@[simp] theorem emitEvent_rst (e : WireEvent) (s : State) : (emitEvent e s).rst = s.rst := rfl
@[simp] theorem emitEvent_dc (e : WireEvent) (s : State) : (emitEvent e s).dc = s.dc := rfl
@[simp] theorem emitEvent_pinSclk (e : WireEvent) (s : State) : (emitEvent e s).pinSclk = s.pinSclk := rfl
@[simp] theorem emitEvent_pinMosi (e : WireEvent) (s : State) : (emitEvent e s).pinMosi = s.pinMosi := rfl
@[simp] theorem emitEvent_pinCsN (e : WireEvent) (s : State) : (emitEvent e s).pinCsN = s.pinCsN := rfl
@[simp] theorem emitEvent_pinRst (e : WireEvent) (s : State) : (emitEvent e s).pinRst = s.pinRst := rfl
@[simp] theorem emitEvent_pinDc (e : WireEvent) (s : State) : (emitEvent e s).pinDc = s.pinDc := rfl
@[simp] theorem emitEvent_dly (e : WireEvent) (s : State) : (emitEvent e s).dly = s.dly := rfl
@[simp] theorem emitEvent_trace (e : WireEvent) (s : State) : (emitEvent e s).trace = s.trace ++ [e] := rfl
@[simp] theorem emitEvent_outcomes (e : WireEvent) (s : State) : (emitEvent e s).outcomes = s.outcomes := rfl
@[simp] theorem emitEvent_shifted (e : WireEvent) (s : State) : (emitEvent e s).shifted = s.shifted := rfl
@[simp] theorem emitEvent_wave (e : WireEvent) (s : State) : (emitEvent e s).wave = s.wave := rfl
@[simp] theorem emitEvent_moves (e : WireEvent) (s : State) : (emitEvent e s).moves = s.moves := rfl
@[simp] theorem emitEvent_pos (e : WireEvent) (s : State) : (emitEvent e s).pos = s.pos := rfl
@[simp] theorem emitEvent_held (e : WireEvent) (s : State) : (emitEvent e s).held = s.held := rfl
@[simp] theorem emitEvent_outstanding (e : WireEvent) (s : State) : (emitEvent e s).outstanding = s.outstanding := rfl
@[simp] theorem emitEvent_todo (e : WireEvent) (s : State) : (emitEvent e s).todo = s.todo := rfl
@[simp] theorem emitEvent_inputs (e : WireEvent) (s : State) : (emitEvent e s).inputs = s.inputs := rfl
@[simp] theorem emitEvent_reads (e : WireEvent) (s : State) : (emitEvent e s).reads = s.reads := rfl
@[simp] theorem emitEvent_draws (e : WireEvent) (s : State) : (emitEvent e s).draws = s.draws := rfl

@[simp] theorem issueEvent_cfg (e : WireEvent) (s : State) : (issueEvent e s).cfg = s.cfg := rfl
@[simp] theorem issueEvent_busy (e : WireEvent) (s : State) : (issueEvent e s).busy = s.busy := rfl
@[simp] theorem issueEvent_statusDone (e : WireEvent) (s : State) : (issueEvent e s).statusDone = s.statusDone := rfl
@[simp] theorem issueEvent_statusErr (e : WireEvent) (s : State) : (issueEvent e s).statusErr = s.statusErr := rfl
@[simp] theorem issueEvent_overrun (e : WireEvent) (s : State) : (issueEvent e s).overrun = s.overrun := rfl
@[simp] theorem issueEvent_pstate (e : WireEvent) (s : State) : (issueEvent e s).pstate = s.pstate := rfl
@[simp] theorem issueEvent_stepIx (e : WireEvent) (s : State) : (issueEvent e s).stepIx = s.stepIx := rfl
@[simp] theorem issueEvent_act (e : WireEvent) (s : State) : (issueEvent e s).act = s.act := rfl
@[simp] theorem issueEvent_error (e : WireEvent) (s : State) : (issueEvent e s).error = s.error := rfl
@[simp] theorem issueEvent_srcDim (e : WireEvent) (s : State) : (issueEvent e s).srcDim = s.srcDim := rfl
@[simp] theorem issueEvent_fitOrigin (e : WireEvent) (s : State) : (issueEvent e s).fitOrigin = s.fitOrigin := rfl
@[simp] theorem issueEvent_fitSize (e : WireEvent) (s : State) : (issueEvent e s).fitSize = s.fitSize := rfl
@[simp] theorem issueEvent_mem (e : WireEvent) (s : State) : (issueEvent e s).mem = s.mem := rfl
@[simp] theorem issueEvent_ct (e : WireEvent) (s : State) : (issueEvent e s).ct = s.ct := rfl
@[simp] theorem issueEvent_errAcc (e : WireEvent) (s : State) : (issueEvent e s).errAcc = s.errAcc := rfl
@[simp] theorem issueEvent_idx (e : WireEvent) (s : State) : (issueEvent e s).idx = s.idx := rfl
@[simp] theorem issueEvent_bus (e : WireEvent) (s : State) : (issueEvent e s).bus = s.bus := rfl
@[simp] theorem issueEvent_rst (e : WireEvent) (s : State) : (issueEvent e s).rst = s.rst := rfl
@[simp] theorem issueEvent_dc (e : WireEvent) (s : State) : (issueEvent e s).dc = s.dc := rfl
@[simp] theorem issueEvent_pinSclk (e : WireEvent) (s : State) : (issueEvent e s).pinSclk = s.pinSclk := rfl
@[simp] theorem issueEvent_pinMosi (e : WireEvent) (s : State) : (issueEvent e s).pinMosi = s.pinMosi := rfl
@[simp] theorem issueEvent_pinCsN (e : WireEvent) (s : State) : (issueEvent e s).pinCsN = s.pinCsN := rfl
@[simp] theorem issueEvent_pinRst (e : WireEvent) (s : State) : (issueEvent e s).pinRst = s.pinRst := rfl
@[simp] theorem issueEvent_pinDc (e : WireEvent) (s : State) : (issueEvent e s).pinDc = s.pinDc := rfl
@[simp] theorem issueEvent_dly (e : WireEvent) (s : State) : (issueEvent e s).dly = s.dly := rfl
@[simp] theorem issueEvent_trace (e : WireEvent) (s : State) : (issueEvent e s).trace = s.trace ++ [e] := rfl
@[simp] theorem issueEvent_outcomes (e : WireEvent) (s : State) : (issueEvent e s).outcomes = s.outcomes := rfl
@[simp] theorem issueEvent_shifted (e : WireEvent) (s : State) : (issueEvent e s).shifted = s.shifted := rfl
@[simp] theorem issueEvent_wave (e : WireEvent) (s : State) : (issueEvent e s).wave = s.wave := rfl
@[simp] theorem issueEvent_moves (e : WireEvent) (s : State) : (issueEvent e s).moves = s.moves := rfl
@[simp] theorem issueEvent_pos (e : WireEvent) (s : State) : (issueEvent e s).pos = s.pos := rfl
@[simp] theorem issueEvent_held (e : WireEvent) (s : State) : (issueEvent e s).held = s.held := rfl
@[simp] theorem issueEvent_outstanding (e : WireEvent) (s : State) : (issueEvent e s).outstanding = some e := rfl
@[simp] theorem issueEvent_todo (e : WireEvent) (s : State) : (issueEvent e s).todo = s.todo := rfl
@[simp] theorem issueEvent_inputs (e : WireEvent) (s : State) : (issueEvent e s).inputs = s.inputs := rfl
@[simp] theorem issueEvent_reads (e : WireEvent) (s : State) : (issueEvent e s).reads = s.reads := rfl
@[simp] theorem issueEvent_draws (e : WireEvent) (s : State) : (issueEvent e s).draws = s.draws := rfl

@[simp] theorem busPinsIdle_cfg (s : State) : (busPinsIdle s).cfg = s.cfg := rfl
@[simp] theorem busPinsIdle_busy (s : State) : (busPinsIdle s).busy = s.busy := rfl
@[simp] theorem busPinsIdle_statusDone (s : State) : (busPinsIdle s).statusDone = s.statusDone := rfl
@[simp] theorem busPinsIdle_statusErr (s : State) : (busPinsIdle s).statusErr = s.statusErr := rfl
@[simp] theorem busPinsIdle_overrun (s : State) : (busPinsIdle s).overrun = s.overrun := rfl
@[simp] theorem busPinsIdle_pstate (s : State) : (busPinsIdle s).pstate = s.pstate := rfl
@[simp] theorem busPinsIdle_stepIx (s : State) : (busPinsIdle s).stepIx = s.stepIx := rfl
@[simp] theorem busPinsIdle_act (s : State) : (busPinsIdle s).act = s.act := rfl
@[simp] theorem busPinsIdle_error (s : State) : (busPinsIdle s).error = s.error := rfl
@[simp] theorem busPinsIdle_srcDim (s : State) : (busPinsIdle s).srcDim = s.srcDim := rfl
@[simp] theorem busPinsIdle_fitOrigin (s : State) : (busPinsIdle s).fitOrigin = s.fitOrigin := rfl
@[simp] theorem busPinsIdle_fitSize (s : State) : (busPinsIdle s).fitSize = s.fitSize := rfl
@[simp] theorem busPinsIdle_mem (s : State) : (busPinsIdle s).mem = s.mem := rfl
@[simp] theorem busPinsIdle_ct (s : State) : (busPinsIdle s).ct = s.ct := rfl
@[simp] theorem busPinsIdle_errAcc (s : State) : (busPinsIdle s).errAcc = s.errAcc := rfl
@[simp] theorem busPinsIdle_idx (s : State) : (busPinsIdle s).idx = s.idx := rfl
@[simp] theorem busPinsIdle_bus (s : State) : (busPinsIdle s).bus = s.bus := rfl
@[simp] theorem busPinsIdle_rst (s : State) : (busPinsIdle s).rst = s.rst := rfl
@[simp] theorem busPinsIdle_dc (s : State) : (busPinsIdle s).dc = s.dc := rfl
@[simp] theorem busPinsIdle_pinSclk (s : State) : (busPinsIdle s).pinSclk = .driven (cpol s.cfg.spiMode) := rfl
@[simp] theorem busPinsIdle_pinMosi (s : State) : (busPinsIdle s).pinMosi = .driven (Config.drawBit s.draws) := rfl
@[simp] theorem busPinsIdle_pinCsN (s : State) : (busPinsIdle s).pinCsN = .driven true := rfl
@[simp] theorem busPinsIdle_pinRst (s : State) : (busPinsIdle s).pinRst = s.pinRst := rfl
@[simp] theorem busPinsIdle_pinDc (s : State) : (busPinsIdle s).pinDc = s.pinDc := rfl
@[simp] theorem busPinsIdle_dly (s : State) : (busPinsIdle s).dly = s.dly := rfl
@[simp] theorem busPinsIdle_trace (s : State) : (busPinsIdle s).trace = s.trace := rfl
@[simp] theorem busPinsIdle_outcomes (s : State) : (busPinsIdle s).outcomes = s.outcomes := rfl
@[simp] theorem busPinsIdle_shifted (s : State) : (busPinsIdle s).shifted = s.shifted := rfl
@[simp] theorem busPinsIdle_wave (s : State) : (busPinsIdle s).wave = s.wave := rfl
@[simp] theorem busPinsIdle_moves (s : State) : (busPinsIdle s).moves = s.moves := rfl
@[simp] theorem busPinsIdle_pos (s : State) : (busPinsIdle s).pos = s.pos := rfl
@[simp] theorem busPinsIdle_held (s : State) : (busPinsIdle s).held = s.held := rfl
@[simp] theorem busPinsIdle_outstanding (s : State) : (busPinsIdle s).outstanding = s.outstanding := rfl
@[simp] theorem busPinsIdle_todo (s : State) : (busPinsIdle s).todo = s.todo := rfl
@[simp] theorem busPinsIdle_inputs (s : State) : (busPinsIdle s).inputs = s.inputs := rfl
@[simp] theorem busPinsIdle_reads (s : State) : (busPinsIdle s).reads = s.reads := rfl
@[simp] theorem busPinsIdle_draws (s : State) : (busPinsIdle s).draws = s.draws + 1 := rfl

@[simp] theorem closeBus_cfg (s : State) : (closeBus s).cfg = s.cfg := rfl
@[simp] theorem closeBus_busy (s : State) : (closeBus s).busy = s.busy := rfl
@[simp] theorem closeBus_statusDone (s : State) : (closeBus s).statusDone = s.statusDone := rfl
@[simp] theorem closeBus_statusErr (s : State) : (closeBus s).statusErr = s.statusErr := rfl
@[simp] theorem closeBus_overrun (s : State) : (closeBus s).overrun = s.overrun := rfl
@[simp] theorem closeBus_pstate (s : State) : (closeBus s).pstate = s.pstate := rfl
@[simp] theorem closeBus_stepIx (s : State) : (closeBus s).stepIx = s.stepIx := rfl
@[simp] theorem closeBus_act (s : State) : (closeBus s).act = s.act := rfl
@[simp] theorem closeBus_error (s : State) : (closeBus s).error = s.error := rfl
@[simp] theorem closeBus_srcDim (s : State) : (closeBus s).srcDim = s.srcDim := rfl
@[simp] theorem closeBus_fitOrigin (s : State) : (closeBus s).fitOrigin = s.fitOrigin := rfl
@[simp] theorem closeBus_fitSize (s : State) : (closeBus s).fitSize = s.fitSize := rfl
@[simp] theorem closeBus_mem (s : State) : (closeBus s).mem = s.mem := rfl
@[simp] theorem closeBus_ct (s : State) : (closeBus s).ct = s.ct := rfl
@[simp] theorem closeBus_errAcc (s : State) : (closeBus s).errAcc = s.errAcc := rfl
@[simp] theorem closeBus_idx (s : State) : (closeBus s).idx = s.idx := rfl
@[simp] theorem closeBus_bus (s : State) : (closeBus s).bus = none := rfl
@[simp] theorem closeBus_rst (s : State) : (closeBus s).rst = s.rst := rfl
@[simp] theorem closeBus_dc (s : State) : (closeBus s).dc = s.dc := rfl
@[simp] theorem closeBus_pinSclk (s : State) : (closeBus s).pinSclk = .undriven := rfl
@[simp] theorem closeBus_pinMosi (s : State) : (closeBus s).pinMosi = .undriven := rfl
@[simp] theorem closeBus_pinCsN (s : State) : (closeBus s).pinCsN = .undriven := rfl
@[simp] theorem closeBus_pinRst (s : State) : (closeBus s).pinRst = s.pinRst := rfl
@[simp] theorem closeBus_pinDc (s : State) : (closeBus s).pinDc = s.pinDc := rfl
@[simp] theorem closeBus_dly (s : State) : (closeBus s).dly = s.dly := rfl
@[simp] theorem closeBus_trace (s : State) : (closeBus s).trace = s.trace ++ [.busClose] := rfl
@[simp] theorem closeBus_outcomes (s : State) : (closeBus s).outcomes = s.outcomes := rfl
@[simp] theorem closeBus_shifted (s : State) : (closeBus s).shifted = s.shifted := rfl
@[simp] theorem closeBus_wave (s : State) : (closeBus s).wave = s.wave := rfl
@[simp] theorem closeBus_moves (s : State) : (closeBus s).moves = s.moves := rfl
@[simp] theorem closeBus_pos (s : State) : (closeBus s).pos = s.pos := rfl
@[simp] theorem closeBus_held (s : State) : (closeBus s).held = s.held := rfl
@[simp] theorem closeBus_outstanding (s : State) : (closeBus s).outstanding = s.outstanding := rfl
@[simp] theorem closeBus_todo (s : State) : (closeBus s).todo = s.todo := rfl
@[simp] theorem closeBus_inputs (s : State) : (closeBus s).inputs = s.inputs := rfl
@[simp] theorem closeBus_reads (s : State) : (closeBus s).reads = s.reads := rfl
@[simp] theorem closeBus_draws (s : State) : (closeBus s).draws = s.draws := rfl

@[simp] theorem startDelay_cfg (ms : BitVec 16) (s : State) : (startDelay ms s).cfg = s.cfg := rfl
@[simp] theorem startDelay_busy (ms : BitVec 16) (s : State) : (startDelay ms s).busy = s.busy := rfl
@[simp] theorem startDelay_statusDone (ms : BitVec 16) (s : State) : (startDelay ms s).statusDone = s.statusDone := rfl
@[simp] theorem startDelay_statusErr (ms : BitVec 16) (s : State) : (startDelay ms s).statusErr = s.statusErr := rfl
@[simp] theorem startDelay_overrun (ms : BitVec 16) (s : State) : (startDelay ms s).overrun = s.overrun := rfl
@[simp] theorem startDelay_pstate (ms : BitVec 16) (s : State) : (startDelay ms s).pstate = s.pstate := rfl
@[simp] theorem startDelay_stepIx (ms : BitVec 16) (s : State) : (startDelay ms s).stepIx = s.stepIx := rfl
@[simp] theorem startDelay_act (ms : BitVec 16) (s : State) : (startDelay ms s).act = s.act := rfl
@[simp] theorem startDelay_error (ms : BitVec 16) (s : State) : (startDelay ms s).error = s.error := rfl
@[simp] theorem startDelay_srcDim (ms : BitVec 16) (s : State) : (startDelay ms s).srcDim = s.srcDim := rfl
@[simp] theorem startDelay_fitOrigin (ms : BitVec 16) (s : State) : (startDelay ms s).fitOrigin = s.fitOrigin := rfl
@[simp] theorem startDelay_fitSize (ms : BitVec 16) (s : State) : (startDelay ms s).fitSize = s.fitSize := rfl
@[simp] theorem startDelay_mem (ms : BitVec 16) (s : State) : (startDelay ms s).mem = s.mem := rfl
@[simp] theorem startDelay_ct (ms : BitVec 16) (s : State) : (startDelay ms s).ct = s.ct := rfl
@[simp] theorem startDelay_errAcc (ms : BitVec 16) (s : State) : (startDelay ms s).errAcc = s.errAcc := rfl
@[simp] theorem startDelay_idx (ms : BitVec 16) (s : State) : (startDelay ms s).idx = s.idx := rfl
@[simp] theorem startDelay_bus (ms : BitVec 16) (s : State) : (startDelay ms s).bus = s.bus := rfl
@[simp] theorem startDelay_rst (ms : BitVec 16) (s : State) : (startDelay ms s).rst = s.rst := rfl
@[simp] theorem startDelay_dc (ms : BitVec 16) (s : State) : (startDelay ms s).dc = s.dc := rfl
@[simp] theorem startDelay_pinSclk (ms : BitVec 16) (s : State) : (startDelay ms s).pinSclk = s.pinSclk := rfl
@[simp] theorem startDelay_pinMosi (ms : BitVec 16) (s : State) : (startDelay ms s).pinMosi = s.pinMosi := rfl
@[simp] theorem startDelay_pinCsN (ms : BitVec 16) (s : State) : (startDelay ms s).pinCsN = s.pinCsN := rfl
@[simp] theorem startDelay_pinRst (ms : BitVec 16) (s : State) : (startDelay ms s).pinRst = s.pinRst := rfl
@[simp] theorem startDelay_pinDc (ms : BitVec 16) (s : State) : (startDelay ms s).pinDc = s.pinDc := rfl
@[simp] theorem startDelay_dly (ms : BitVec 16) (s : State) : (startDelay ms s).dly = ms := rfl
@[simp] theorem startDelay_trace (ms : BitVec 16) (s : State) : (startDelay ms s).trace = s.trace ++ [.delay ms] := rfl
@[simp] theorem startDelay_outcomes (ms : BitVec 16) (s : State) : (startDelay ms s).outcomes = s.outcomes := rfl
@[simp] theorem startDelay_shifted (ms : BitVec 16) (s : State) : (startDelay ms s).shifted = s.shifted := rfl
@[simp] theorem startDelay_wave (ms : BitVec 16) (s : State) : (startDelay ms s).wave = s.wave := rfl
@[simp] theorem startDelay_moves (ms : BitVec 16) (s : State) : (startDelay ms s).moves = s.moves := rfl
@[simp] theorem startDelay_pos (ms : BitVec 16) (s : State) : (startDelay ms s).pos = s.pos := rfl
@[simp] theorem startDelay_held (ms : BitVec 16) (s : State) : (startDelay ms s).held = s.held := rfl
@[simp] theorem startDelay_outstanding (ms : BitVec 16) (s : State) : (startDelay ms s).outstanding = s.outstanding := rfl
@[simp] theorem startDelay_todo (ms : BitVec 16) (s : State) : (startDelay ms s).todo = s.todo := rfl
@[simp] theorem startDelay_inputs (ms : BitVec 16) (s : State) : (startDelay ms s).inputs = s.inputs := rfl
@[simp] theorem startDelay_reads (ms : BitVec 16) (s : State) : (startDelay ms s).reads = s.reads := rfl
@[simp] theorem startDelay_draws (ms : BitVec 16) (s : State) : (startDelay ms s).draws = s.draws := rfl

@[simp] theorem raiseError_cfg (f : Failure) (s : State) : (raiseError f s).cfg = s.cfg := rfl
@[simp] theorem raiseError_busy (f : Failure) (s : State) : (raiseError f s).busy = s.busy := rfl
@[simp] theorem raiseError_statusDone (f : Failure) (s : State) : (raiseError f s).statusDone = s.statusDone := rfl
@[simp] theorem raiseError_statusErr (f : Failure) (s : State) : (raiseError f s).statusErr = s.statusErr := rfl
@[simp] theorem raiseError_overrun (f : Failure) (s : State) : (raiseError f s).overrun = s.overrun := rfl
@[simp] theorem raiseError_pstate (f : Failure) (s : State) : (raiseError f s).pstate = s.pstate := rfl
@[simp] theorem raiseError_stepIx (f : Failure) (s : State) : (raiseError f s).stepIx = s.stepIx := rfl
@[simp] theorem raiseError_act (f : Failure) (s : State) : (raiseError f s).act = .release := rfl
@[simp] theorem raiseError_error (f : Failure) (s : State) : (raiseError f s).error = errorOf f := rfl
@[simp] theorem raiseError_srcDim (f : Failure) (s : State) : (raiseError f s).srcDim = s.srcDim := rfl
@[simp] theorem raiseError_fitOrigin (f : Failure) (s : State) : (raiseError f s).fitOrigin = s.fitOrigin := rfl
@[simp] theorem raiseError_fitSize (f : Failure) (s : State) : (raiseError f s).fitSize = s.fitSize := rfl
@[simp] theorem raiseError_mem (f : Failure) (s : State) : (raiseError f s).mem = s.mem := rfl
@[simp] theorem raiseError_ct (f : Failure) (s : State) : (raiseError f s).ct = s.ct := rfl
@[simp] theorem raiseError_errAcc (f : Failure) (s : State) : (raiseError f s).errAcc = s.errAcc := rfl
@[simp] theorem raiseError_idx (f : Failure) (s : State) : (raiseError f s).idx = s.idx := rfl
@[simp] theorem raiseError_bus (f : Failure) (s : State) : (raiseError f s).bus = s.bus := rfl
@[simp] theorem raiseError_rst (f : Failure) (s : State) : (raiseError f s).rst = s.rst := rfl
@[simp] theorem raiseError_dc (f : Failure) (s : State) : (raiseError f s).dc = s.dc := rfl
@[simp] theorem raiseError_pinSclk (f : Failure) (s : State) : (raiseError f s).pinSclk = s.pinSclk := rfl
@[simp] theorem raiseError_pinMosi (f : Failure) (s : State) : (raiseError f s).pinMosi = s.pinMosi := rfl
@[simp] theorem raiseError_pinCsN (f : Failure) (s : State) : (raiseError f s).pinCsN = s.pinCsN := rfl
@[simp] theorem raiseError_pinRst (f : Failure) (s : State) : (raiseError f s).pinRst = s.pinRst := rfl
@[simp] theorem raiseError_pinDc (f : Failure) (s : State) : (raiseError f s).pinDc = s.pinDc := rfl
@[simp] theorem raiseError_dly (f : Failure) (s : State) : (raiseError f s).dly = s.dly := rfl
@[simp] theorem raiseError_trace (f : Failure) (s : State) : (raiseError f s).trace = s.trace := rfl
@[simp] theorem raiseError_outcomes (f : Failure) (s : State) : (raiseError f s).outcomes = s.outcomes := rfl
@[simp] theorem raiseError_shifted (f : Failure) (s : State) : (raiseError f s).shifted = s.shifted := rfl
@[simp] theorem raiseError_wave (f : Failure) (s : State) : (raiseError f s).wave = s.wave := rfl
@[simp] theorem raiseError_moves (f : Failure) (s : State) : (raiseError f s).moves = s.moves := rfl
@[simp] theorem raiseError_pos (f : Failure) (s : State) : (raiseError f s).pos = s.pos := rfl
@[simp] theorem raiseError_held (f : Failure) (s : State) : (raiseError f s).held = none := rfl
@[simp] theorem raiseError_outstanding (f : Failure) (s : State) : (raiseError f s).outstanding = none := rfl
@[simp] theorem raiseError_todo (f : Failure) (s : State) : (raiseError f s).todo = [] := rfl
@[simp] theorem raiseError_inputs (f : Failure) (s : State) : (raiseError f s).inputs = s.inputs := rfl
@[simp] theorem raiseError_reads (f : Failure) (s : State) : (raiseError f s).reads = s.reads := rfl
@[simp] theorem raiseError_draws (f : Failure) (s : State) : (raiseError f s).draws = s.draws := rfl

@[simp] theorem raiseIllegal_cfg (s : State) : (raiseIllegal s).cfg = s.cfg := rfl
@[simp] theorem raiseIllegal_busy (s : State) : (raiseIllegal s).busy = s.busy := rfl
@[simp] theorem raiseIllegal_statusDone (s : State) : (raiseIllegal s).statusDone = s.statusDone := rfl
@[simp] theorem raiseIllegal_statusErr (s : State) : (raiseIllegal s).statusErr = true := rfl
@[simp] theorem raiseIllegal_overrun (s : State) : (raiseIllegal s).overrun = s.overrun := rfl
@[simp] theorem raiseIllegal_pstate (s : State) : (raiseIllegal s).pstate = s.pstate := rfl
@[simp] theorem raiseIllegal_stepIx (s : State) : (raiseIllegal s).stepIx = s.stepIx := rfl
@[simp] theorem raiseIllegal_act (s : State) : (raiseIllegal s).act = s.act := rfl
@[simp] theorem raiseIllegal_error (s : State) : (raiseIllegal s).error = ⟨.illegalOperation, false, .noPhase, 0, 0⟩ := rfl
@[simp] theorem raiseIllegal_srcDim (s : State) : (raiseIllegal s).srcDim = s.srcDim := rfl
@[simp] theorem raiseIllegal_fitOrigin (s : State) : (raiseIllegal s).fitOrigin = s.fitOrigin := rfl
@[simp] theorem raiseIllegal_fitSize (s : State) : (raiseIllegal s).fitSize = s.fitSize := rfl
@[simp] theorem raiseIllegal_mem (s : State) : (raiseIllegal s).mem = s.mem := rfl
@[simp] theorem raiseIllegal_ct (s : State) : (raiseIllegal s).ct = s.ct := rfl
@[simp] theorem raiseIllegal_errAcc (s : State) : (raiseIllegal s).errAcc = s.errAcc := rfl
@[simp] theorem raiseIllegal_idx (s : State) : (raiseIllegal s).idx = s.idx := rfl
@[simp] theorem raiseIllegal_bus (s : State) : (raiseIllegal s).bus = s.bus := rfl
@[simp] theorem raiseIllegal_rst (s : State) : (raiseIllegal s).rst = s.rst := rfl
@[simp] theorem raiseIllegal_dc (s : State) : (raiseIllegal s).dc = s.dc := rfl
@[simp] theorem raiseIllegal_pinSclk (s : State) : (raiseIllegal s).pinSclk = s.pinSclk := rfl
@[simp] theorem raiseIllegal_pinMosi (s : State) : (raiseIllegal s).pinMosi = s.pinMosi := rfl
@[simp] theorem raiseIllegal_pinCsN (s : State) : (raiseIllegal s).pinCsN = s.pinCsN := rfl
@[simp] theorem raiseIllegal_pinRst (s : State) : (raiseIllegal s).pinRst = s.pinRst := rfl
@[simp] theorem raiseIllegal_pinDc (s : State) : (raiseIllegal s).pinDc = s.pinDc := rfl
@[simp] theorem raiseIllegal_dly (s : State) : (raiseIllegal s).dly = s.dly := rfl
@[simp] theorem raiseIllegal_trace (s : State) : (raiseIllegal s).trace = s.trace := rfl
@[simp] theorem raiseIllegal_outcomes (s : State) : (raiseIllegal s).outcomes = s.outcomes := rfl
@[simp] theorem raiseIllegal_shifted (s : State) : (raiseIllegal s).shifted = s.shifted := rfl
@[simp] theorem raiseIllegal_wave (s : State) : (raiseIllegal s).wave = s.wave := rfl
@[simp] theorem raiseIllegal_moves (s : State) : (raiseIllegal s).moves = s.moves := rfl
@[simp] theorem raiseIllegal_pos (s : State) : (raiseIllegal s).pos = s.pos := rfl
@[simp] theorem raiseIllegal_held (s : State) : (raiseIllegal s).held = s.held := rfl
@[simp] theorem raiseIllegal_outstanding (s : State) : (raiseIllegal s).outstanding = s.outstanding := rfl
@[simp] theorem raiseIllegal_todo (s : State) : (raiseIllegal s).todo = s.todo := rfl
@[simp] theorem raiseIllegal_inputs (s : State) : (raiseIllegal s).inputs = s.inputs := rfl
@[simp] theorem raiseIllegal_reads (s : State) : (raiseIllegal s).reads = s.reads := rfl
@[simp] theorem raiseIllegal_draws (s : State) : (raiseIllegal s).draws = s.draws := rfl

@[simp] theorem clearForCommand_cfg (s : State) : (clearForCommand s).cfg = s.cfg := rfl
@[simp] theorem clearForCommand_busy (s : State) : (clearForCommand s).busy = s.busy := rfl
@[simp] theorem clearForCommand_statusDone (s : State) : (clearForCommand s).statusDone = false := rfl
@[simp] theorem clearForCommand_statusErr (s : State) : (clearForCommand s).statusErr = false := rfl
@[simp] theorem clearForCommand_overrun (s : State) : (clearForCommand s).overrun = false := rfl
@[simp] theorem clearForCommand_pstate (s : State) : (clearForCommand s).pstate = s.pstate := rfl
@[simp] theorem clearForCommand_stepIx (s : State) : (clearForCommand s).stepIx = s.stepIx := rfl
@[simp] theorem clearForCommand_act (s : State) : (clearForCommand s).act = s.act := rfl
@[simp] theorem clearForCommand_error (s : State) : (clearForCommand s).error = .clear := rfl
@[simp] theorem clearForCommand_srcDim (s : State) : (clearForCommand s).srcDim = s.srcDim := rfl
@[simp] theorem clearForCommand_fitOrigin (s : State) : (clearForCommand s).fitOrigin = s.fitOrigin := rfl
@[simp] theorem clearForCommand_fitSize (s : State) : (clearForCommand s).fitSize = s.fitSize := rfl
@[simp] theorem clearForCommand_mem (s : State) : (clearForCommand s).mem = s.mem := rfl
@[simp] theorem clearForCommand_ct (s : State) : (clearForCommand s).ct = s.ct := rfl
@[simp] theorem clearForCommand_errAcc (s : State) : (clearForCommand s).errAcc = s.errAcc := rfl
@[simp] theorem clearForCommand_idx (s : State) : (clearForCommand s).idx = s.idx := rfl
@[simp] theorem clearForCommand_bus (s : State) : (clearForCommand s).bus = s.bus := rfl
@[simp] theorem clearForCommand_rst (s : State) : (clearForCommand s).rst = s.rst := rfl
@[simp] theorem clearForCommand_dc (s : State) : (clearForCommand s).dc = s.dc := rfl
@[simp] theorem clearForCommand_pinSclk (s : State) : (clearForCommand s).pinSclk = s.pinSclk := rfl
@[simp] theorem clearForCommand_pinMosi (s : State) : (clearForCommand s).pinMosi = s.pinMosi := rfl
@[simp] theorem clearForCommand_pinCsN (s : State) : (clearForCommand s).pinCsN = s.pinCsN := rfl
@[simp] theorem clearForCommand_pinRst (s : State) : (clearForCommand s).pinRst = s.pinRst := rfl
@[simp] theorem clearForCommand_pinDc (s : State) : (clearForCommand s).pinDc = s.pinDc := rfl
@[simp] theorem clearForCommand_dly (s : State) : (clearForCommand s).dly = s.dly := rfl
@[simp] theorem clearForCommand_trace (s : State) : (clearForCommand s).trace = s.trace := rfl
@[simp] theorem clearForCommand_outcomes (s : State) : (clearForCommand s).outcomes = s.outcomes := rfl
@[simp] theorem clearForCommand_shifted (s : State) : (clearForCommand s).shifted = s.shifted := rfl
@[simp] theorem clearForCommand_wave (s : State) : (clearForCommand s).wave = s.wave := rfl
@[simp] theorem clearForCommand_moves (s : State) : (clearForCommand s).moves = s.moves := rfl
@[simp] theorem clearForCommand_pos (s : State) : (clearForCommand s).pos = s.pos := rfl
@[simp] theorem clearForCommand_held (s : State) : (clearForCommand s).held = s.held := rfl
@[simp] theorem clearForCommand_outstanding (s : State) : (clearForCommand s).outstanding = s.outstanding := rfl
@[simp] theorem clearForCommand_todo (s : State) : (clearForCommand s).todo = s.todo := rfl
@[simp] theorem clearForCommand_inputs (s : State) : (clearForCommand s).inputs = s.inputs := rfl
@[simp] theorem clearForCommand_reads (s : State) : (clearForCommand s).reads = s.reads := rfl
@[simp] theorem clearForCommand_draws (s : State) : (clearForCommand s).draws = s.draws := rfl

@[simp] theorem dropWrite_cfg (s : State) : (dropWrite s).cfg = s.cfg := rfl
@[simp] theorem dropWrite_busy (s : State) : (dropWrite s).busy = s.busy := rfl
@[simp] theorem dropWrite_statusDone (s : State) : (dropWrite s).statusDone = s.statusDone := rfl
@[simp] theorem dropWrite_statusErr (s : State) : (dropWrite s).statusErr = s.statusErr := rfl
@[simp] theorem dropWrite_overrun (s : State) : (dropWrite s).overrun = true := rfl
@[simp] theorem dropWrite_pstate (s : State) : (dropWrite s).pstate = s.pstate := rfl
@[simp] theorem dropWrite_stepIx (s : State) : (dropWrite s).stepIx = s.stepIx := rfl
@[simp] theorem dropWrite_act (s : State) : (dropWrite s).act = s.act := rfl
@[simp] theorem dropWrite_error (s : State) : (dropWrite s).error = s.error := rfl
@[simp] theorem dropWrite_srcDim (s : State) : (dropWrite s).srcDim = s.srcDim := rfl
@[simp] theorem dropWrite_fitOrigin (s : State) : (dropWrite s).fitOrigin = s.fitOrigin := rfl
@[simp] theorem dropWrite_fitSize (s : State) : (dropWrite s).fitSize = s.fitSize := rfl
@[simp] theorem dropWrite_mem (s : State) : (dropWrite s).mem = s.mem := rfl
@[simp] theorem dropWrite_ct (s : State) : (dropWrite s).ct = s.ct := rfl
@[simp] theorem dropWrite_errAcc (s : State) : (dropWrite s).errAcc = s.errAcc := rfl
@[simp] theorem dropWrite_idx (s : State) : (dropWrite s).idx = s.idx := rfl
@[simp] theorem dropWrite_bus (s : State) : (dropWrite s).bus = s.bus := rfl
@[simp] theorem dropWrite_rst (s : State) : (dropWrite s).rst = s.rst := rfl
@[simp] theorem dropWrite_dc (s : State) : (dropWrite s).dc = s.dc := rfl
@[simp] theorem dropWrite_pinSclk (s : State) : (dropWrite s).pinSclk = s.pinSclk := rfl
@[simp] theorem dropWrite_pinMosi (s : State) : (dropWrite s).pinMosi = s.pinMosi := rfl
@[simp] theorem dropWrite_pinCsN (s : State) : (dropWrite s).pinCsN = s.pinCsN := rfl
@[simp] theorem dropWrite_pinRst (s : State) : (dropWrite s).pinRst = s.pinRst := rfl
@[simp] theorem dropWrite_pinDc (s : State) : (dropWrite s).pinDc = s.pinDc := rfl
@[simp] theorem dropWrite_dly (s : State) : (dropWrite s).dly = s.dly := rfl
@[simp] theorem dropWrite_trace (s : State) : (dropWrite s).trace = s.trace := rfl
@[simp] theorem dropWrite_outcomes (s : State) : (dropWrite s).outcomes = s.outcomes := rfl
@[simp] theorem dropWrite_shifted (s : State) : (dropWrite s).shifted = s.shifted := rfl
@[simp] theorem dropWrite_wave (s : State) : (dropWrite s).wave = s.wave := rfl
@[simp] theorem dropWrite_moves (s : State) : (dropWrite s).moves = s.moves := rfl
@[simp] theorem dropWrite_pos (s : State) : (dropWrite s).pos = s.pos := rfl
@[simp] theorem dropWrite_held (s : State) : (dropWrite s).held = s.held := rfl
@[simp] theorem dropWrite_outstanding (s : State) : (dropWrite s).outstanding = s.outstanding := rfl
@[simp] theorem dropWrite_todo (s : State) : (dropWrite s).todo = s.todo := rfl
@[simp] theorem dropWrite_inputs (s : State) : (dropWrite s).inputs = s.inputs := rfl
@[simp] theorem dropWrite_reads (s : State) : (dropWrite s).reads = s.reads := rfl
@[simp] theorem dropWrite_draws (s : State) : (dropWrite s).draws = s.draws := rfl

@[simp] theorem finishOperation_cfg (b : Bool) (s : State) : (finishOperation b s).cfg = s.cfg := rfl
@[simp] theorem finishOperation_busy (b : Bool) (s : State) : (finishOperation b s).busy = false := rfl
@[simp] theorem finishOperation_statusDone (b : Bool) (s : State) : (finishOperation b s).statusDone = b := rfl
@[simp] theorem finishOperation_statusErr (b : Bool) (s : State) : (finishOperation b s).statusErr = !b := rfl
@[simp] theorem finishOperation_overrun (b : Bool) (s : State) : (finishOperation b s).overrun = s.overrun := rfl
@[simp] theorem finishOperation_pstate (b : Bool) (s : State) : (finishOperation b s).pstate = s.pstate := rfl
@[simp] theorem finishOperation_stepIx (b : Bool) (s : State) : (finishOperation b s).stepIx = s.stepIx := rfl
@[simp] theorem finishOperation_act (b : Bool) (s : State) : (finishOperation b s).act = .idle := rfl
@[simp] theorem finishOperation_error (b : Bool) (s : State) : (finishOperation b s).error = s.error := rfl
@[simp] theorem finishOperation_srcDim (b : Bool) (s : State) : (finishOperation b s).srcDim = s.srcDim := rfl
@[simp] theorem finishOperation_fitOrigin (b : Bool) (s : State) : (finishOperation b s).fitOrigin = s.fitOrigin := rfl
@[simp] theorem finishOperation_fitSize (b : Bool) (s : State) : (finishOperation b s).fitSize = s.fitSize := rfl
@[simp] theorem finishOperation_mem (b : Bool) (s : State) : (finishOperation b s).mem = s.mem := rfl
@[simp] theorem finishOperation_ct (b : Bool) (s : State) : (finishOperation b s).ct = s.ct := rfl
@[simp] theorem finishOperation_errAcc (b : Bool) (s : State) : (finishOperation b s).errAcc = s.errAcc := rfl
@[simp] theorem finishOperation_idx (b : Bool) (s : State) : (finishOperation b s).idx = s.idx := rfl
@[simp] theorem finishOperation_bus (b : Bool) (s : State) : (finishOperation b s).bus = s.bus := rfl
@[simp] theorem finishOperation_rst (b : Bool) (s : State) : (finishOperation b s).rst = s.rst := rfl
@[simp] theorem finishOperation_dc (b : Bool) (s : State) : (finishOperation b s).dc = s.dc := rfl
@[simp] theorem finishOperation_pinSclk (b : Bool) (s : State) : (finishOperation b s).pinSclk = s.pinSclk := rfl
@[simp] theorem finishOperation_pinMosi (b : Bool) (s : State) : (finishOperation b s).pinMosi = s.pinMosi := rfl
@[simp] theorem finishOperation_pinCsN (b : Bool) (s : State) : (finishOperation b s).pinCsN = s.pinCsN := rfl
@[simp] theorem finishOperation_pinRst (b : Bool) (s : State) : (finishOperation b s).pinRst = s.pinRst := rfl
@[simp] theorem finishOperation_pinDc (b : Bool) (s : State) : (finishOperation b s).pinDc = s.pinDc := rfl
@[simp] theorem finishOperation_dly (b : Bool) (s : State) : (finishOperation b s).dly = s.dly := rfl
@[simp] theorem finishOperation_trace (b : Bool) (s : State) : (finishOperation b s).trace = s.trace := rfl
@[simp] theorem finishOperation_outcomes (b : Bool) (s : State) : (finishOperation b s).outcomes = s.outcomes := rfl
@[simp] theorem finishOperation_shifted (b : Bool) (s : State) : (finishOperation b s).shifted = s.shifted := rfl
@[simp] theorem finishOperation_wave (b : Bool) (s : State) : (finishOperation b s).wave = s.wave := rfl
@[simp] theorem finishOperation_moves (b : Bool) (s : State) : (finishOperation b s).moves = s.moves := rfl
@[simp] theorem finishOperation_pos (b : Bool) (s : State) : (finishOperation b s).pos = s.pos := rfl
@[simp] theorem finishOperation_held (b : Bool) (s : State) : (finishOperation b s).held = s.held := rfl
@[simp] theorem finishOperation_outstanding (b : Bool) (s : State) : (finishOperation b s).outstanding = s.outstanding := rfl
@[simp] theorem finishOperation_todo (b : Bool) (s : State) : (finishOperation b s).todo = [] := rfl
@[simp] theorem finishOperation_inputs (b : Bool) (s : State) : (finishOperation b s).inputs = s.inputs := rfl
@[simp] theorem finishOperation_reads (b : Bool) (s : State) : (finishOperation b s).reads = s.reads := rfl
@[simp] theorem finishOperation_draws (b : Bool) (s : State) : (finishOperation b s).draws = s.draws := rfl

@[simp] theorem storeFit_cfg (r : Region) (s : State) : (storeFit r s).cfg = s.cfg := rfl
@[simp] theorem storeFit_busy (r : Region) (s : State) : (storeFit r s).busy = s.busy := rfl
@[simp] theorem storeFit_statusDone (r : Region) (s : State) : (storeFit r s).statusDone = s.statusDone := rfl
@[simp] theorem storeFit_statusErr (r : Region) (s : State) : (storeFit r s).statusErr = s.statusErr := rfl
@[simp] theorem storeFit_overrun (r : Region) (s : State) : (storeFit r s).overrun = s.overrun := rfl
@[simp] theorem storeFit_pstate (r : Region) (s : State) : (storeFit r s).pstate = s.pstate := rfl
@[simp] theorem storeFit_stepIx (r : Region) (s : State) : (storeFit r s).stepIx = s.stepIx := rfl
@[simp] theorem storeFit_act (r : Region) (s : State) : (storeFit r s).act = s.act := rfl
@[simp] theorem storeFit_error (r : Region) (s : State) : (storeFit r s).error = s.error := rfl
@[simp] theorem storeFit_srcDim (r : Region) (s : State) : (storeFit r s).srcDim = s.srcDim := rfl
@[simp] theorem storeFit_fitOrigin (r : Region) (s : State) : (storeFit r s).fitOrigin = pairWord r.y0 r.x0 := rfl
@[simp] theorem storeFit_fitSize (r : Region) (s : State) : (storeFit r s).fitSize = pairWord r.fh r.fw := rfl
@[simp] theorem storeFit_mem (r : Region) (s : State) : (storeFit r s).mem = s.mem := rfl
@[simp] theorem storeFit_ct (r : Region) (s : State) : (storeFit r s).ct = s.ct := rfl
@[simp] theorem storeFit_errAcc (r : Region) (s : State) : (storeFit r s).errAcc = s.errAcc := rfl
@[simp] theorem storeFit_idx (r : Region) (s : State) : (storeFit r s).idx = s.idx := rfl
@[simp] theorem storeFit_bus (r : Region) (s : State) : (storeFit r s).bus = s.bus := rfl
@[simp] theorem storeFit_rst (r : Region) (s : State) : (storeFit r s).rst = s.rst := rfl
@[simp] theorem storeFit_dc (r : Region) (s : State) : (storeFit r s).dc = s.dc := rfl
@[simp] theorem storeFit_pinSclk (r : Region) (s : State) : (storeFit r s).pinSclk = s.pinSclk := rfl
@[simp] theorem storeFit_pinMosi (r : Region) (s : State) : (storeFit r s).pinMosi = s.pinMosi := rfl
@[simp] theorem storeFit_pinCsN (r : Region) (s : State) : (storeFit r s).pinCsN = s.pinCsN := rfl
@[simp] theorem storeFit_pinRst (r : Region) (s : State) : (storeFit r s).pinRst = s.pinRst := rfl
@[simp] theorem storeFit_pinDc (r : Region) (s : State) : (storeFit r s).pinDc = s.pinDc := rfl
@[simp] theorem storeFit_dly (r : Region) (s : State) : (storeFit r s).dly = s.dly := rfl
@[simp] theorem storeFit_trace (r : Region) (s : State) : (storeFit r s).trace = s.trace := rfl
@[simp] theorem storeFit_outcomes (r : Region) (s : State) : (storeFit r s).outcomes = s.outcomes := rfl
@[simp] theorem storeFit_shifted (r : Region) (s : State) : (storeFit r s).shifted = s.shifted := rfl
@[simp] theorem storeFit_wave (r : Region) (s : State) : (storeFit r s).wave = s.wave := rfl
@[simp] theorem storeFit_moves (r : Region) (s : State) : (storeFit r s).moves = s.moves := rfl
@[simp] theorem storeFit_pos (r : Region) (s : State) : (storeFit r s).pos = s.pos := rfl
@[simp] theorem storeFit_held (r : Region) (s : State) : (storeFit r s).held = s.held := rfl
@[simp] theorem storeFit_outstanding (r : Region) (s : State) : (storeFit r s).outstanding = s.outstanding := rfl
@[simp] theorem storeFit_todo (r : Region) (s : State) : (storeFit r s).todo = s.todo := rfl
@[simp] theorem storeFit_inputs (r : Region) (s : State) : (storeFit r s).inputs = s.inputs := rfl
@[simp] theorem storeFit_reads (r : Region) (s : State) : (storeFit r s).reads = s.reads := rfl
@[simp] theorem storeFit_draws (r : Region) (s : State) : (storeFit r s).draws = s.draws := rfl

@[simp] theorem acceptOperation_cfg (s : State) : (acceptOperation s).cfg = s.cfg := rfl
@[simp] theorem acceptOperation_busy (s : State) : (acceptOperation s).busy = true := rfl
@[simp] theorem acceptOperation_statusDone (s : State) : (acceptOperation s).statusDone = false := rfl
@[simp] theorem acceptOperation_statusErr (s : State) : (acceptOperation s).statusErr = false := rfl
@[simp] theorem acceptOperation_overrun (s : State) : (acceptOperation s).overrun = false := rfl
@[simp] theorem acceptOperation_pstate (s : State) : (acceptOperation s).pstate = s.pstate := rfl
@[simp] theorem acceptOperation_stepIx (s : State) : (acceptOperation s).stepIx = s.stepIx := rfl
@[simp] theorem acceptOperation_act (s : State) : (acceptOperation s).act = .prepare := rfl
@[simp] theorem acceptOperation_error (s : State) : (acceptOperation s).error = .clear := rfl
@[simp] theorem acceptOperation_srcDim (s : State) : (acceptOperation s).srcDim = s.srcDim := rfl
@[simp] theorem acceptOperation_fitOrigin (s : State) : (acceptOperation s).fitOrigin = s.fitOrigin := rfl
@[simp] theorem acceptOperation_fitSize (s : State) : (acceptOperation s).fitSize = s.fitSize := rfl
@[simp] theorem acceptOperation_mem (s : State) : (acceptOperation s).mem = s.mem := rfl
@[simp] theorem acceptOperation_ct (s : State) : (acceptOperation s).ct = s.ct := rfl
@[simp] theorem acceptOperation_errAcc (s : State) : (acceptOperation s).errAcc = s.errAcc := rfl
@[simp] theorem acceptOperation_idx (s : State) : (acceptOperation s).idx = s.idx := rfl
@[simp] theorem acceptOperation_bus (s : State) : (acceptOperation s).bus = s.bus := rfl
@[simp] theorem acceptOperation_rst (s : State) : (acceptOperation s).rst = s.rst := rfl
@[simp] theorem acceptOperation_dc (s : State) : (acceptOperation s).dc = s.dc := rfl
@[simp] theorem acceptOperation_pinSclk (s : State) : (acceptOperation s).pinSclk = s.pinSclk := rfl
@[simp] theorem acceptOperation_pinMosi (s : State) : (acceptOperation s).pinMosi = s.pinMosi := rfl
@[simp] theorem acceptOperation_pinCsN (s : State) : (acceptOperation s).pinCsN = s.pinCsN := rfl
@[simp] theorem acceptOperation_pinRst (s : State) : (acceptOperation s).pinRst = s.pinRst := rfl
@[simp] theorem acceptOperation_pinDc (s : State) : (acceptOperation s).pinDc = s.pinDc := rfl
@[simp] theorem acceptOperation_dly (s : State) : (acceptOperation s).dly = s.dly := rfl
@[simp] theorem acceptOperation_trace (s : State) : (acceptOperation s).trace = s.trace := rfl
@[simp] theorem acceptOperation_outcomes (s : State) : (acceptOperation s).outcomes = s.outcomes := rfl
@[simp] theorem acceptOperation_shifted (s : State) : (acceptOperation s).shifted = s.shifted := rfl
@[simp] theorem acceptOperation_wave (s : State) : (acceptOperation s).wave = s.wave := rfl
@[simp] theorem acceptOperation_moves (s : State) : (acceptOperation s).moves = [] := rfl
@[simp] theorem acceptOperation_pos (s : State) : (acceptOperation s).pos = s.pos := rfl
@[simp] theorem acceptOperation_held (s : State) : (acceptOperation s).held = none := rfl
@[simp] theorem acceptOperation_outstanding (s : State) : (acceptOperation s).outstanding = none := rfl
@[simp] theorem acceptOperation_todo (s : State) : (acceptOperation s).todo = [] := rfl
@[simp] theorem acceptOperation_inputs (s : State) : (acceptOperation s).inputs = s.inputs := rfl
@[simp] theorem acceptOperation_reads (s : State) : (acceptOperation s).reads = s.reads := rfl
@[simp] theorem acceptOperation_draws (s : State) : (acceptOperation s).draws = s.draws := rfl

@[simp] theorem startRun_cfg (s : State) : (startRun s).cfg = s.cfg := rfl
@[simp] theorem startRun_busy (s : State) : (startRun s).busy = s.busy := rfl
@[simp] theorem startRun_statusDone (s : State) : (startRun s).statusDone = s.statusDone := rfl
@[simp] theorem startRun_statusErr (s : State) : (startRun s).statusErr = s.statusErr := rfl
@[simp] theorem startRun_overrun (s : State) : (startRun s).overrun = s.overrun := rfl
@[simp] theorem startRun_pstate (s : State) : (startRun s).pstate = .unpowered := rfl
@[simp] theorem startRun_stepIx (s : State) : (startRun s).stepIx = 0 := rfl
@[simp] theorem startRun_act (s : State) : (startRun s).act = s.act := rfl
@[simp] theorem startRun_error (s : State) : (startRun s).error = s.error := rfl
@[simp] theorem startRun_srcDim (s : State) : (startRun s).srcDim = s.srcDim := rfl
@[simp] theorem startRun_fitOrigin (s : State) : (startRun s).fitOrigin = s.fitOrigin := rfl
@[simp] theorem startRun_fitSize (s : State) : (startRun s).fitSize = s.fitSize := rfl
@[simp] theorem startRun_mem (s : State) : (startRun s).mem = s.mem := rfl
@[simp] theorem startRun_ct (s : State) : (startRun s).ct = s.ct := rfl
@[simp] theorem startRun_errAcc (s : State) : (startRun s).errAcc = s.errAcc := rfl
@[simp] theorem startRun_idx (s : State) : (startRun s).idx = s.idx := rfl
@[simp] theorem startRun_bus (s : State) : (startRun s).bus = s.bus := rfl
@[simp] theorem startRun_rst (s : State) : (startRun s).rst = s.rst := rfl
@[simp] theorem startRun_dc (s : State) : (startRun s).dc = s.dc := rfl
@[simp] theorem startRun_pinSclk (s : State) : (startRun s).pinSclk = s.pinSclk := rfl
@[simp] theorem startRun_pinMosi (s : State) : (startRun s).pinMosi = s.pinMosi := rfl
@[simp] theorem startRun_pinCsN (s : State) : (startRun s).pinCsN = s.pinCsN := rfl
@[simp] theorem startRun_pinRst (s : State) : (startRun s).pinRst = s.pinRst := rfl
@[simp] theorem startRun_pinDc (s : State) : (startRun s).pinDc = s.pinDc := rfl
@[simp] theorem startRun_dly (s : State) : (startRun s).dly = s.dly := rfl
@[simp] theorem startRun_trace (s : State) : (startRun s).trace = s.trace := rfl
@[simp] theorem startRun_outcomes (s : State) : (startRun s).outcomes = s.outcomes := rfl
@[simp] theorem startRun_shifted (s : State) : (startRun s).shifted = s.shifted := rfl
@[simp] theorem startRun_wave (s : State) : (startRun s).wave = s.wave := rfl
@[simp] theorem startRun_moves (s : State) : (startRun s).moves = s.moves := rfl
@[simp] theorem startRun_pos (s : State) : (startRun s).pos = s.pos := rfl
@[simp] theorem startRun_held (s : State) : (startRun s).held = s.held := rfl
@[simp] theorem startRun_outstanding (s : State) : (startRun s).outstanding = s.outstanding := rfl
@[simp] theorem startRun_todo (s : State) : (startRun s).todo = s.todo := rfl
@[simp] theorem startRun_inputs (s : State) : (startRun s).inputs = s.inputs := rfl
@[simp] theorem startRun_reads (s : State) : (startRun s).reads = s.reads := rfl
@[simp] theorem startRun_draws (s : State) : (startRun s).draws = s.draws := rfl

@[simp] theorem hostRead_cfg (a : HostAddr) (s : State) : (hostRead a s).cfg = s.cfg := rfl
@[simp] theorem hostRead_busy (a : HostAddr) (s : State) : (hostRead a s).busy = s.busy := rfl
@[simp] theorem hostRead_statusDone (a : HostAddr) (s : State) : (hostRead a s).statusDone = s.statusDone := rfl
@[simp] theorem hostRead_statusErr (a : HostAddr) (s : State) : (hostRead a s).statusErr = s.statusErr := rfl
@[simp] theorem hostRead_overrun (a : HostAddr) (s : State) : (hostRead a s).overrun = s.overrun := rfl
@[simp] theorem hostRead_pstate (a : HostAddr) (s : State) : (hostRead a s).pstate = s.pstate := rfl
@[simp] theorem hostRead_stepIx (a : HostAddr) (s : State) : (hostRead a s).stepIx = s.stepIx := rfl
@[simp] theorem hostRead_act (a : HostAddr) (s : State) : (hostRead a s).act = s.act := rfl
@[simp] theorem hostRead_error (a : HostAddr) (s : State) : (hostRead a s).error = s.error := rfl
@[simp] theorem hostRead_srcDim (a : HostAddr) (s : State) : (hostRead a s).srcDim = s.srcDim := rfl
@[simp] theorem hostRead_fitOrigin (a : HostAddr) (s : State) : (hostRead a s).fitOrigin = s.fitOrigin := rfl
@[simp] theorem hostRead_fitSize (a : HostAddr) (s : State) : (hostRead a s).fitSize = s.fitSize := rfl
@[simp] theorem hostRead_mem (a : HostAddr) (s : State) : (hostRead a s).mem = s.mem := rfl
@[simp] theorem hostRead_ct (a : HostAddr) (s : State) : (hostRead a s).ct = s.ct := rfl
@[simp] theorem hostRead_errAcc (a : HostAddr) (s : State) : (hostRead a s).errAcc = s.errAcc := rfl
@[simp] theorem hostRead_idx (a : HostAddr) (s : State) : (hostRead a s).idx = s.idx := rfl
@[simp] theorem hostRead_bus (a : HostAddr) (s : State) : (hostRead a s).bus = s.bus := rfl
@[simp] theorem hostRead_rst (a : HostAddr) (s : State) : (hostRead a s).rst = s.rst := rfl
@[simp] theorem hostRead_dc (a : HostAddr) (s : State) : (hostRead a s).dc = s.dc := rfl
@[simp] theorem hostRead_pinSclk (a : HostAddr) (s : State) : (hostRead a s).pinSclk = s.pinSclk := rfl
@[simp] theorem hostRead_pinMosi (a : HostAddr) (s : State) : (hostRead a s).pinMosi = s.pinMosi := rfl
@[simp] theorem hostRead_pinCsN (a : HostAddr) (s : State) : (hostRead a s).pinCsN = s.pinCsN := rfl
@[simp] theorem hostRead_pinRst (a : HostAddr) (s : State) : (hostRead a s).pinRst = s.pinRst := rfl
@[simp] theorem hostRead_pinDc (a : HostAddr) (s : State) : (hostRead a s).pinDc = s.pinDc := rfl
@[simp] theorem hostRead_dly (a : HostAddr) (s : State) : (hostRead a s).dly = s.dly := rfl
@[simp] theorem hostRead_trace (a : HostAddr) (s : State) : (hostRead a s).trace = s.trace := rfl
@[simp] theorem hostRead_outcomes (a : HostAddr) (s : State) : (hostRead a s).outcomes = s.outcomes := rfl
@[simp] theorem hostRead_shifted (a : HostAddr) (s : State) : (hostRead a s).shifted = s.shifted := rfl
@[simp] theorem hostRead_wave (a : HostAddr) (s : State) : (hostRead a s).wave = s.wave := rfl
@[simp] theorem hostRead_moves (a : HostAddr) (s : State) : (hostRead a s).moves = s.moves := rfl
@[simp] theorem hostRead_pos (a : HostAddr) (s : State) : (hostRead a s).pos = s.pos := rfl
@[simp] theorem hostRead_held (a : HostAddr) (s : State) : (hostRead a s).held = s.held := rfl
@[simp] theorem hostRead_outstanding (a : HostAddr) (s : State) : (hostRead a s).outstanding = s.outstanding := rfl
@[simp] theorem hostRead_todo (a : HostAddr) (s : State) : (hostRead a s).todo = s.todo := rfl
@[simp] theorem hostRead_inputs (a : HostAddr) (s : State) : (hostRead a s).inputs = s.inputs := rfl
@[simp] theorem hostRead_reads (a : HostAddr) (s : State) : (hostRead a s).reads = s.reads ++ [⟨a, readPlace s (placeAt s.cfg a.toNat)⟩] := rfl
@[simp] theorem hostRead_draws (a : HostAddr) (s : State) : (hostRead a s).draws = s.draws + 1 := rfl

@[simp] theorem setLine_cfg (l : Line) (v : LineState) (p : Pin) (s : State) : (setLine l v p s).cfg = s.cfg := by cases l <;> rfl
@[simp] theorem setLine_busy (l : Line) (v : LineState) (p : Pin) (s : State) : (setLine l v p s).busy = s.busy := by cases l <;> rfl
@[simp] theorem setLine_statusDone (l : Line) (v : LineState) (p : Pin) (s : State) : (setLine l v p s).statusDone = s.statusDone := by cases l <;> rfl
@[simp] theorem setLine_statusErr (l : Line) (v : LineState) (p : Pin) (s : State) : (setLine l v p s).statusErr = s.statusErr := by cases l <;> rfl
@[simp] theorem setLine_overrun (l : Line) (v : LineState) (p : Pin) (s : State) : (setLine l v p s).overrun = s.overrun := by cases l <;> rfl
@[simp] theorem setLine_pstate (l : Line) (v : LineState) (p : Pin) (s : State) : (setLine l v p s).pstate = s.pstate := by cases l <;> rfl
@[simp] theorem setLine_stepIx (l : Line) (v : LineState) (p : Pin) (s : State) : (setLine l v p s).stepIx = s.stepIx := by cases l <;> rfl
@[simp] theorem setLine_act (l : Line) (v : LineState) (p : Pin) (s : State) : (setLine l v p s).act = s.act := by cases l <;> rfl
@[simp] theorem setLine_error (l : Line) (v : LineState) (p : Pin) (s : State) : (setLine l v p s).error = s.error := by cases l <;> rfl
@[simp] theorem setLine_srcDim (l : Line) (v : LineState) (p : Pin) (s : State) : (setLine l v p s).srcDim = s.srcDim := by cases l <;> rfl
@[simp] theorem setLine_fitOrigin (l : Line) (v : LineState) (p : Pin) (s : State) : (setLine l v p s).fitOrigin = s.fitOrigin := by cases l <;> rfl
@[simp] theorem setLine_fitSize (l : Line) (v : LineState) (p : Pin) (s : State) : (setLine l v p s).fitSize = s.fitSize := by cases l <;> rfl
@[simp] theorem setLine_mem (l : Line) (v : LineState) (p : Pin) (s : State) : (setLine l v p s).mem = s.mem := by cases l <;> rfl
@[simp] theorem setLine_ct (l : Line) (v : LineState) (p : Pin) (s : State) : (setLine l v p s).ct = s.ct := by cases l <;> rfl
@[simp] theorem setLine_errAcc (l : Line) (v : LineState) (p : Pin) (s : State) : (setLine l v p s).errAcc = s.errAcc := by cases l <;> rfl
@[simp] theorem setLine_idx (l : Line) (v : LineState) (p : Pin) (s : State) : (setLine l v p s).idx = s.idx := by cases l <;> rfl
@[simp] theorem setLine_bus (l : Line) (v : LineState) (p : Pin) (s : State) : (setLine l v p s).bus = s.bus := by cases l <;> rfl
@[simp] theorem setLine_pinSclk (l : Line) (v : LineState) (p : Pin) (s : State) : (setLine l v p s).pinSclk = s.pinSclk := by cases l <;> rfl
@[simp] theorem setLine_pinMosi (l : Line) (v : LineState) (p : Pin) (s : State) : (setLine l v p s).pinMosi = s.pinMosi := by cases l <;> rfl
@[simp] theorem setLine_pinCsN (l : Line) (v : LineState) (p : Pin) (s : State) : (setLine l v p s).pinCsN = s.pinCsN := by cases l <;> rfl
@[simp] theorem setLine_dly (l : Line) (v : LineState) (p : Pin) (s : State) : (setLine l v p s).dly = s.dly := by cases l <;> rfl
@[simp] theorem setLine_trace (l : Line) (v : LineState) (p : Pin) (s : State) : (setLine l v p s).trace = s.trace := by cases l <;> rfl
@[simp] theorem setLine_outcomes (l : Line) (v : LineState) (p : Pin) (s : State) : (setLine l v p s).outcomes = s.outcomes := by cases l <;> rfl
@[simp] theorem setLine_shifted (l : Line) (v : LineState) (p : Pin) (s : State) : (setLine l v p s).shifted = s.shifted := by cases l <;> rfl
@[simp] theorem setLine_wave (l : Line) (v : LineState) (p : Pin) (s : State) : (setLine l v p s).wave = s.wave := by cases l <;> rfl
@[simp] theorem setLine_moves (l : Line) (v : LineState) (p : Pin) (s : State) : (setLine l v p s).moves = s.moves := by cases l <;> rfl
@[simp] theorem setLine_pos (l : Line) (v : LineState) (p : Pin) (s : State) : (setLine l v p s).pos = s.pos := by cases l <;> rfl
@[simp] theorem setLine_held (l : Line) (v : LineState) (p : Pin) (s : State) : (setLine l v p s).held = s.held := by cases l <;> rfl
@[simp] theorem setLine_outstanding (l : Line) (v : LineState) (p : Pin) (s : State) : (setLine l v p s).outstanding = s.outstanding := by cases l <;> rfl
@[simp] theorem setLine_todo (l : Line) (v : LineState) (p : Pin) (s : State) : (setLine l v p s).todo = s.todo := by cases l <;> rfl
@[simp] theorem setLine_inputs (l : Line) (v : LineState) (p : Pin) (s : State) : (setLine l v p s).inputs = s.inputs := by cases l <;> rfl
@[simp] theorem setLine_reads (l : Line) (v : LineState) (p : Pin) (s : State) : (setLine l v p s).reads = s.reads := by cases l <;> rfl
@[simp] theorem setLine_draws (l : Line) (v : LineState) (p : Pin) (s : State) : (setLine l v p s).draws = s.draws := by cases l <;> rfl

@[simp] theorem releaseLine_cfg (l : Line) (s : State) : (releaseLine l s).cfg = s.cfg := by cases l <;> rfl
@[simp] theorem releaseLine_busy (l : Line) (s : State) : (releaseLine l s).busy = s.busy := by cases l <;> rfl
@[simp] theorem releaseLine_statusDone (l : Line) (s : State) : (releaseLine l s).statusDone = s.statusDone := by cases l <;> rfl
@[simp] theorem releaseLine_statusErr (l : Line) (s : State) : (releaseLine l s).statusErr = s.statusErr := by cases l <;> rfl
@[simp] theorem releaseLine_overrun (l : Line) (s : State) : (releaseLine l s).overrun = s.overrun := by cases l <;> rfl
@[simp] theorem releaseLine_pstate (l : Line) (s : State) : (releaseLine l s).pstate = s.pstate := by cases l <;> rfl
@[simp] theorem releaseLine_stepIx (l : Line) (s : State) : (releaseLine l s).stepIx = s.stepIx := by cases l <;> rfl
@[simp] theorem releaseLine_act (l : Line) (s : State) : (releaseLine l s).act = s.act := by cases l <;> rfl
@[simp] theorem releaseLine_error (l : Line) (s : State) : (releaseLine l s).error = s.error := by cases l <;> rfl
@[simp] theorem releaseLine_srcDim (l : Line) (s : State) : (releaseLine l s).srcDim = s.srcDim := by cases l <;> rfl
@[simp] theorem releaseLine_fitOrigin (l : Line) (s : State) : (releaseLine l s).fitOrigin = s.fitOrigin := by cases l <;> rfl
@[simp] theorem releaseLine_fitSize (l : Line) (s : State) : (releaseLine l s).fitSize = s.fitSize := by cases l <;> rfl
@[simp] theorem releaseLine_mem (l : Line) (s : State) : (releaseLine l s).mem = s.mem := by cases l <;> rfl
@[simp] theorem releaseLine_ct (l : Line) (s : State) : (releaseLine l s).ct = s.ct := by cases l <;> rfl
@[simp] theorem releaseLine_errAcc (l : Line) (s : State) : (releaseLine l s).errAcc = s.errAcc := by cases l <;> rfl
@[simp] theorem releaseLine_idx (l : Line) (s : State) : (releaseLine l s).idx = s.idx := by cases l <;> rfl
@[simp] theorem releaseLine_bus (l : Line) (s : State) : (releaseLine l s).bus = s.bus := by cases l <;> rfl
@[simp] theorem releaseLine_pinSclk (l : Line) (s : State) : (releaseLine l s).pinSclk = s.pinSclk := by cases l <;> rfl
@[simp] theorem releaseLine_pinMosi (l : Line) (s : State) : (releaseLine l s).pinMosi = s.pinMosi := by cases l <;> rfl
@[simp] theorem releaseLine_pinCsN (l : Line) (s : State) : (releaseLine l s).pinCsN = s.pinCsN := by cases l <;> rfl
@[simp] theorem releaseLine_dly (l : Line) (s : State) : (releaseLine l s).dly = s.dly := by cases l <;> rfl
@[simp] theorem releaseLine_trace (l : Line) (s : State) : (releaseLine l s).trace = s.trace ++ [.lineRelease l] := by cases l <;> rfl
@[simp] theorem releaseLine_outcomes (l : Line) (s : State) : (releaseLine l s).outcomes = s.outcomes := by cases l <;> rfl
@[simp] theorem releaseLine_shifted (l : Line) (s : State) : (releaseLine l s).shifted = s.shifted := by cases l <;> rfl
@[simp] theorem releaseLine_wave (l : Line) (s : State) : (releaseLine l s).wave = s.wave := by cases l <;> rfl
@[simp] theorem releaseLine_moves (l : Line) (s : State) : (releaseLine l s).moves = s.moves := by cases l <;> rfl
@[simp] theorem releaseLine_pos (l : Line) (s : State) : (releaseLine l s).pos = s.pos := by cases l <;> rfl
@[simp] theorem releaseLine_held (l : Line) (s : State) : (releaseLine l s).held = s.held := by cases l <;> rfl
@[simp] theorem releaseLine_outstanding (l : Line) (s : State) : (releaseLine l s).outstanding = s.outstanding := by cases l <;> rfl
@[simp] theorem releaseLine_todo (l : Line) (s : State) : (releaseLine l s).todo = s.todo := by cases l <;> rfl
@[simp] theorem releaseLine_inputs (l : Line) (s : State) : (releaseLine l s).inputs = s.inputs := by cases l <;> rfl
@[simp] theorem releaseLine_reads (l : Line) (s : State) : (releaseLine l s).reads = s.reads := by cases l <;> rfl
@[simp] theorem releaseLine_draws (l : Line) (s : State) : (releaseLine l s).draws = s.draws := by cases l <;> rfl

@[simp] theorem driveLine_cfg (l : Line) (v : Bool) (p : Pin) (s : State) : (driveLine l v p s).cfg = s.cfg := by
  unfold driveLine; split <;> simp
@[simp] theorem driveLine_busy (l : Line) (v : Bool) (p : Pin) (s : State) : (driveLine l v p s).busy = s.busy := by
  unfold driveLine; split <;> simp
@[simp] theorem driveLine_statusDone (l : Line) (v : Bool) (p : Pin) (s : State) : (driveLine l v p s).statusDone = s.statusDone := by
  unfold driveLine; split <;> simp
@[simp] theorem driveLine_statusErr (l : Line) (v : Bool) (p : Pin) (s : State) : (driveLine l v p s).statusErr = s.statusErr := by
  unfold driveLine; split <;> simp
@[simp] theorem driveLine_overrun (l : Line) (v : Bool) (p : Pin) (s : State) : (driveLine l v p s).overrun = s.overrun := by
  unfold driveLine; split <;> simp
@[simp] theorem driveLine_pstate (l : Line) (v : Bool) (p : Pin) (s : State) : (driveLine l v p s).pstate = s.pstate := by
  unfold driveLine; split <;> simp
@[simp] theorem driveLine_stepIx (l : Line) (v : Bool) (p : Pin) (s : State) : (driveLine l v p s).stepIx = s.stepIx := by
  unfold driveLine; split <;> simp
@[simp] theorem driveLine_act (l : Line) (v : Bool) (p : Pin) (s : State) : (driveLine l v p s).act = s.act := by
  unfold driveLine; split <;> simp
@[simp] theorem driveLine_error (l : Line) (v : Bool) (p : Pin) (s : State) : (driveLine l v p s).error = s.error := by
  unfold driveLine; split <;> simp
@[simp] theorem driveLine_srcDim (l : Line) (v : Bool) (p : Pin) (s : State) : (driveLine l v p s).srcDim = s.srcDim := by
  unfold driveLine; split <;> simp
@[simp] theorem driveLine_fitOrigin (l : Line) (v : Bool) (p : Pin) (s : State) : (driveLine l v p s).fitOrigin = s.fitOrigin := by
  unfold driveLine; split <;> simp
@[simp] theorem driveLine_fitSize (l : Line) (v : Bool) (p : Pin) (s : State) : (driveLine l v p s).fitSize = s.fitSize := by
  unfold driveLine; split <;> simp
@[simp] theorem driveLine_mem (l : Line) (v : Bool) (p : Pin) (s : State) : (driveLine l v p s).mem = s.mem := by
  unfold driveLine; split <;> simp
@[simp] theorem driveLine_ct (l : Line) (v : Bool) (p : Pin) (s : State) : (driveLine l v p s).ct = s.ct := by
  unfold driveLine; split <;> simp
@[simp] theorem driveLine_errAcc (l : Line) (v : Bool) (p : Pin) (s : State) : (driveLine l v p s).errAcc = s.errAcc := by
  unfold driveLine; split <;> simp
@[simp] theorem driveLine_idx (l : Line) (v : Bool) (p : Pin) (s : State) : (driveLine l v p s).idx = s.idx := by
  unfold driveLine; split <;> simp
@[simp] theorem driveLine_bus (l : Line) (v : Bool) (p : Pin) (s : State) : (driveLine l v p s).bus = s.bus := by
  unfold driveLine; split <;> simp
@[simp] theorem driveLine_pinSclk (l : Line) (v : Bool) (p : Pin) (s : State) : (driveLine l v p s).pinSclk = s.pinSclk := by
  unfold driveLine; split <;> simp
@[simp] theorem driveLine_pinMosi (l : Line) (v : Bool) (p : Pin) (s : State) : (driveLine l v p s).pinMosi = s.pinMosi := by
  unfold driveLine; split <;> simp
@[simp] theorem driveLine_pinCsN (l : Line) (v : Bool) (p : Pin) (s : State) : (driveLine l v p s).pinCsN = s.pinCsN := by
  unfold driveLine; split <;> simp
@[simp] theorem driveLine_dly (l : Line) (v : Bool) (p : Pin) (s : State) : (driveLine l v p s).dly = s.dly := by
  unfold driveLine; split <;> simp
@[simp] theorem driveLine_trace (l : Line) (v : Bool) (p : Pin) (s : State) : (driveLine l v p s).trace = s.trace := by
  unfold driveLine; split <;> simp
@[simp] theorem driveLine_outcomes (l : Line) (v : Bool) (p : Pin) (s : State) : (driveLine l v p s).outcomes = s.outcomes := by
  unfold driveLine; split <;> simp
@[simp] theorem driveLine_shifted (l : Line) (v : Bool) (p : Pin) (s : State) : (driveLine l v p s).shifted = s.shifted := by
  unfold driveLine; split <;> simp
@[simp] theorem driveLine_wave (l : Line) (v : Bool) (p : Pin) (s : State) : (driveLine l v p s).wave = s.wave := by
  unfold driveLine; split <;> simp
@[simp] theorem driveLine_moves (l : Line) (v : Bool) (p : Pin) (s : State) : (driveLine l v p s).moves = s.moves := by
  unfold driveLine; split <;> simp
@[simp] theorem driveLine_pos (l : Line) (v : Bool) (p : Pin) (s : State) : (driveLine l v p s).pos = s.pos := by
  unfold driveLine; split <;> simp
@[simp] theorem driveLine_held (l : Line) (v : Bool) (p : Pin) (s : State) : (driveLine l v p s).held = s.held := by
  unfold driveLine; split <;> simp
@[simp] theorem driveLine_outstanding (l : Line) (v : Bool) (p : Pin) (s : State) : (driveLine l v p s).outstanding = s.outstanding := by
  unfold driveLine; split <;> simp
@[simp] theorem driveLine_todo (l : Line) (v : Bool) (p : Pin) (s : State) : (driveLine l v p s).todo = s.todo := by
  unfold driveLine; split <;> simp
@[simp] theorem driveLine_inputs (l : Line) (v : Bool) (p : Pin) (s : State) : (driveLine l v p s).inputs = s.inputs := by
  unfold driveLine; split <;> simp
@[simp] theorem driveLine_reads (l : Line) (v : Bool) (p : Pin) (s : State) : (driveLine l v p s).reads = s.reads := by
  unfold driveLine; split <;> simp
@[simp] theorem driveLine_draws (l : Line) (v : Bool) (p : Pin) (s : State) : (driveLine l v p s).draws = s.draws := by
  unfold driveLine; split <;> simp

@[simp] theorem noteFailure_cfg (c : ErrClass) (s : State) : (noteFailure c s).cfg = s.cfg := by
  unfold noteFailure; split <;> rfl
@[simp] theorem noteFailure_busy (c : ErrClass) (s : State) : (noteFailure c s).busy = s.busy := by
  unfold noteFailure; split <;> rfl
@[simp] theorem noteFailure_statusDone (c : ErrClass) (s : State) : (noteFailure c s).statusDone = s.statusDone := by
  unfold noteFailure; split <;> rfl
@[simp] theorem noteFailure_statusErr (c : ErrClass) (s : State) : (noteFailure c s).statusErr = s.statusErr := by
  unfold noteFailure; split <;> rfl
@[simp] theorem noteFailure_overrun (c : ErrClass) (s : State) : (noteFailure c s).overrun = s.overrun := by
  unfold noteFailure; split <;> rfl
@[simp] theorem noteFailure_pstate (c : ErrClass) (s : State) : (noteFailure c s).pstate = s.pstate := by
  unfold noteFailure; split <;> rfl
@[simp] theorem noteFailure_stepIx (c : ErrClass) (s : State) : (noteFailure c s).stepIx = s.stepIx := by
  unfold noteFailure; split <;> rfl
@[simp] theorem noteFailure_act (c : ErrClass) (s : State) : (noteFailure c s).act = s.act := by
  unfold noteFailure; split <;> rfl
@[simp] theorem noteFailure_error (c : ErrClass) (s : State) : (noteFailure c s).error = s.error := by
  unfold noteFailure; split <;> rfl
@[simp] theorem noteFailure_srcDim (c : ErrClass) (s : State) : (noteFailure c s).srcDim = s.srcDim := by
  unfold noteFailure; split <;> rfl
@[simp] theorem noteFailure_fitOrigin (c : ErrClass) (s : State) : (noteFailure c s).fitOrigin = s.fitOrigin := by
  unfold noteFailure; split <;> rfl
@[simp] theorem noteFailure_fitSize (c : ErrClass) (s : State) : (noteFailure c s).fitSize = s.fitSize := by
  unfold noteFailure; split <;> rfl
@[simp] theorem noteFailure_mem (c : ErrClass) (s : State) : (noteFailure c s).mem = s.mem := by
  unfold noteFailure; split <;> rfl
@[simp] theorem noteFailure_ct (c : ErrClass) (s : State) : (noteFailure c s).ct = s.ct := by
  unfold noteFailure; split <;> rfl
@[simp] theorem noteFailure_errAcc (c : ErrClass) (s : State) : (noteFailure c s).errAcc = s.errAcc := by
  unfold noteFailure; split <;> rfl
@[simp] theorem noteFailure_idx (c : ErrClass) (s : State) : (noteFailure c s).idx = s.idx := by
  unfold noteFailure; split <;> rfl
@[simp] theorem noteFailure_bus (c : ErrClass) (s : State) : (noteFailure c s).bus = s.bus := by
  unfold noteFailure; split <;> rfl
@[simp] theorem noteFailure_rst (c : ErrClass) (s : State) : (noteFailure c s).rst = s.rst := by
  unfold noteFailure; split <;> rfl
@[simp] theorem noteFailure_dc (c : ErrClass) (s : State) : (noteFailure c s).dc = s.dc := by
  unfold noteFailure; split <;> rfl
@[simp] theorem noteFailure_pinSclk (c : ErrClass) (s : State) : (noteFailure c s).pinSclk = s.pinSclk := by
  unfold noteFailure; split <;> rfl
@[simp] theorem noteFailure_pinMosi (c : ErrClass) (s : State) : (noteFailure c s).pinMosi = s.pinMosi := by
  unfold noteFailure; split <;> rfl
@[simp] theorem noteFailure_pinCsN (c : ErrClass) (s : State) : (noteFailure c s).pinCsN = s.pinCsN := by
  unfold noteFailure; split <;> rfl
@[simp] theorem noteFailure_pinRst (c : ErrClass) (s : State) : (noteFailure c s).pinRst = s.pinRst := by
  unfold noteFailure; split <;> rfl
@[simp] theorem noteFailure_pinDc (c : ErrClass) (s : State) : (noteFailure c s).pinDc = s.pinDc := by
  unfold noteFailure; split <;> rfl
@[simp] theorem noteFailure_dly (c : ErrClass) (s : State) : (noteFailure c s).dly = s.dly := by
  unfold noteFailure; split <;> rfl
@[simp] theorem noteFailure_trace (c : ErrClass) (s : State) : (noteFailure c s).trace = s.trace := by
  unfold noteFailure; split <;> rfl
@[simp] theorem noteFailure_outcomes (c : ErrClass) (s : State) : (noteFailure c s).outcomes = s.outcomes := by
  unfold noteFailure; split <;> rfl
@[simp] theorem noteFailure_shifted (c : ErrClass) (s : State) : (noteFailure c s).shifted = s.shifted := by
  unfold noteFailure; split <;> rfl
@[simp] theorem noteFailure_wave (c : ErrClass) (s : State) : (noteFailure c s).wave = s.wave := by
  unfold noteFailure; split <;> rfl
@[simp] theorem noteFailure_moves (c : ErrClass) (s : State) : (noteFailure c s).moves = s.moves := by
  unfold noteFailure; split <;> rfl
@[simp] theorem noteFailure_pos (c : ErrClass) (s : State) : (noteFailure c s).pos = s.pos := by
  unfold noteFailure; split <;> rfl
@[simp] theorem noteFailure_outstanding (c : ErrClass) (s : State) : (noteFailure c s).outstanding = s.outstanding := by
  unfold noteFailure; split <;> rfl
@[simp] theorem noteFailure_todo (c : ErrClass) (s : State) : (noteFailure c s).todo = s.todo := by
  unfold noteFailure; split <;> rfl
@[simp] theorem noteFailure_inputs (c : ErrClass) (s : State) : (noteFailure c s).inputs = s.inputs := by
  unfold noteFailure; split <;> rfl
@[simp] theorem noteFailure_reads (c : ErrClass) (s : State) : (noteFailure c s).reads = s.reads := by
  unfold noteFailure; split <;> rfl
@[simp] theorem noteFailure_draws (c : ErrClass) (s : State) : (noteFailure c s).draws = s.draws := by
  unfold noteFailure; split <;> rfl

@[simp] theorem movePin_cfg (m : PinMove) (s : State) : (movePin m s).cfg = s.cfg := by cases m <;> rfl
@[simp] theorem movePin_busy (m : PinMove) (s : State) : (movePin m s).busy = s.busy := by cases m <;> rfl
@[simp] theorem movePin_statusDone (m : PinMove) (s : State) : (movePin m s).statusDone = s.statusDone := by cases m <;> rfl
@[simp] theorem movePin_statusErr (m : PinMove) (s : State) : (movePin m s).statusErr = s.statusErr := by cases m <;> rfl
@[simp] theorem movePin_overrun (m : PinMove) (s : State) : (movePin m s).overrun = s.overrun := by cases m <;> rfl
@[simp] theorem movePin_pstate (m : PinMove) (s : State) : (movePin m s).pstate = s.pstate := by cases m <;> rfl
@[simp] theorem movePin_stepIx (m : PinMove) (s : State) : (movePin m s).stepIx = s.stepIx := by cases m <;> rfl
@[simp] theorem movePin_act (m : PinMove) (s : State) : (movePin m s).act = s.act := by cases m <;> rfl
@[simp] theorem movePin_error (m : PinMove) (s : State) : (movePin m s).error = s.error := by cases m <;> rfl
@[simp] theorem movePin_srcDim (m : PinMove) (s : State) : (movePin m s).srcDim = s.srcDim := by cases m <;> rfl
@[simp] theorem movePin_fitOrigin (m : PinMove) (s : State) : (movePin m s).fitOrigin = s.fitOrigin := by cases m <;> rfl
@[simp] theorem movePin_fitSize (m : PinMove) (s : State) : (movePin m s).fitSize = s.fitSize := by cases m <;> rfl
@[simp] theorem movePin_mem (m : PinMove) (s : State) : (movePin m s).mem = s.mem := by cases m <;> rfl
@[simp] theorem movePin_ct (m : PinMove) (s : State) : (movePin m s).ct = s.ct := by cases m <;> rfl
@[simp] theorem movePin_errAcc (m : PinMove) (s : State) : (movePin m s).errAcc = s.errAcc := by cases m <;> rfl
@[simp] theorem movePin_idx (m : PinMove) (s : State) : (movePin m s).idx = s.idx := by cases m <;> rfl
@[simp] theorem movePin_bus (m : PinMove) (s : State) : (movePin m s).bus = s.bus := by cases m <;> rfl
@[simp] theorem movePin_rst (m : PinMove) (s : State) : (movePin m s).rst = s.rst := by cases m <;> rfl
@[simp] theorem movePin_dc (m : PinMove) (s : State) : (movePin m s).dc = s.dc := by cases m <;> rfl
@[simp] theorem movePin_pinRst (m : PinMove) (s : State) : (movePin m s).pinRst = s.pinRst := by cases m <;> rfl
@[simp] theorem movePin_pinDc (m : PinMove) (s : State) : (movePin m s).pinDc = s.pinDc := by cases m <;> rfl
@[simp] theorem movePin_dly (m : PinMove) (s : State) : (movePin m s).dly = s.dly := by cases m <;> rfl
@[simp] theorem movePin_trace (m : PinMove) (s : State) : (movePin m s).trace = s.trace := by cases m <;> rfl
@[simp] theorem movePin_outcomes (m : PinMove) (s : State) : (movePin m s).outcomes = s.outcomes := by cases m <;> rfl
@[simp] theorem movePin_shifted (m : PinMove) (s : State) : (movePin m s).shifted = s.shifted := by cases m <;> rfl
@[simp] theorem movePin_wave (m : PinMove) (s : State) : (movePin m s).wave = s.wave := by cases m <;> rfl
@[simp] theorem movePin_moves (m : PinMove) (s : State) : (movePin m s).moves = s.moves := by cases m <;> rfl
@[simp] theorem movePin_pos (m : PinMove) (s : State) : (movePin m s).pos = s.pos := by cases m <;> rfl
@[simp] theorem movePin_held (m : PinMove) (s : State) : (movePin m s).held = s.held := by cases m <;> rfl
@[simp] theorem movePin_outstanding (m : PinMove) (s : State) : (movePin m s).outstanding = s.outstanding := by cases m <;> rfl
@[simp] theorem movePin_todo (m : PinMove) (s : State) : (movePin m s).todo = s.todo := by cases m <;> rfl
@[simp] theorem movePin_inputs (m : PinMove) (s : State) : (movePin m s).inputs = s.inputs := by cases m <;> rfl
@[simp] theorem movePin_reads (m : PinMove) (s : State) : (movePin m s).reads = s.reads := by cases m <;> rfl
@[simp] theorem movePin_draws (m : PinMove) (s : State) : (movePin m s).draws = s.draws := by cases m <;> rfl

@[simp] theorem clockEdge_cfg (s : State) : (clockEdge s).cfg = s.cfg := by
  unfold clockEdge; split <;> simp
@[simp] theorem clockEdge_busy (s : State) : (clockEdge s).busy = s.busy := by
  unfold clockEdge; split <;> simp
@[simp] theorem clockEdge_statusDone (s : State) : (clockEdge s).statusDone = s.statusDone := by
  unfold clockEdge; split <;> simp
@[simp] theorem clockEdge_statusErr (s : State) : (clockEdge s).statusErr = s.statusErr := by
  unfold clockEdge; split <;> simp
@[simp] theorem clockEdge_overrun (s : State) : (clockEdge s).overrun = s.overrun := by
  unfold clockEdge; split <;> simp
@[simp] theorem clockEdge_pstate (s : State) : (clockEdge s).pstate = s.pstate := by
  unfold clockEdge; split <;> simp
@[simp] theorem clockEdge_stepIx (s : State) : (clockEdge s).stepIx = s.stepIx := by
  unfold clockEdge; split <;> simp
@[simp] theorem clockEdge_act (s : State) : (clockEdge s).act = s.act := by
  unfold clockEdge; split <;> simp
@[simp] theorem clockEdge_error (s : State) : (clockEdge s).error = s.error := by
  unfold clockEdge; split <;> simp
@[simp] theorem clockEdge_srcDim (s : State) : (clockEdge s).srcDim = s.srcDim := by
  unfold clockEdge; split <;> simp
@[simp] theorem clockEdge_fitOrigin (s : State) : (clockEdge s).fitOrigin = s.fitOrigin := by
  unfold clockEdge; split <;> simp
@[simp] theorem clockEdge_fitSize (s : State) : (clockEdge s).fitSize = s.fitSize := by
  unfold clockEdge; split <;> simp
@[simp] theorem clockEdge_mem (s : State) : (clockEdge s).mem = s.mem := by
  unfold clockEdge; split <;> simp
@[simp] theorem clockEdge_ct (s : State) : (clockEdge s).ct = s.ct := by
  unfold clockEdge; split <;> simp
@[simp] theorem clockEdge_errAcc (s : State) : (clockEdge s).errAcc = s.errAcc := by
  unfold clockEdge; split <;> simp
@[simp] theorem clockEdge_idx (s : State) : (clockEdge s).idx = s.idx := by
  unfold clockEdge; split <;> simp
@[simp] theorem clockEdge_bus (s : State) : (clockEdge s).bus = s.bus := by
  unfold clockEdge; split <;> simp
@[simp] theorem clockEdge_rst (s : State) : (clockEdge s).rst = s.rst := by
  unfold clockEdge; split <;> simp
@[simp] theorem clockEdge_dc (s : State) : (clockEdge s).dc = s.dc := by
  unfold clockEdge; split <;> simp
@[simp] theorem clockEdge_pinRst (s : State) : (clockEdge s).pinRst = s.pinRst := by
  unfold clockEdge; split <;> simp
@[simp] theorem clockEdge_pinDc (s : State) : (clockEdge s).pinDc = s.pinDc := by
  unfold clockEdge; split <;> simp
@[simp] theorem clockEdge_dly (s : State) : (clockEdge s).dly = s.dly := by
  unfold clockEdge; split <;> simp
@[simp] theorem clockEdge_trace (s : State) : (clockEdge s).trace = s.trace := by
  unfold clockEdge; split <;> simp
@[simp] theorem clockEdge_outcomes (s : State) : (clockEdge s).outcomes = s.outcomes := by
  unfold clockEdge; split <;> simp
@[simp] theorem clockEdge_shifted (s : State) : (clockEdge s).shifted = s.shifted := by
  unfold clockEdge; split <;> simp
@[simp] theorem clockEdge_pos (s : State) : (clockEdge s).pos = s.pos := by
  unfold clockEdge; split <;> simp
@[simp] theorem clockEdge_held (s : State) : (clockEdge s).held = s.held := by
  unfold clockEdge; split <;> simp
@[simp] theorem clockEdge_outstanding (s : State) : (clockEdge s).outstanding = s.outstanding := by
  unfold clockEdge; split <;> simp
@[simp] theorem clockEdge_todo (s : State) : (clockEdge s).todo = s.todo := by
  unfold clockEdge; split <;> simp
@[simp] theorem clockEdge_inputs (s : State) : (clockEdge s).inputs = s.inputs := by
  unfold clockEdge; split <;> simp
@[simp] theorem clockEdge_reads (s : State) : (clockEdge s).reads = s.reads := by
  unfold clockEdge; split <;> simp
@[simp] theorem clockEdge_draws (s : State) : (clockEdge s).draws = s.draws := by
  unfold clockEdge; split <;> simp

@[simp] theorem startXfer_cfg (bs : List Byte) (s : State) : (startXfer bs s).cfg = s.cfg := rfl
@[simp] theorem startXfer_busy (bs : List Byte) (s : State) : (startXfer bs s).busy = s.busy := rfl
@[simp] theorem startXfer_statusDone (bs : List Byte) (s : State) : (startXfer bs s).statusDone = s.statusDone := rfl
@[simp] theorem startXfer_statusErr (bs : List Byte) (s : State) : (startXfer bs s).statusErr = s.statusErr := rfl
@[simp] theorem startXfer_overrun (bs : List Byte) (s : State) : (startXfer bs s).overrun = s.overrun := rfl
@[simp] theorem startXfer_pstate (bs : List Byte) (s : State) : (startXfer bs s).pstate = s.pstate := rfl
@[simp] theorem startXfer_stepIx (bs : List Byte) (s : State) : (startXfer bs s).stepIx = s.stepIx := rfl
@[simp] theorem startXfer_act (bs : List Byte) (s : State) : (startXfer bs s).act = s.act := rfl
@[simp] theorem startXfer_error (bs : List Byte) (s : State) : (startXfer bs s).error = s.error := rfl
@[simp] theorem startXfer_srcDim (bs : List Byte) (s : State) : (startXfer bs s).srcDim = s.srcDim := rfl
@[simp] theorem startXfer_fitOrigin (bs : List Byte) (s : State) : (startXfer bs s).fitOrigin = s.fitOrigin := rfl
@[simp] theorem startXfer_fitSize (bs : List Byte) (s : State) : (startXfer bs s).fitSize = s.fitSize := rfl
@[simp] theorem startXfer_mem (bs : List Byte) (s : State) : (startXfer bs s).mem = s.mem := rfl
@[simp] theorem startXfer_ct (bs : List Byte) (s : State) : (startXfer bs s).ct = s.ct := rfl
@[simp] theorem startXfer_errAcc (bs : List Byte) (s : State) : (startXfer bs s).errAcc = s.errAcc := rfl
@[simp] theorem startXfer_idx (bs : List Byte) (s : State) : (startXfer bs s).idx = s.idx := rfl
@[simp] theorem startXfer_bus (bs : List Byte) (s : State) : (startXfer bs s).bus = s.bus := rfl
@[simp] theorem startXfer_rst (bs : List Byte) (s : State) : (startXfer bs s).rst = s.rst := rfl
@[simp] theorem startXfer_dc (bs : List Byte) (s : State) : (startXfer bs s).dc = s.dc := rfl
@[simp] theorem startXfer_pinSclk (bs : List Byte) (s : State) : (startXfer bs s).pinSclk = s.pinSclk := rfl
@[simp] theorem startXfer_pinMosi (bs : List Byte) (s : State) : (startXfer bs s).pinMosi = s.pinMosi := rfl
@[simp] theorem startXfer_pinCsN (bs : List Byte) (s : State) : (startXfer bs s).pinCsN = s.pinCsN := rfl
@[simp] theorem startXfer_pinRst (bs : List Byte) (s : State) : (startXfer bs s).pinRst = s.pinRst := rfl
@[simp] theorem startXfer_pinDc (bs : List Byte) (s : State) : (startXfer bs s).pinDc = s.pinDc := rfl
@[simp] theorem startXfer_dly (bs : List Byte) (s : State) : (startXfer bs s).dly = s.dly := rfl
@[simp] theorem startXfer_trace (bs : List Byte) (s : State) : (startXfer bs s).trace = s.trace ++ [.xfer s.dc.level bs] := rfl
@[simp] theorem startXfer_outcomes (bs : List Byte) (s : State) : (startXfer bs s).outcomes = s.outcomes := rfl
@[simp] theorem startXfer_shifted (bs : List Byte) (s : State) : (startXfer bs s).shifted = s.shifted := rfl
@[simp] theorem startXfer_wave (bs : List Byte) (s : State) : (startXfer bs s).wave = s.wave := rfl
@[simp] theorem startXfer_moves (bs : List Byte) (s : State) : (startXfer bs s).moves = transferMoves s.cfg.spiMode s.cfg.csPulsed bs := rfl
@[simp] theorem startXfer_pos (bs : List Byte) (s : State) : (startXfer bs s).pos = s.pos := rfl
@[simp] theorem startXfer_held (bs : List Byte) (s : State) : (startXfer bs s).held = s.held := rfl
@[simp] theorem startXfer_outstanding (bs : List Byte) (s : State) : (startXfer bs s).outstanding = some (.xfer s.dc.level bs) := rfl
@[simp] theorem startXfer_todo (bs : List Byte) (s : State) : (startXfer bs s).todo = s.todo := rfl
@[simp] theorem startXfer_inputs (bs : List Byte) (s : State) : (startXfer bs s).inputs = s.inputs := rfl
@[simp] theorem startXfer_reads (bs : List Byte) (s : State) : (startXfer bs s).reads = s.reads := rfl
@[simp] theorem startXfer_draws (bs : List Byte) (s : State) : (startXfer bs s).draws = s.draws := rfl

@[simp] theorem finishXfer_cfg (dc : Bool) (bs : List Byte) (s : State) : (finishXfer dc bs s).cfg = s.cfg := rfl
@[simp] theorem finishXfer_busy (dc : Bool) (bs : List Byte) (s : State) : (finishXfer dc bs s).busy = s.busy := rfl
@[simp] theorem finishXfer_statusDone (dc : Bool) (bs : List Byte) (s : State) : (finishXfer dc bs s).statusDone = s.statusDone := rfl
@[simp] theorem finishXfer_statusErr (dc : Bool) (bs : List Byte) (s : State) : (finishXfer dc bs s).statusErr = s.statusErr := rfl
@[simp] theorem finishXfer_overrun (dc : Bool) (bs : List Byte) (s : State) : (finishXfer dc bs s).overrun = s.overrun := rfl
@[simp] theorem finishXfer_pstate (dc : Bool) (bs : List Byte) (s : State) : (finishXfer dc bs s).pstate = s.pstate := rfl
@[simp] theorem finishXfer_stepIx (dc : Bool) (bs : List Byte) (s : State) : (finishXfer dc bs s).stepIx = s.stepIx := rfl
@[simp] theorem finishXfer_act (dc : Bool) (bs : List Byte) (s : State) : (finishXfer dc bs s).act = s.act := rfl
@[simp] theorem finishXfer_error (dc : Bool) (bs : List Byte) (s : State) : (finishXfer dc bs s).error = s.error := rfl
@[simp] theorem finishXfer_srcDim (dc : Bool) (bs : List Byte) (s : State) : (finishXfer dc bs s).srcDim = s.srcDim := rfl
@[simp] theorem finishXfer_fitOrigin (dc : Bool) (bs : List Byte) (s : State) : (finishXfer dc bs s).fitOrigin = s.fitOrigin := rfl
@[simp] theorem finishXfer_fitSize (dc : Bool) (bs : List Byte) (s : State) : (finishXfer dc bs s).fitSize = s.fitSize := rfl
@[simp] theorem finishXfer_mem (dc : Bool) (bs : List Byte) (s : State) : (finishXfer dc bs s).mem = s.mem := rfl
@[simp] theorem finishXfer_ct (dc : Bool) (bs : List Byte) (s : State) : (finishXfer dc bs s).ct = s.ct := rfl
@[simp] theorem finishXfer_errAcc (dc : Bool) (bs : List Byte) (s : State) : (finishXfer dc bs s).errAcc = s.errAcc := rfl
@[simp] theorem finishXfer_idx (dc : Bool) (bs : List Byte) (s : State) : (finishXfer dc bs s).idx = s.idx := rfl
@[simp] theorem finishXfer_bus (dc : Bool) (bs : List Byte) (s : State) : (finishXfer dc bs s).bus = s.bus := rfl
@[simp] theorem finishXfer_rst (dc : Bool) (bs : List Byte) (s : State) : (finishXfer dc bs s).rst = s.rst := rfl
@[simp] theorem finishXfer_dc (dc : Bool) (bs : List Byte) (s : State) : (finishXfer dc bs s).dc = s.dc := rfl
@[simp] theorem finishXfer_pinSclk (dc : Bool) (bs : List Byte) (s : State) : (finishXfer dc bs s).pinSclk = .driven (cpol s.cfg.spiMode) := rfl
@[simp] theorem finishXfer_pinMosi (dc : Bool) (bs : List Byte) (s : State) : (finishXfer dc bs s).pinMosi = .driven (Config.drawBit s.draws) := rfl
@[simp] theorem finishXfer_pinCsN (dc : Bool) (bs : List Byte) (s : State) : (finishXfer dc bs s).pinCsN = .driven true := rfl
@[simp] theorem finishXfer_pinRst (dc : Bool) (bs : List Byte) (s : State) : (finishXfer dc bs s).pinRst = s.pinRst := rfl
@[simp] theorem finishXfer_pinDc (dc : Bool) (bs : List Byte) (s : State) : (finishXfer dc bs s).pinDc = s.pinDc := rfl
@[simp] theorem finishXfer_dly (dc : Bool) (bs : List Byte) (s : State) : (finishXfer dc bs s).dly = s.dly := rfl
@[simp] theorem finishXfer_trace (dc : Bool) (bs : List Byte) (s : State) : (finishXfer dc bs s).trace = s.trace := rfl
@[simp] theorem finishXfer_outcomes (dc : Bool) (bs : List Byte) (s : State) : (finishXfer dc bs s).outcomes = s.outcomes := rfl
@[simp] theorem finishXfer_shifted (dc : Bool) (bs : List Byte) (s : State) : (finishXfer dc bs s).shifted = s.shifted ++ bs.map (fun b => ⟨dc, b⟩) := rfl
@[simp] theorem finishXfer_wave (dc : Bool) (bs : List Byte) (s : State) : (finishXfer dc bs s).wave = s.wave ++ s.moves := rfl
@[simp] theorem finishXfer_moves (dc : Bool) (bs : List Byte) (s : State) : (finishXfer dc bs s).moves = [] := rfl
@[simp] theorem finishXfer_pos (dc : Bool) (bs : List Byte) (s : State) : (finishXfer dc bs s).pos = s.pos := rfl
@[simp] theorem finishXfer_held (dc : Bool) (bs : List Byte) (s : State) : (finishXfer dc bs s).held = s.held := rfl
@[simp] theorem finishXfer_outstanding (dc : Bool) (bs : List Byte) (s : State) : (finishXfer dc bs s).outstanding = s.outstanding := rfl
@[simp] theorem finishXfer_todo (dc : Bool) (bs : List Byte) (s : State) : (finishXfer dc bs s).todo = s.todo := rfl
@[simp] theorem finishXfer_inputs (dc : Bool) (bs : List Byte) (s : State) : (finishXfer dc bs s).inputs = s.inputs := rfl
@[simp] theorem finishXfer_reads (dc : Bool) (bs : List Byte) (s : State) : (finishXfer dc bs s).reads = s.reads := rfl
@[simp] theorem finishXfer_draws (dc : Bool) (bs : List Byte) (s : State) : (finishXfer dc bs s).draws = s.draws + 1 := rfl

@[simp] theorem failXfer_cfg (dc : Bool) (bs : List Byte) (s : State) : (failXfer dc bs s).cfg = s.cfg := rfl
@[simp] theorem failXfer_busy (dc : Bool) (bs : List Byte) (s : State) : (failXfer dc bs s).busy = s.busy := rfl
@[simp] theorem failXfer_statusDone (dc : Bool) (bs : List Byte) (s : State) : (failXfer dc bs s).statusDone = s.statusDone := rfl
@[simp] theorem failXfer_statusErr (dc : Bool) (bs : List Byte) (s : State) : (failXfer dc bs s).statusErr = s.statusErr := rfl
@[simp] theorem failXfer_overrun (dc : Bool) (bs : List Byte) (s : State) : (failXfer dc bs s).overrun = s.overrun := rfl
@[simp] theorem failXfer_pstate (dc : Bool) (bs : List Byte) (s : State) : (failXfer dc bs s).pstate = s.pstate := rfl
@[simp] theorem failXfer_stepIx (dc : Bool) (bs : List Byte) (s : State) : (failXfer dc bs s).stepIx = s.stepIx := rfl
@[simp] theorem failXfer_act (dc : Bool) (bs : List Byte) (s : State) : (failXfer dc bs s).act = s.act := rfl
@[simp] theorem failXfer_error (dc : Bool) (bs : List Byte) (s : State) : (failXfer dc bs s).error = s.error := rfl
@[simp] theorem failXfer_srcDim (dc : Bool) (bs : List Byte) (s : State) : (failXfer dc bs s).srcDim = s.srcDim := rfl
@[simp] theorem failXfer_fitOrigin (dc : Bool) (bs : List Byte) (s : State) : (failXfer dc bs s).fitOrigin = s.fitOrigin := rfl
@[simp] theorem failXfer_fitSize (dc : Bool) (bs : List Byte) (s : State) : (failXfer dc bs s).fitSize = s.fitSize := rfl
@[simp] theorem failXfer_mem (dc : Bool) (bs : List Byte) (s : State) : (failXfer dc bs s).mem = s.mem := rfl
@[simp] theorem failXfer_ct (dc : Bool) (bs : List Byte) (s : State) : (failXfer dc bs s).ct = s.ct := rfl
@[simp] theorem failXfer_errAcc (dc : Bool) (bs : List Byte) (s : State) : (failXfer dc bs s).errAcc = s.errAcc := rfl
@[simp] theorem failXfer_idx (dc : Bool) (bs : List Byte) (s : State) : (failXfer dc bs s).idx = s.idx := rfl
@[simp] theorem failXfer_bus (dc : Bool) (bs : List Byte) (s : State) : (failXfer dc bs s).bus = s.bus := rfl
@[simp] theorem failXfer_rst (dc : Bool) (bs : List Byte) (s : State) : (failXfer dc bs s).rst = s.rst := rfl
@[simp] theorem failXfer_dc (dc : Bool) (bs : List Byte) (s : State) : (failXfer dc bs s).dc = s.dc := rfl
@[simp] theorem failXfer_pinSclk (dc : Bool) (bs : List Byte) (s : State) : (failXfer dc bs s).pinSclk = .driven (cpol s.cfg.spiMode) := rfl
@[simp] theorem failXfer_pinMosi (dc : Bool) (bs : List Byte) (s : State) : (failXfer dc bs s).pinMosi = .driven (Config.drawBit (s.draws + 1)) := rfl
@[simp] theorem failXfer_pinCsN (dc : Bool) (bs : List Byte) (s : State) : (failXfer dc bs s).pinCsN = .driven true := rfl
@[simp] theorem failXfer_pinRst (dc : Bool) (bs : List Byte) (s : State) : (failXfer dc bs s).pinRst = s.pinRst := rfl
@[simp] theorem failXfer_pinDc (dc : Bool) (bs : List Byte) (s : State) : (failXfer dc bs s).pinDc = s.pinDc := rfl
@[simp] theorem failXfer_dly (dc : Bool) (bs : List Byte) (s : State) : (failXfer dc bs s).dly = s.dly := rfl
@[simp] theorem failXfer_trace (dc : Bool) (bs : List Byte) (s : State) : (failXfer dc bs s).trace = s.trace := rfl
@[simp] theorem failXfer_outcomes (dc : Bool) (bs : List Byte) (s : State) : (failXfer dc bs s).outcomes = s.outcomes := rfl
@[simp] theorem failXfer_moves (dc : Bool) (bs : List Byte) (s : State) : (failXfer dc bs s).moves = [] := rfl
@[simp] theorem failXfer_pos (dc : Bool) (bs : List Byte) (s : State) : (failXfer dc bs s).pos = s.pos := rfl
@[simp] theorem failXfer_held (dc : Bool) (bs : List Byte) (s : State) : (failXfer dc bs s).held = s.held := rfl
@[simp] theorem failXfer_outstanding (dc : Bool) (bs : List Byte) (s : State) : (failXfer dc bs s).outstanding = s.outstanding := rfl
@[simp] theorem failXfer_todo (dc : Bool) (bs : List Byte) (s : State) : (failXfer dc bs s).todo = s.todo := rfl
@[simp] theorem failXfer_inputs (dc : Bool) (bs : List Byte) (s : State) : (failXfer dc bs s).inputs = s.inputs := rfl
@[simp] theorem failXfer_reads (dc : Bool) (bs : List Byte) (s : State) : (failXfer dc bs s).reads = s.reads := rfl
@[simp] theorem failXfer_draws (dc : Bool) (bs : List Byte) (s : State) : (failXfer dc bs s).draws = s.draws + 2 := rfl

/-- What a change of level on a bus pin does: that pin is driven to it. -/
@[simp] theorem movePin_csN (l : Bool) (s : State) : movePin (.csN l) s = { s with pinCsN := .driven l } := rfl
@[simp] theorem movePin_sclk (l : Bool) (s : State) : movePin (.sclk l) s = { s with pinSclk := .driven l } := rfl
@[simp] theorem movePin_mosi (l : Bool) (s : State) : movePin (.mosi l) s = { s with pinMosi := .driven l } := rfl

/-- All a change of level can do: nothing, when the bus is closed or no change is left to make; otherwise the next change is made
and recorded (spec/44_serial_bus.md R205, R210). -/
theorem clockEdge_cases (s : State) :
    ((s.bus = none ∨ s.moves = []) ∧ clockEdge s = s)
      ∨ ∃ b m rest, s.bus = some b ∧ s.moves = m :: rest
          ∧ clockEdge s = { movePin m s with moves := rest, wave := s.wave ++ [m] } := by
  unfold clockEdge
  split
  · rename_i b m rest hb hm
    exact .inr ⟨b, m, rest, hb, hm, rfl⟩
  · rename_i h
    refine .inl ⟨?_, rfl⟩
    cases hb : s.bus with
    | none => exact .inl rfl
    | some b =>
      cases hm : s.moves with
      | nil => exact .inr rfl
      | cons m rest => exact absurd hm (h b m rest hb)

/-- A closed bus does not clock. -/
theorem clockEdge_closed {s : State} (h : s.bus = none) : clockEdge s = s := by simp [clockEdge, h]

/-- With no change left to make nothing happens. -/
theorem clockEdge_idle {s : State} (h : s.moves = []) : clockEdge s = s := by
  unfold clockEdge; rw [h]; split <;> simp_all

/-- What `clockEdge` does to the wave: it extends it. -/
theorem clockEdge_wave (s : State) : ∃ ms, (clockEdge s).wave = s.wave ++ ms := by
  obtain ⟨-, h⟩ | ⟨b, m, rest, -, -, h⟩ := clockEdge_cases s
  · exact ⟨[], by rw [h]; simp⟩
  · exact ⟨[m], by rw [h]⟩

@[simp] theorem lineOf_setLine_self (l : Line) (v : LineState) (p : Pin) (s : State) : lineOf (setLine l v p s) l = v := by
  cases l <;> rfl

@[simp] theorem pinOf_setLine_self (l : Line) (v : LineState) (p : Pin) (s : State) : pinOf (setLine l v p s) l = p := by
  cases l <;> rfl

theorem lineOf_setLine_ne {l m : Line} (h : m ≠ l) (v : LineState) (p : Pin) (s : State) :
    lineOf (setLine l v p s) m = lineOf s m := by
  cases l <;> cases m <;> first | rfl | exact absurd rfl h

theorem pinOf_setLine_ne {l m : Line} (h : m ≠ l) (v : LineState) (p : Pin) (s : State) :
    pinOf (setLine l v p s) m = pinOf s m := by
  cases l <;> cases m <;> first | rfl | exact absurd rfl h

/-- A claimed line is driven. -/
theorem driveLine_claimed {l : Line} {s : State} (h : (lineOf s l).claimed = true) (v : Bool) (p : Pin) :
    driveLine l v p s = setLine l ⟨true, v⟩ p s := by
  simp [driveLine, h]

/-- The first failure stays (spec/60_exceptions.md R304). -/
theorem noteFailure_held_none {s : State} (h : s.held = none) (c : ErrClass) :
    (noteFailure c s).held = some ⟨c, s.pos⟩ := by
  simp [noteFailure, h]

theorem noteFailure_held_some {s : State} {f : Failure} (h : s.held = some f) (c : ErrClass) :
    (noteFailure c s).held = some f := by
  simp [noteFailure, h]

/-- Block reset of a state is the reset of its block, with the model's own fields as they stand. -/
theorem blockReset_eq (s : State) :
    blockReset s = { State.resetOf s.cfg with inputs := s.inputs, reads := s.reads, draws := s.draws } := rfl

end Sys2Proof.Machine
end

