-- ==== Sys2Proof/Laws/Engine.lean ====
section
/-! SUPPORT. The engine: how a sequence runs, what one action can do, what a whole sequence keeps, and what each
micro-operation comes to when the environment answers it. Proofs about sequences cite these and unfold nothing. -/

namespace Sys2Proof.Machine

variable {k : State → StepOutcome} {op : Op} {rest : List Op} {s t u : State} {f : Failure}

/-! ### Running a sequence -/

theorem runOps_nil : runOps k [] s = .next s := rfl

theorem runOps_done (h : perform op s = .done t) : runOps k (op :: rest) s = runOps k rest t := by
  rw [runOps, h]

theorem runOps_wait (h : perform op s = .wait t) :
    runOps k (op :: rest) s = .next { t with todo := op :: rest ++ t.todo } := by
  rw [runOps, h]

theorem runOps_raise (h : perform op s = .raise f t) : runOps k (op :: rest) s = k (raiseError f t) := by
  rw [runOps, h]

theorem runOps_ended (h : perform op s = .ended t) : runOps k (op :: rest) s = .next t := by
  rw [runOps, h]

theorem runOps_fault {e : Fault} (h : perform op s = .fault e) : runOps k (op :: rest) s = .fault e := by
  rw [runOps, h]

/-- An invariant of sequences: `Q` of what remains and the state, kept by every action, gives `R` of every next state the
sequence can end in. -/
theorem runOps_keeps {Q : List Op → State → Prop} {R : State → Prop}
    (hnil : ∀ s, Q [] s → R s)
    (hdone : ∀ op rest s t, Q (op :: rest) s → perform op s = .done t → Q rest t)
    (hwait : ∀ op rest s t, Q (op :: rest) s → perform op s = .wait t → R { t with todo := op :: rest ++ t.todo })
    (hended : ∀ op rest s t, Q (op :: rest) s → perform op s = .ended t → R t)
    (hraise : ∀ op rest s t f u, Q (op :: rest) s → perform op s = .raise f t → k (raiseError f t) = .next u → R u)
    (ops : List Op) (s : State) (hq : Q ops s) (u : State) (h : runOps k ops s = .next u) : R u := by
  induction ops generalizing s with
  | nil =>
    rw [runOps_nil] at h
    cases h
    exact hnil _ hq
  | cons op rest ih =>
    cases hp : perform op s with
    | done t => exact ih t (hdone op rest s t hq hp) (by rwa [runOps_done hp] at h)
    | wait t =>
      rw [runOps_wait hp] at h
      cases h
      exact hwait op rest s _ hq hp
    | raise f t => exact hraise op rest s t f u hq hp (by rwa [runOps_raise hp] at h)
    | ended t =>
      rw [runOps_ended hp] at h
      cases h
      exact hended op rest s _ hq hp
    | fault e => rw [runOps_fault hp] at h; cases h

/-! ### Single actions -/

theorem perform_gate {ins : List Input} (h : s.inputs = .work :: ins) :
    perform .gate s = .done { s with inputs := ins } := by
  simp [perform, perfGate, h]

theorem perform_await_none (h : s.outstanding = none) : perform .await s = .done s := by
  simp [perform, perfAwait, h]

theorem perform_await_answer {e : WireEvent} {a : Answer} {ins : List Input} (ho : s.outstanding = some e)
    (hi : s.inputs = .answer a :: ins) (ha : admits e a = true) :
    perform .await s = .done (settleEvent e a { s with inputs := ins }) := by
  simp [perform, perfAwait, ho, hi, ha]

theorem perform_check_none (h : s.held = none) : perform .check s = .done s := by
  simp [perform, perfCheck, h]

theorem perform_check_some (h : s.held = some f) : perform .check s = .raise f s := by
  simp [perform, perfCheck, h]

/-- A count of `d` takes exactly `d` TICKs (spec/70_reset_and_hazards.md R345). -/
theorem countDown_replicate (d : BitVec 16) (ins : List Input) :
    countDown (List.replicate d.toNat .tick ++ ins) d = (ins, 0) := by
  generalize hn : d.toNat = n
  induction n generalizing d with
  | zero =>
    have hd : d = 0 := by
      apply BitVec.eq_of_toNat_eq
      simpa using hn
    subst hd
    cases ins with
    | nil => rfl
    | cons x xs => cases x <;> simp [countDown]
  | succ n ih =>
    have hd : d ≠ 0 := by
      rintro rfl
      simp at hn
    have h1 : (d - 1).toNat = n := by
      rw [BitVec.toNat_sub_of_le]
      · simp [hn]
      · rw [BitVec.le_def]
        simp [hn]
    rw [List.replicate_succ, List.cons_append, countDown, if_neg hd, ih _ h1]

/-- Fewer TICKs than the count leave the rest of it. -/
theorem countDown_short (n : Nat) (d : BitVec 16) (h : n ≤ d.toNat) :
    countDown (List.replicate n .tick) d = ([], d - BitVec.ofNat 16 n) := by
  induction n generalizing d with
  | zero => simp [countDown]
  | succ n ih =>
    have hd : d ≠ 0 := by
      rintro rfl
      simp at h
    have h1 : (d - 1).toNat = d.toNat - 1 := by
      rw [BitVec.toNat_sub_of_le]
      · simp
      · rw [BitVec.le_def]
        simp
        omega
    rw [List.replicate_succ, countDown, if_neg hd, ih _ (by omega)]
    congr 1
    apply BitVec.eq_of_toNat_eq
    have h2 : n + 1 < 2 ^ 16 := by have := d.isLt; omega
    have h3 : (BitVec.ofNat 16 n).toNat = n := by simp; omega
    have h4 : (BitVec.ofNat 16 (n + 1)).toNat = n + 1 := by simp; omega
    rw [BitVec.toNat_sub_of_le (x := d - 1) (by rw [BitVec.le_def, h1, h3]; omega),
      BitVec.toNat_sub_of_le (x := d) (y := BitVec.ofNat 16 (n + 1)) (by rw [BitVec.le_def, h4]; omega), h1, h3, h4]
    omega

theorem perform_timer {ins : List Input} (h : s.inputs = List.replicate s.dly.toNat .tick ++ ins) :
    perform .timer s = .done { s with inputs := ins, dly := 0 } := by
  simp [perform, perfTimer, h, countDown_replicate]

/-- A delay whose TICKs have all passed. -/
theorem runOps_waitFor {ms : BitVec 16} {ins : List Input} (h : s.inputs = List.replicate ms.toNat .tick ++ ins) :
    runOps k (waitFor ms ++ rest) s
      = runOps k rest { s with trace := s.trace ++ [.delay ms], dly := 0, inputs := ins } := by
  have h1 : perform (.request (.delay ms)) s = .done (startDelay ms s) := rfl
  have h2 : perform .timer (startDelay ms s) = .done { startDelay ms s with inputs := ins, dly := 0 } :=
    perform_timer (by simpa using h)
  rw [waitFor, List.cons_append, runOps_done h1, List.cons_append, runOps_done h2]
  rfl

/-! ### What an action keeps -/

/-- What no action but the end of an operation writes: the build parameters, BUSY, DONE, ERR, OVERRUN, ERROR, SRC_DIM, what
the host has read and what remains to be done. -/
structure Steady (s t : State) : Prop where
  cfg : t.cfg = s.cfg
  busy : t.busy = s.busy
  statusDone : t.statusDone = s.statusDone
  statusErr : t.statusErr = s.statusErr
  overrun : t.overrun = s.overrun
  error : t.error = s.error
  srcDim : t.srcDim = s.srcDim
  reads : t.reads = s.reads
  todo : t.todo = s.todo

theorem Steady.refl (s : State) : Steady s s := ⟨rfl, rfl, rfl, rfl, rfl, rfl, rfl, rfl, rfl⟩

theorem Steady.trans {a b c : State} (h : Steady a b) (g : Steady b c) : Steady a c :=
  ⟨g.cfg.trans h.cfg, g.busy.trans h.busy, g.statusDone.trans h.statusDone, g.statusErr.trans h.statusErr,
   g.overrun.trans h.overrun, g.error.trans h.error, g.srcDim.trans h.srcDim, g.reads.trans h.reads, g.todo.trans h.todo⟩

theorem steady_setLine (l : Line) (v : LineState) (p : Pin) (s : State) : Steady s (setLine l v p s) := by
  constructor <;> simp

theorem steady_driveLine (l : Line) (v : Bool) (p : Pin) (s : State) : Steady s (driveLine l v p s) := by
  constructor <;> simp

theorem steady_effectOk (e : WireEvent) (s : State) : Steady s (effectOk e s) := by
  cases e <;> simp only [effectOk] <;> constructor <;> simp

theorem steady_effectFail (e : WireEvent) (s : State) : Steady s (effectFail e s) := by
  cases e <;> simp only [effectFail] <;> constructor <;> simp

theorem steady_noteFailure (c : ErrClass) (s : State) : Steady s (noteFailure c s) := by
  constructor <;> simp

theorem steady_settleEvent (e : WireEvent) (a : Answer) (s : State) : Steady s (settleEvent e a s) := by
  have h0 : Steady s { s with outstanding := none, outcomes := s.outcomes ++ [a] } := ⟨rfl, rfl, rfl, rfl, rfl, rfl, rfl, rfl, rfl⟩
  cases a with
  | ok => exact h0.trans (steady_effectOk e _)
  | fail c => exact h0.trans ((steady_effectFail e _).trans (steady_noteFailure c _))

/-- The trace only grows (spec/20_memory.md R79). -/
theorem trace_settleEvent (e : WireEvent) (a : Answer) (s : State) : (settleEvent e a s).trace = s.trace := by
  cases a with
  | ok => cases e <;> simp [settleEvent, effectOk]
  | fail c => cases e <;> simp [settleEvent, effectFail]

/-- Every action that goes on, waits or raises keeps what `Steady` lists. -/
theorem perform_steady (h : perform op s = .done t ∨ perform op s = .wait t ∨ ∃ f, perform op s = .raise f t) :
    Steady s t := by
  have key : ∀ r : OpResult, perform op s = r →
      (r = .done t ∨ r = .wait t ∨ ∃ f, r = .raise f t) → Steady s t := by
    intro r hr hcase
    cases op with
    | setAct a => simp [perform] at hr; subst hr; simp at hcase; subst hcase; constructor <;> rfl
    | setPState p => simp [perform] at hr; subst hr; simp at hcase; subst hcase; constructor <;> rfl
    | setStep n => simp [perform] at hr; subst hr; simp at hcase; subst hcase; constructor <;> rfl
    | setPos p => simp [perform] at hr; subst hr; simp at hcase; subst hcase; constructor <;> rfl
    | gate =>
      simp only [perform, perfGate] at hr
      split at hr <;> subst hr <;> simp at hcase <;> subst hcase <;> constructor <;> rfl
    | request q =>
      simp only [perform, perfRequest] at hr
      cases q with
      | lineSet l v => simp only at hr; split at hr <;> subst hr <;> simp at hcase; subst hcase; constructor <;> rfl
      | xfer p => simp only at hr; split at hr <;> subst hr <;> simp at hcase; subst hcase; constructor <;> rfl
      | lineRelease l => simp only at hr; subst hr; simp at hcase; subst hcase; constructor <;> simp
      | busOpen => simp only at hr; subst hr; simp at hcase; subst hcase; constructor <;> rfl
      | busClose => simp only at hr; subst hr; simp at hcase; subst hcase; constructor <;> rfl
      | lineClaim l => simp only at hr; subst hr; simp at hcase; subst hcase; constructor <;> rfl
      | delay ms => simp only at hr; subst hr; simp at hcase; subst hcase; constructor <;> rfl
    | await =>
      simp only [perform, perfAwait] at hr
      split at hr
      · subst hr; simp at hcase; subst hcase; exact Steady.refl _
      · rename_i e a ins ho hi
        split at hr
        · subst hr
          simp at hcase
          subst hcase
          have h0 : Steady s { s with inputs := ins } := ⟨rfl, rfl, rfl, rfl, rfl, rfl, rfl, rfl, rfl⟩
          exact h0.trans (steady_settleEvent _ _ _)
        · subst hr; simp at hcase; subst hcase; exact Steady.refl _
      · subst hr; simp at hcase; subst hcase; exact Steady.refl _
    | check =>
      simp only [perform, perfCheck] at hr
      split at hr <;> subst hr <;> simp at hcase <;> subst hcase <;> exact Steady.refl _
    | timer =>
      simp only [perform, perfTimer] at hr
      split at hr <;> subst hr <;> simp at hcase <;> subst hcase <;> constructor <;> rfl
    | dimensionCheck =>
      simp only [perform, perfDimensionCheck] at hr
      split at hr <;> subst hr <;> simp at hcase <;> subst hcase <;> exact Steady.refl _
    | fit => simp only [perform, perfFit] at hr; subst hr; simp at hcase; subst hcase; constructor <;> rfl
    | background => simp only [perform, perfBackground] at hr; subst hr; simp at hcase; subst hcase; constructor <;> rfl
    | resample =>
      simp only [perform, perfResample] at hr
      split at hr <;> subst hr <;> simp at hcase
      subst hcase
      constructor <;> rfl
    | dither => simp only [perform, perfDither] at hr; subst hr; simp at hcase; subst hcase; constructor <;> rfl
    | pack => simp only [perform, perfPack] at hr; subst hr; simp at hcase; subst hcase; constructor <;> rfl
    | finish b => simp only [perform] at hr; subst hr; simp at hcase
  exact key _ rfl h

/-- Only the end of an operation ends it. -/
theorem perform_ended (h : perform op s = .ended t) : ∃ b, op = .finish b ∧ t = finishOperation b s := by
  cases op with
  | finish b => exact ⟨b, rfl, by simpa [perform] using h.symm⟩
  | request q =>
    cases q <;> simp only [perform, perfRequest] at h
    case lineSet l v => split at h <;> cases h
    case xfer p => split at h <;> cases h
    all_goals cases h
  | gate => simp only [perform, perfGate] at h; split at h <;> cases h
  | await =>
    simp only [perform, perfAwait] at h
    split at h
    · cases h
    · split at h <;> cases h
    · cases h
  | check => simp only [perform, perfCheck] at h; split at h <;> cases h
  | timer => simp only [perform, perfTimer] at h; split at h <;> cases h
  | dimensionCheck => simp only [perform, perfDimensionCheck] at h; split at h <;> cases h
  | resample => simp only [perform, perfResample] at h; split at h <;> cases h
  | setAct _ | setPState _ | setStep _ | setPos _ => cases h
  | fit | background | dither | pack => cases h

/-! ### Micro-operations whose outcome is ok -/

/-- The state after an outcome ok has been recorded for an event that was emitted. -/
def answered (e : WireEvent) (ins : List Input) (s : State) : State :=
  { s with trace := s.trace ++ [e], outcomes := s.outcomes ++ [.ok], outstanding := none, inputs := ins }

theorem admits_ok (e : WireEvent) : admits e .ok = true := rfl

/-- A fallible event that is issued, answered ok and checked. -/
theorem runOps_issue_ok {r : Request} {e : WireEvent} {ins : List Input}
    (hr : perfRequest r s = .done (issueEvent e s)) (hi : s.inputs = .answer .ok :: ins) (hh : s.held = none)
    (he : (effectOk e (answered e ins s)).held = (answered e ins s).held) :
    runOps k (.request r :: .await :: .check :: rest) s = runOps k rest (effectOk e (answered e ins s)) := by
  have h1 : perform (.request r) s = .done (issueEvent e s) := hr
  have h2 : perform .await (issueEvent e s) = .done (settleEvent e .ok { issueEvent e s with inputs := ins }) :=
    perform_await_answer rfl (by simpa using hi) (admits_ok e)
  have h3 : settleEvent e .ok { issueEvent e s with inputs := ins } = effectOk e (answered e ins s) := rfl
  rw [h3] at h2
  rw [runOps_done h1, runOps_done h2, runOps_done (perform_check_none (by rw [he]; exact hh))]

/-- LineSet on a claimed line, outcome ok (spec/43_digital_line.md R186). -/
theorem runOps_lineSet_ok {l : Line} {v : Bool} {ins : List Input} (hc : (lineOf s l).claimed = true)
    (hi : s.inputs = .answer .ok :: ins) (hh : s.held = none) :
    runOps k (.request (.lineSet l v) :: .await :: .check :: rest) s
      = runOps k rest (setLine l ⟨true, v⟩ (.driven v) (answered (.lineSet l v) ins s)) := by
  have hd : effectOk (.lineSet l v) (answered (.lineSet l v) ins s)
      = setLine l ⟨true, v⟩ (.driven v) (answered (.lineSet l v) ins s) :=
    driveLine_claimed (by cases l <;> exact hc) v _
  rw [runOps_issue_ok (e := .lineSet l v) (by simp [perfRequest, hc]) hi hh (by rw [hd]; simp), hd]

/-- LineClaim, outcome ok (R185). -/
theorem runOps_lineClaim_ok {l : Line} {ins : List Input} (hi : s.inputs = .answer .ok :: ins) (hh : s.held = none) :
    runOps k (.request (.lineClaim l) :: .await :: .check :: rest) s
      = runOps k rest (setLine l ⟨true, false⟩ (.driven false) (answered (.lineClaim l lineFlags) ins s)) :=
  runOps_issue_ok (e := .lineClaim l lineFlags) rfl hi hh (by simp [effectOk])

/-- BusOpen, outcome ok (spec/44_serial_bus.md R200). -/
theorem runOps_busOpen_ok {ins : List Input} (hi : s.inputs = .answer .ok :: ins) (hh : s.held = none) :
    runOps k (.request .busOpen :: .await :: .check :: rest) s
      = runOps k rest (busPinsIdle { answered (.busOpen s.cfg.spiMode s.cfg.spiClockHz) ins s with
          bus := some ⟨s.cfg.spiMode, s.cfg.spiClockHz⟩ }) :=
  runOps_issue_ok (e := .busOpen s.cfg.spiMode s.cfg.spiClockHz) rfl hi hh rfl

/-- The state after a transfer that was answered ok. -/
def afterXfer (bytes : List Byte) (ins : List Input) (s : State) : State :=
  { answered (.xfer s.dc.level bytes) ins s with
    shifted := s.shifted ++ bytes.map (fun b => ⟨s.dc.level, b⟩)
    wave := s.wave ++ transferMoves s.cfg.spiMode s.cfg.csPulsed bytes, moves := []
    pinSclk := .driven (cpol s.cfg.spiMode), pinCsN := .driven true, pinMosi := .driven (Config.drawBit (s.draws + 1))
    draws := s.draws + 2 }

/-- Xfer on an open bus, outcome ok, the failure check left to the caller (R202). -/
theorem runOps_xfer_ok {p : Payload} {ins : List Input} (hb : s.bus.isSome = true) (hi : s.inputs = .answer .ok :: ins) :
    runOps k (.request (.xfer p) :: .await :: rest) s = runOps k rest (afterXfer (payloadBytes s p) ins s) := by
  have h1 : perform (.request (.xfer p)) s = .done (startXfer (payloadBytes s p) { s with draws := s.draws + 1 }) := by
    simp [perform, perfRequest, hb]
  rw [runOps_done h1, runOps_done (perform_await_answer (e := .xfer s.dc.level (payloadBytes s p)) (a := .ok) (ins := ins)
    rfl (by simpa using hi) (admits_ok _))]
  rfl

/-! ### Micro-operations that fail -/

/-- A fallible event answered with one of its failure classes is raised at the position that stands (R303). -/
theorem runOps_issue_fail {r : Request} {e : WireEvent} {c : ErrClass} {ins : List Input}
    (hr : perfRequest r s = .done t) (ho : t.outstanding = some e) (hi : t.inputs = .answer (.fail c) :: ins)
    (hc : (failureClasses e).contains c = true)
    (hh : (settleEvent e (.fail c) { t with inputs := ins }).held = some f) :
    runOps k (.request r :: .await :: .check :: rest) s
      = k (raiseError f (settleEvent e (.fail c) { t with inputs := ins })) := by
  have h1 : perform (.request r) s = .done t := hr
  rw [runOps_done h1, runOps_done (perform_await_answer ho hi hc), runOps_raise (perform_check_some hh)]

end Sys2Proof.Machine
end

