-- ==== Sys2Proof/Laws/PerInstr.lean ====
section
/-! SUPPORT. What the decoder makes of a command word, and, instruction by instruction, what host code it has
(spec/30_encoding.md R90 to R92, spec/00_scope.md R17). -/

namespace Sys2Proof

/-- The two legal command words, seen through their fields (spec/10_state.md R23). -/
theorem cmd_fields (v : Word) (n : Byte) : (cmdRsvd v = 0 ∧ cmdOp v = n) ↔ v = n.zeroExtend 32 := by
  constructor
  · rintro ⟨hr, ho⟩
    apply BitVec.eq_of_getLsbD_eq
    intro i hi
    rw [BitVec.getLsbD_setWidth]
    by_cases h : i < 8
    · have h1 : (cmdOp v).getLsbD i = n.getLsbD i := by rw [ho]
      simpa [cmdOp, BitVec.getLsbD_extractLsb', h, hi] using h1
    · have h1 : (cmdRsvd v).getLsbD (i - 8) = false := by rw [hr]; simp
      have h2 : 8 + (i - 8) = i := by omega
      have h3 : i - 8 < 24 := by omega
      have h4 : n.getLsbD i = false := BitVec.getLsbD_of_ge _ _ (by omega)
      simpa [cmdRsvd, BitVec.getLsbD_extractLsb', h2, h3, h4, hi] using h1
  · rintro rfl
    constructor <;> apply BitVec.eq_of_getLsbD_eq <;> intro i hi
    · simp [cmdRsvd, hi]
    · have h5 : i < 32 := by omega
      simp [cmdOp, hi, h5]

/-- A command word is PREPARE's, RENDER's, or ILLEGAL, which carries it. -/
theorem decodeCmd_cases (v : Word) :
    (v = 1 ∧ decodeCmd v = .prepare) ∨ (v = 2 ∧ decodeCmd v = .render)
      ∨ (v ≠ 1 ∧ v ≠ 2 ∧ decodeCmd v = .illegal v) := by
  have h1 := cmd_fields v 1
  have h2 := cmd_fields v 2
  simp only [show (1 : Byte).zeroExtend 32 = (1 : Word) from rfl, show (2 : Byte).zeroExtend 32 = (2 : Word) from rfl] at h1 h2
  by_cases hr : cmdRsvd v = 0
  · by_cases ho : cmdOp v = 1
    · exact .inl ⟨h1.1 ⟨hr, ho⟩, by simp [decodeCmd, hr, ho]⟩
    · have hn : v ≠ 1 := fun e => ho (h1.2 e).2
      by_cases ho2 : cmdOp v = 2
      · exact .inr (.inl ⟨h2.1 ⟨hr, ho2⟩, by simp [decodeCmd, hr, ho2]⟩)
      · exact .inr (.inr ⟨hn, fun e => ho2 (h2.2 e).2, by
          rw [decodeCmd, if_neg (not_not.2 hr), if_neg ho, if_neg ho2]⟩)
  · exact .inr (.inr ⟨fun e => hr (h1.2 e).1, fun e => hr (h2.2 e).1, by rw [decodeCmd, if_pos hr]⟩)

/-- Decoding the bytes of a word decodes the word (spec/20_memory.md R64). -/
theorem decode_wordBytes (v : Word) (rest : List Byte) : decode (wordBytes v ++ rest) = .ok (decodeCmd v) rest := by
  simp only [wordBytes, List.cons_append, List.nil_append, decode, Machine.wordOfBytes_wordBytes]

/-- No command word is an operation of the engine's own. -/
theorem decodeCmd_ne {i : Instr} (h : encodeCmd i = none) (v : Word) : decodeCmd v ≠ i := by
  rintro rfl
  rcases decodeCmd_cases v with ⟨-, hv⟩ | ⟨-, hv⟩ | ⟨-, -, hv⟩ <;> simp [hv, encodeCmd] at h

end Sys2Proof

namespace Sys2Proof.Laws.HostCode

/-- A well-formed instruction with a host code is what the decoder reads from it, as a word and as bytes; an instruction
without one is read from no word. -/
def Statement (i : Instr) : Prop :=
  i.wf = true →
    match encodeCmd i with
    | some v => decodeCmd v = i ∧ decode (wordBytes v) = .ok i []
    | none => ∀ v : Word, decodeCmd v ≠ i

/-- The decoder reads an instruction from its host code. -/
theorem statement_of_decodes {i : Instr} {v : Word} (he : encodeCmd i = some v) (hd : decodeCmd v = i) : Statement i := by
  intro _
  rw [he]
  refine ⟨hd, ?_⟩
  have h := decode_wordBytes v []
  rwa [List.append_nil, hd] at h

/-- An instruction without a host code is read from no word. -/
theorem statement_of_none {i : Instr} (he : encodeCmd i = none) : Statement i := by
  intro _
  rw [he]
  exact decodeCmd_ne he

theorem prepare : Statement .prepare := statement_of_decodes rfl rfl
theorem render : Statement .render := statement_of_decodes rfl rfl
theorem illegal (v : Word) : Statement (.illegal v) := by
  intro hw
  have h1 : v ≠ 1 ∧ v ≠ 2 := by simpa [Instr.wf] using hw
  rcases decodeCmd_cases v with ⟨e, -⟩ | ⟨e, -⟩ | ⟨-, -, hv⟩
  · exact absurd e h1.1
  · exact absurd e h1.2
  · exact statement_of_decodes rfl hv hw
theorem init0 : Statement .init0 := statement_of_none rfl
theorem init1 : Statement .init1 := statement_of_none rfl
theorem init2 : Statement .init2 := statement_of_none rfl
theorem init3 : Statement .init3 := statement_of_none rfl
theorem init4 : Statement .init4 := statement_of_none rfl
theorem init5 : Statement .init5 := statement_of_none rfl
theorem init6 : Statement .init6 := statement_of_none rfl
theorem init7 : Statement .init7 := statement_of_none rfl
theorem init8 : Statement .init8 := statement_of_none rfl
theorem init9 : Statement .init9 := statement_of_none rfl
theorem init10 : Statement .init10 := statement_of_none rfl
theorem init11 : Statement .init11 := statement_of_none rfl
theorem init12 : Statement .init12 := statement_of_none rfl
theorem init13 : Statement .init13 := statement_of_none rfl
theorem init14 : Statement .init14 := statement_of_none rfl
theorem init15 : Statement .init15 := statement_of_none rfl
theorem init16 : Statement .init16 := statement_of_none rfl
theorem init17 : Statement .init17 := statement_of_none rfl
theorem init18 : Statement .init18 := statement_of_none rfl
theorem paint0 : Statement .paint0 := statement_of_none rfl
theorem paint1 : Statement .paint1 := statement_of_none rfl
theorem paint2 : Statement .paint2 := statement_of_none rfl
theorem paint3 : Statement .paint3 := statement_of_none rfl
theorem busOpen : Statement .busOpen := statement_of_none rfl
theorem xfer (bytes : List Byte) : Statement (.xfer bytes) := statement_of_none rfl
theorem busClose : Statement .busClose := statement_of_none rfl
theorem lineClaim (line : Line) : Statement (.lineClaim line) := statement_of_none rfl
theorem lineSet (line : Line) (level : Bool) : Statement (.lineSet line level) := statement_of_none rfl
theorem lineRelease (line : Line) : Statement (.lineRelease line) := statement_of_none rfl
theorem delay (ms : BitVec 16) : Statement (.delay ms) := statement_of_none rfl

end Sys2Proof.Laws.HostCode
end

