-- ==== Sys2Proof/Laws/Step.lean ====
section
/-! SUPPORT. Everything a step can do, said once: which input it takes and what that comes to; and the invariants of the state
alone that follow. -/

namespace Sys2Proof.Machine

variable {s t : State}

/-- Everything that the execution of a CMD word can be: a dropped write, IllegalOperation, PREPARE or RENDER
(spec/46_display_driver.md R280). -/
theorem exec_command_cases (v : Word) (s : State) :
    (s.busy = true ∧ exec (decodeCmd v) s = .next (dropWrite s))
      ∨ (s.busy = false ∧ exec (decodeCmd v) s = .next (raiseIllegal (clearForCommand s)))
      ∨ (s.busy = false ∧ exec (decodeCmd v) s = engine prepareSequence (acceptOperation s))
      ∨ (s.busy = false ∧ exec (decodeCmd v) s = engine (renderSequence s.cfg) (startRun (acceptOperation s))) := by
  rcases decodeCmd_cases v with ⟨-, hv⟩ | ⟨-, hv⟩ | ⟨-, -, hv⟩ <;> rw [hv] <;> cases hb : s.busy <;>
    simp [exec, execPrepare, execRender, execIllegal, hb]

/-- Everything that a step which answers a next state can be. -/
theorem step_cases (h : step s = .next t) :
    (s.inputs = [] ∧ t = s)
      ∨ (∃ rest, s.inputs = .reset :: rest ∧ t = blockReset { s with inputs := rest })
      ∨ (∃ rest, s.inputs = .edge :: rest ∧ t = clockEdge { s with inputs := rest })
      ∨ (∃ a size rest, s.inputs = .host (.read a size) :: rest ∧ t = hostRead a { s with inputs := rest })
      ∨ (∃ a size v rest, s.inputs = .host (.write a size v) :: rest ∧ a.toNat % 4 = 0
          ∧ placeAt s.cfg a.toNat ≠ .cmd ∧ t = writePlace v { s with inputs := rest } (placeAt s.cfg a.toNat))
      ∨ (∃ a size v rest, s.inputs = .host (.write a size v) :: rest ∧ size = 4 ∧ placeAt s.cfg a.toNat = .cmd
          ∧ exec (decodeCmd v) { s with inputs := rest } = .next t)
      ∨ (∃ x rest, s.inputs = x :: rest ∧ engineTakes s x = true ∧ resume s = .next t)
      ∨ (∃ x rest, s.inputs = x :: rest ∧ engineTakes s x = false ∧ t = { s with inputs := rest }) := by
  have key : ∀ x rest, s.inputs = x :: rest → (if engineTakes s x then Fetched.settled (resume s)
      else .settled (.next { s with inputs := rest })) = fetch s →
      (∃ x rest, s.inputs = x :: rest ∧ engineTakes s x = true ∧ resume s = .next t)
      ∨ (∃ x rest, s.inputs = x :: rest ∧ engineTakes s x = false ∧ t = { s with inputs := rest }) := by
    intro x rest hi hf
    rw [step, ← hf] at h
    cases he : engineTakes s x <;> rw [he] at h <;> simp only [if_true, if_false, Bool.false_eq_true] at h
    · exact .inr ⟨x, rest, hi, he, by cases h; rfl⟩
    · exact .inl ⟨x, rest, hi, he, h⟩
  rcases hi : s.inputs with _ | ⟨x, rest⟩
  · simp only [step, fetch, hi] at h
    exact .inl ⟨rfl, by cases h; rfl⟩
  · cases x with
    | reset =>
      simp only [step, fetch, hi] at h
      exact .inr (.inl ⟨rest, rfl, by cases h; rfl⟩)
    | edge =>
      simp only [step, fetch, hi] at h
      exact .inr (.inr (.inl ⟨rest, rfl, by cases h; rfl⟩))
    | host q =>
      cases q with
      | read a size =>
        simp only [step, fetch, hi, fetchHost] at h
        cases hd : accessDefined a size <;> simp only [hd, if_true, if_false, Bool.false_eq_true] at h
        · cases h
        · exact .inr (.inr (.inr (.inl ⟨a, size, rest, rfl, by cases h; rfl⟩)))
      | write a size v =>
        simp only [step, fetch, hi, fetchHost] at h
        cases hd : accessDefined a size <;> simp only [hd, if_true, if_false, Bool.false_eq_true] at h
        · cases h
        · have hd' : size = 4 ∧ a.toNat % 4 = 0 := by simpa [accessDefined] using hd
          by_cases hp : placeAt s.cfg a.toNat = .cmd
          · simp only [hp, if_true] at h
            exact .inr (.inr (.inr (.inr (.inr (.inl ⟨a, size, v, rest, rfl, hd'.1, hp, h⟩)))))
          · simp only [hp, if_false] at h
            exact .inr (.inr (.inr (.inr (.inl ⟨a, size, v, rest, rfl, hd'.2, hp, by cases h; rfl⟩))))
    | answer a =>
      exact .inr (.inr (.inr (.inr (.inr (.inr (by rw [← hi]; exact key _ _ hi (by simp only [fetch, hi])))))))
    | work =>
      exact .inr (.inr (.inr (.inr (.inr (.inr (by rw [← hi]; exact key _ _ hi (by simp only [fetch, hi])))))))
    | tick =>
      exact .inr (.inr (.inr (.inr (.inr (.inr (by rw [← hi]; exact key _ _ hi (by simp only [fetch, hi])))))))

/-- A property of states that every part of a sequence keeps: single actions, raising an error, the end of an operation, and
putting back what remains to be done. -/
structure EngineKeeps (P : State → Prop) : Prop where
  perform : ∀ op s t, P s → (perform op s = .done t ∨ perform op s = .wait t ∨ ∃ f, perform op s = .raise f t) → P t
  finish : ∀ b s, P s → P (finishOperation b s)
  raise : ∀ f s, P s → P (raiseError f s)
  todo : ∀ ops s, P s → P { s with todo := ops }

theorem EngineKeeps.runOps {P : State → Prop} (hk : EngineKeeps P) {k : State → StepOutcome}
    (hcont : ∀ s u, P s → k s = .next u → P u) (ops : List Op) (s u : State) (hp : P s) (h : runOps k ops s = .next u) : P u :=
  runOps_keeps (Q := fun _ s => P s) (R := P) (k := k) (fun _ h => h)
    (fun op _ s t hp h => hk.perform op s t hp (.inl h))
    (fun op _ s t hp h => hk.todo _ _ (hk.perform op s t hp (.inr (.inl h))))
    (fun op _ s t hp h => by
      obtain ⟨b, -, rfl⟩ := perform_ended h
      exact hk.finish b s hp)
    (fun op _ s t f u hp h hc => hcont _ _ (hk.raise f t (hk.perform op s t hp (.inr (.inr ⟨f, h⟩)))) hc) ops s hp u h

theorem EngineKeeps.engine {P : State → Prop} (hk : EngineKeeps P) (ops : List Op) (s u : State) (hp : P s)
    (h : engine ops s = .next u) : P u := by
  refine hk.runOps (fun a b ha hb => ?_) ops s u hp h
  refine hk.runOps (fun a b ha hb => ?_) _ a b ha hb
  cases hb
  exact ha

/-- An invariant of the state alone: kept by the engine, by block reset, by a change of level, by the host's reads and writes and by the start of an
operation, it is kept by every step. -/
theorem EngineKeeps.step {P : State → Prop} (hk : EngineKeeps P) (hin : ∀ ins s, P s → P { s with inputs := ins })
    (hreset : ∀ s, P s → P (blockReset s)) (hedge : ∀ s, P s → P (clockEdge s)) (hread : ∀ a s, P s → P (hostRead a s))
    (hwrite : ∀ (a : HostAddr) v s, P s → a.toNat % 4 = 0 → P (writePlace v s (placeAt s.cfg a.toNat)))
    (hdrop : ∀ s, P s → P (dropWrite s)) (hillegal : ∀ s, P s → P (raiseIllegal (clearForCommand s)))
    (haccept : ∀ s, P s → P (acceptOperation s)) (hstart : ∀ s, P s → P (startRun s)) (hp : P s) (h : step s = .next t) :
    P t := by
  rcases step_cases h with ⟨-, rfl⟩ | ⟨_, -, rfl⟩ | ⟨_, -, rfl⟩ | ⟨_, _, _, -, rfl⟩ | ⟨a, _, v, rest, -, ha, -, rfl⟩ |
    ⟨_, _, v, rest, -, -, -, he⟩ | ⟨_, _, -, -, hr⟩ | ⟨_, _, -, -, rfl⟩
  · exact hp
  · exact hreset _ (hin _ _ hp)
  · exact hedge _ (hin _ _ hp)
  · exact hread _ _ (hin _ _ hp)
  · exact hwrite a v { s with inputs := rest } (hin _ _ hp) ha
  · rcases exec_command_cases v { s with inputs := rest } with ⟨-, hc⟩ | ⟨-, hc⟩ | ⟨-, hc⟩ | ⟨-, hc⟩ <;> rw [hc] at he
    · cases he
      exact hdrop _ (hin _ _ hp)
    · cases he
      exact hillegal _ (hin _ _ hp)
    · exact hk.engine _ _ _ (haccept _ (hin _ _ hp)) he
    · exact hk.engine _ _ _ (hstart _ (haccept _ (hin _ _ hp))) he
  · exact hk.engine _ _ _ (hk.todo _ _ hp) hr
  · exact hin _ _ hp

end Sys2Proof.Machine
end

