-- ==== Sys2Proof/Laws/Actions.lean ====
section
/-! SUPPORT. What one action of the engine can do: an inductive relation that lists every effect once, and what follows from it
for memory and the buffers, the trace, ACT, and the lines. -/

namespace Sys2Proof.Machine

/-- What an action leaves when it goes on, waits or raises. -/
inductive Effect : Op → State → State → Prop where
  | stay (op : Op) (s : State) : Effect op s s
  | setAct (a : Act) (s : State) : Effect (.setAct a) s { s with act := a }
  | setPState (p : PState) (s : State) : Effect (.setPState p) s { s with pstate := p, stepIx := 0 }
  | setStep (n : BitVec 8) (s : State) : Effect (.setStep n) s { s with stepIx := n }
  | setPos (p : Pos) (s : State) : Effect (.setPos p) s { s with pos := p }
  | gate (ins : List Input) (s : State) : Effect .gate s { s with inputs := ins }
  | busClose (s : State) : Effect (.request .busClose) s (closeBus s)
  | lineRelease (l : Line) (s : State) : Effect (.request (.lineRelease l)) s (releaseLine l s)
  | delay (ms : BitVec 16) (s : State) : Effect (.request (.delay ms)) s (startDelay ms s)
  | busOpen (s : State) : Effect (.request .busOpen) s (issueEvent (.busOpen s.cfg.spiMode s.cfg.spiClockHz) s)
  | lineClaim (l : Line) (s : State) : Effect (.request (.lineClaim l)) s (issueEvent (.lineClaim l lineFlags) s)
  | lineSet (l : Line) (v : Bool) (s : State) (hc : (lineOf s l).claimed = true) :
    Effect (.request (.lineSet l v)) s (issueEvent (.lineSet l v) s)
  | xfer (p : Payload) (s : State) (hb : s.bus.isSome = true) :
    Effect (.request (.xfer p)) s (startXfer (payloadBytes s p) { s with draws := s.draws + 1 })
  | answered (e : WireEvent) (a : Answer) (ins : List Input) (s : State) (ho : s.outstanding = some e)
      (hi : s.inputs = .answer a :: ins) (ha : admits e a = true) :
    Effect .await s (settleEvent e a { s with inputs := ins })
  | timer (ins : List Input) (d : BitVec 16) (s : State) : Effect .timer s { s with inputs := ins, dly := d }
  | fit (s : State) : Effect .fit s (storeFit (fitRegion (srcW s) (srcH s)) s)
  | canvas (op : Op) (c : Array Rgb) (s : State) (ho : op = .background ∨ op = .resample) : Effect op s { s with ct := c }
  | dither (s : State) : Effect .dither s { s with
      errAcc := (ditherPass s.cfg.palette (storedRegion s) s.ct).err
      idx := (ditherPass s.cfg.palette (storedRegion s) s.ct).idx }
  | pack (s : State) : Effect .pack s { s with mem := memWrite s.mem frameBase (packFrame s.idx) }

variable {op : Op} {s t : State}

/-- An action that goes on, waits or raises has one of these effects. -/
theorem effect_of_perform (h : perform op s = .done t ∨ perform op s = .wait t ∨ ∃ f, perform op s = .raise f t) :
    Effect op s t := by
  have key : ∀ r : OpResult, perform op s = r → (r = .done t ∨ r = .wait t ∨ ∃ f, r = .raise f t) → Effect op s t := by
    intro r hr hcase
    cases op with
    | setAct a => simp only [perform] at hr; subst hr; simp at hcase; subst hcase; exact .setAct a s
    | setPState p => simp only [perform] at hr; subst hr; simp at hcase; subst hcase; exact .setPState p s
    | setStep n => simp only [perform] at hr; subst hr; simp at hcase; subst hcase; exact .setStep n s
    | setPos p => simp only [perform] at hr; subst hr; simp at hcase; subst hcase; exact .setPos p s
    | gate =>
      simp only [perform, perfGate] at hr
      split at hr <;> subst hr <;> simp at hcase <;> subst hcase
      · exact .gate _ s
      · exact .stay _ s
    | request q =>
      simp only [perform, perfRequest] at hr
      cases q with
      | lineSet l v =>
        simp only at hr
        split at hr <;> subst hr <;> simp at hcase
        rename_i hc
        subst hcase
        exact .lineSet l v s hc
      | xfer p =>
        simp only at hr
        split at hr <;> subst hr <;> simp at hcase
        rename_i hc
        subst hcase
        exact .xfer p s hc
      | lineRelease l => simp only at hr; subst hr; simp at hcase; subst hcase; exact .lineRelease l s
      | busOpen => simp only at hr; subst hr; simp at hcase; subst hcase; exact .busOpen s
      | busClose => simp only at hr; subst hr; simp at hcase; subst hcase; exact .busClose s
      | lineClaim l => simp only at hr; subst hr; simp at hcase; subst hcase; exact .lineClaim l s
      | delay ms => simp only at hr; subst hr; simp at hcase; subst hcase; exact .delay ms s
    | await =>
      simp only [perform, perfAwait] at hr
      split at hr
      · subst hr; simp at hcase; subst hcase; exact .stay _ s
      · rename_i e a ins ho hi
        split at hr
        · rename_i ha
          subst hr; simp at hcase; subst hcase
          exact .answered e a ins s ho hi ha
        · subst hr; simp at hcase; subst hcase; exact .stay _ s
      · subst hr; simp at hcase; subst hcase; exact .stay _ s
    | check =>
      simp only [perform, perfCheck] at hr
      split at hr <;> subst hr <;> simp at hcase <;> subst hcase <;> exact .stay _ s
    | timer =>
      simp only [perform, perfTimer] at hr
      split at hr <;> subst hr <;> simp at hcase <;> subst hcase <;> exact .timer _ _ s
    | dimensionCheck =>
      simp only [perform, perfDimensionCheck] at hr
      split at hr <;> subst hr <;> simp at hcase <;> subst hcase <;> exact .stay _ s
    | fit => simp only [perform, perfFit] at hr; subst hr; simp at hcase; subst hcase; exact .fit s
    | background =>
      simp only [perform, perfBackground] at hr; subst hr; simp at hcase; subst hcase; exact .canvas _ _ s (.inl rfl)
    | resample =>
      simp only [perform, perfResample] at hr
      split at hr <;> subst hr <;> simp at hcase
      subst hcase
      exact .canvas _ _ s (.inr rfl)
    | dither => simp only [perform, perfDither] at hr; subst hr; simp at hcase; subst hcase; exact .dither s
    | pack => simp only [perform, perfPack] at hr; subst hr; simp at hcase; subst hcase; exact .pack s
    | finish b => simp only [perform] at hr; subst hr; simp at hcase
  exact key _ rfl h

/-- Only pack writes memory, and only dither writes IDX (spec/20_memory.md R70). -/
theorem effect_buffers (h : Effect op s t) :
    (t.mem = s.mem ∧ t.idx = s.idx)
      ∨ (op = .dither ∧ t.mem = s.mem ∧ t.idx = (ditherPass s.cfg.palette (storedRegion s) s.ct).idx)
      ∨ (op = .pack ∧ t.mem = memWrite s.mem frameBase (packFrame s.idx) ∧ t.idx = s.idx) := by
  cases h with
  | dither => exact .inr (.inl ⟨rfl, rfl, rfl⟩)
  | pack => exact .inr (.inr ⟨rfl, rfl, rfl⟩)
  | answered e a ins s ho hi ha =>
    cases a with
    | ok => cases e <;> exact .inl (by simp [settleEvent, effectOk])
    | fail c => cases e <;> exact .inl (by simp [settleEvent, effectFail])
  | _ => exact .inl (by simp)

/-- The trace only grows, by at most one event (spec/20_memory.md R79). -/
theorem effect_trace (h : Effect op s t) : ∃ es, t.trace = s.trace ++ es := by
  cases h with
  | busClose | lineRelease | delay | busOpen | lineClaim | lineSet => exact ⟨[_], by simp; rfl⟩
  | xfer p s hb => exact ⟨[.xfer s.dc.level (payloadBytes s p)], by simp⟩
  | answered e a ins s ho hi ha => exact ⟨[], by simp [trace_settleEvent]⟩
  | _ => exact ⟨[], by simp⟩

/-- ACT is written by setAct alone. -/
theorem effect_act (h : Effect op s t) : t.act = s.act ∨ op = .setAct t.act := by
  cases h with
  | setAct a s => exact .inr rfl
  | answered e a ins s ho hi ha =>
    cases a with
    | ok => cases e <;> exact .inl (by simp [settleEvent, effectOk])
    | fail c => cases e <;> exact .inl (by simp [settleEvent, effectFail])
  | _ => exact .inl (by simp)

/-- An action that waits changes nothing but the inputs it took and the delay's count. -/
theorem perform_wait (h : perform op s = .wait t) : t = { s with inputs := t.inputs, dly := t.dly } := by
  cases op with
  | request r => cases r <;> simp only [perform, perfRequest] at h <;> (try split at h) <;> cases h
  | gate => simp only [perform, perfGate] at h; split at h <;> cases h; rfl
  | await =>
    simp only [perform, perfAwait] at h
    split at h
    · cases h
    · split at h <;> cases h; rfl
    · cases h; rfl
  | check => simp only [perform, perfCheck] at h; split at h <;> cases h
  | timer => simp only [perform, perfTimer] at h; split at h <;> cases h; rfl
  | dimensionCheck => simp only [perform, perfDimensionCheck] at h; split at h <;> cases h
  | resample => simp only [perform, perfResample] at h; split at h <;> cases h
  | setAct _ | setPState _ | setStep _ | setPos _ | fit | background | dither | pack | finish _ => cases h

/-- The outcome of an event ends it and leaves the position of the engine. -/
theorem settleEvent_progress (e : WireEvent) (a : Answer) (s : State) :
    progressOf (settleEvent e a s) = progressOf s ∧ (settleEvent e a s).outstanding = none := by
  cases a with
  | ok => cases e <;> simp [settleEvent, effectOk, progressOf]
  | fail c => cases e <;> simp [settleEvent, effectFail, progressOf]

/-- Where the engine stands after an action (spec/10_state.md R21). -/
theorem perform_progress (h : perform op s = .done t) : progressOf t = progressAfter (progressOf s) op := by
  cases effect_of_perform (.inl h) with
  | answered => exact (settleEvent_progress _ _ _).1
  | stay =>
    cases op with
    | setAct a => exact congrArg progressOf (OpResult.done.inj h.symm)
    | setPState p => exact congrArg progressOf (OpResult.done.inj h.symm)
    | setStep n => exact congrArg progressOf (OpResult.done.inj h.symm)
    | _ => rfl
  | canvas op c s ho => rcases ho with rfl | rfl <;> rfl
  | _ => first | rfl | simp [progressOf, progressAfter]

/-- PREPARE and RENDER keep to the order of ACT, PSTATE and STEP from their acceptance on (spec/46_display_driver.md R281,
R283). -/
theorem prepareSequence_keepsOrder (p : PState) (n : BitVec 8) : keepsOrder prepareSequence ⟨.prepare, p, n⟩ = true := by
  cases p <;> rfl

set_option maxRecDepth 20000 in
theorem renderSequence_keepsOrder (cfg : Config) : keepsOrder (renderSequence cfg) ⟨.prepare, .unpowered, 0⟩ = true := by
  rfl

/-- Driving a line changes nothing, or a claimed line's level and pin (spec/43_digital_line.md R189). -/
theorem driveLine_cases (l : Line) (v : Bool) (p : Pin) (s : State) :
    driveLine l v p s = s ∨ ((lineOf s l).claimed = true ∧ driveLine l v p s = setLine l ⟨true, v⟩ p s) := by
  cases hc : (lineOf s l).claimed
  · exact .inl (by simp [driveLine, hc])
  · exact .inr ⟨rfl, driveLine_claimed hc v p⟩

/-- Driving a line claims nothing and releases nothing. -/
theorem driveLine_claims (l : Line) (v : Bool) (p : Pin) (s : State) :
    (driveLine l v p s).rst.claimed = s.rst.claimed ∧ (driveLine l v p s).dc.claimed = s.dc.claimed := by
  rcases driveLine_cases l v p s with h | ⟨hc, h⟩ <;> rw [h]
  · exact ⟨rfl, rfl⟩
  · cases l <;> simp [setLine, lineOf] at hc ⊢ <;> exact hc

end Sys2Proof.Machine
end

