-- ==== Sys2Proof/Laws/Pipeline.lean ====
section
/-! SUPPORT. What the image pipeline's operations do, one lemma each: sizes, what each writes, and what each leaves
(spec/40_fit_resample.md, spec/41_dither.md, spec/42_pack.md). -/

namespace Sys2Proof.Laws.Pipeline

open Sys2Proof Sys2Proof.Machine

/-! ### The source image -/

/-- The dimension check passes exactly the images with no zero dimension that SRCMEM can hold (spec/40_fit_resample.md
R120). -/
theorem dimensionError_eq_none (words w h : Nat) :
    dimensionError words w h = none ↔ 1 ≤ w ∧ 1 ≤ h ∧ w * h ≤ words := by
  unfold dimensionError
  split
  · simp only [reduceCtorEq, false_iff]
    omega
  · split <;> simp only [reduceCtorEq, false_iff, true_iff] <;> omega

/-- No word is unwritten exactly when every word below the count has a value (spec/10_state.md R48). -/
theorem unwrittenWord_eq_none (m : Memory) (n : Nat) :
    unwrittenWord m n = none ↔ ∀ k, k < n → memReadWord m (0x100000 + 4 * k) ≠ none := by
  simp [unwrittenWord, srcAddr, srcBase]

/-! ### Resampling -/

theorem resampleCanvas_size (src : Nat → Nat → Rgb) (w h : Nat) (r : Region) (ct : Array Rgb) :
    (resampleCanvas src w h r ct).size = ct.size := by
  simp [resampleCanvas]

/-- A canvas pixel of the region is the resampled one; every other keeps what it held. -/
theorem resampleCanvas_getElem (src : Nat → Nat → Rgb) (w h : Nat) (r : Region) (ct : Array Rgb) (p : Nat) :
    (resampleCanvas src w h r ct)[p]? = ct[p]?.map (fun old =>
      if inRegion r (p % 800) (p / 800) then resamplePixel src w h r (p % 800 - r.x0) (p / 800 - r.y0) else old) := by
  simp only [resampleCanvas, Array.getElem?_mapIdx]
  rfl

theorem backgroundCanvas_size (cfg : Config) : (backgroundCanvas cfg).size = 384000 := by
  simp [backgroundCanvas, pixels]

/-! ### Error diffusion -/

theorem diffuse_size (r : Region) (p q weight : Int) (d : Diff) (err : Array ErrTriple) :
    (diffuse r p q weight d err).size = err.size := by
  unfold diffuse
  split <;> simp

/-- A share changes the one accumulator it is for, if the region has that position, and no other. -/
theorem diffuse_getElem (r : Region) (p q weight : Int) (d : Diff) (err : Array ErrTriple) (n : Nat) :
    (diffuse r p q weight d err)[n]? =
      if (0 ≤ p ∧ p < r.fw ∧ 0 ≤ q ∧ q < r.fh) ∧ q.toNat * r.fw + p.toNat = n then err[n]?.map (addShare weight d)
      else err[n]? := by
  unfold diffuse
  by_cases h : 0 ≤ p ∧ p < r.fw ∧ 0 ≤ q ∧ q < r.fh
  · simp only [h, and_self, if_true, true_and, Array.getElem?_modify]
  · simp only [h, if_false, false_and]

theorem diffuseAll_size (r : Region) (i j : Nat) (d : Diff) (err : Array ErrTriple) :
    (diffuseAll r i j d err).size = err.size := by
  simp only [diffuseAll, diffuse_size]

/-- The error of a colour against itself is zero, and a zero error diffuses nothing. -/
theorem quantError_self (v : Rgb) : quantError v v = ⟨0, 0, 0⟩ := by
  simp [quantError, channelDiff]

theorem addShare_zero (weight : Int) (e : ErrTriple) : addShare weight ⟨0, 0, 0⟩ e = e := by
  simp [addShare]

/-! ### Visiting one pixel -/

theorem quantizePixel_errSize (palette : Vector Rgb 7) (r : Region) (ct : Array Rgb) (b : DitherBuffers) (i j : Nat) :
    (quantizePixel palette r ct b i j).err.size = b.err.size := by
  simp only [quantizePixel, diffuseAll_size]

theorem quantizePixel_idxSize (palette : Vector Rgb 7) (r : Region) (ct : Array Rgb) (b : DitherBuffers) (i j : Nat) :
    (quantizePixel palette r ct b i j).idx.size = b.idx.size := by
  simp only [quantizePixel, Array.size_setIfInBounds]

/-- A visit leaves the index of every other canvas pixel. -/
theorem quantizePixel_idx_of_ne (palette : Vector Rgb 7) (r : Region) (ct : Array Rgb) (b : DitherBuffers) (i j n : Nat)
    (h : rasterPos (r.x0 + i) (r.y0 + j) ≠ n) : (quantizePixel palette r ct b i j).idx[n]? = b.idx[n]? := by
  simp only [quantizePixel, Array.getElem?_setIfInBounds_ne h]

/-! ### The pass, visit by visit -/

theorem ditherPrefix_zero (palette : Vector Rgb 7) (r : Region) (ct : Array Rgb) :
    ditherPrefix palette r ct 0 = ditherStart r := rfl

/-- One more visit. -/
theorem ditherPrefix_succ (palette : Vector Rgb 7) (r : Region) (ct : Array Rgb) (n : Nat) :
    ditherPrefix palette r ct (n + 1) = quantizePixel palette r ct (ditherPrefix palette r ct n) (n % r.fw) (n / r.fw) := by
  simp only [ditherPrefix, List.range_succ, List.foldl_append, List.foldl_cons, List.foldl_nil]

theorem ditherPass_eq (palette : Vector Rgb 7) (r : Region) (ct : Array Rgb) :
    ditherPass palette r ct = ditherPrefix palette r ct (r.fw * r.fh) := rfl

/-- The pixel of visit `n` lies in the region. -/
theorem visit_lt {r : Region} {n : Nat} (h : n < r.fw * r.fh) : n % r.fw < r.fw ∧ n / r.fw < r.fh :=
  ⟨Nat.mod_lt _ (Nat.pos_of_ne_zero fun h0 => by simp [h0] at h), Nat.div_lt_of_lt_mul h⟩

/-- What holds before the first visit and is kept by every visit of a region pixel holds however far the pass has come. -/
theorem ditherPrefix_induction {palette : Vector Rgb 7} {r : Region} {ct : Array Rgb} {P : DitherBuffers → Prop}
    (start : P (ditherStart r))
    (visit : ∀ b i j, i < r.fw → j < r.fh → P b → P (quantizePixel palette r ct b i j)) (n : Nat) (hn : n ≤ r.fw * r.fh) :
    P (ditherPrefix palette r ct n) := by
  induction n with
  | zero => exact start
  | succ n ih =>
    rw [ditherPrefix_succ]
    exact visit _ _ _ (visit_lt hn).1 (visit_lt hn).2 (ih (Nat.le_of_succ_le hn))

/-- The same for the whole pass. -/
theorem ditherPass_induction {palette : Vector Rgb 7} {r : Region} {ct : Array Rgb} {P : DitherBuffers → Prop}
    (start : P (ditherStart r))
    (visit : ∀ b i j, i < r.fw → j < r.fh → P b → P (quantizePixel palette r ct b i j)) : P (ditherPass palette r ct) :=
  ditherPrefix_induction start visit _ (le_refl _)

theorem ditherPrefix_sizes (palette : Vector Rgb 7) (r : Region) (ct : Array Rgb) (n : Nat) (hn : n ≤ r.fw * r.fh) :
    (ditherPrefix palette r ct n).err.size = r.fw * r.fh ∧ (ditherPrefix palette r ct n).idx.size = 384000 := by
  refine ditherPrefix_induction (P := fun b => b.err.size = r.fw * r.fh ∧ b.idx.size = 384000) ?_ ?_ n hn
  · simp [ditherStart, pixels]
  · intro b i j _ _ hb
    rw [quantizePixel_errSize, quantizePixel_idxSize]
    exact hb

theorem ditherPass_sizes (palette : Vector Rgb 7) (r : Region) (ct : Array Rgb) :
    (ditherPass palette r ct).err.size = r.fw * r.fh ∧ (ditherPass palette r ct).idx.size = 384000 :=
  ditherPrefix_sizes palette r ct _ (le_refl _)

/-! ### Packing -/

theorem packFrame_length (idx : Array (BitVec 3)) : (packFrame idx).length = 192000 := by
  simp [packFrame, frameBytes]

theorem packFrame_getElem (idx : Array (BitVec 3)) (n : Nat) (h : n < 192000) :
    (packFrame idx)[n]? = some (packedByte idx n) := by
  simp [packFrame, frameBytes, h]

/-- The two nibbles of a packed byte. -/
theorem packPair_high (even odd : BitVec 3) : (packPair even odd).extractLsb' 4 4 = even.zeroExtend 4 := by
  revert even odd
  decide

theorem packPair_low (even odd : BitVec 3) : (packPair even odd).extractLsb' 0 4 = odd.zeroExtend 4 := by
  revert even odd
  decide

end Sys2Proof.Laws.Pipeline
end

