-- ==== Sys2Proof/Laws/Sequences.lean ====
section
/-! SUPPORT. What each fixed sequence of the engine comes to in an undisturbed outside world: acquisition, reset, a command,
release, the pipeline; and the abort path, which cannot fail. -/

namespace Sys2Proof.Machine

variable {k : State → StepOutcome} {rest : List Op} {s : State} {ins : List Input}

/-- A gate whose work is there. -/
theorem runOps_gate (h : s.inputs = .work :: ins) :
    runOps k (.gate :: rest) s = runOps k rest { s with inputs := ins } := runOps_done (perform_gate h)

/-- A protocol state is entered (spec/45_command_protocol.md R236, R240, R260, R275). -/
theorem runOps_enter {p : PState} (h : s.inputs = .work :: ins) :
    runOps k (.gate :: .setPState p :: rest) s = runOps k rest { s with pstate := p, stepIx := 0, inputs := ins } := by
  rw [runOps_gate h]
  exact runOps_done rfl

/-! ### A command (spec/45_command_protocol.md R233) -/

/-- The state after a command without a payload. -/
def afterOpcode (ph : Phase) (n : BitVec 8) (op : Byte) (ins : List Input) (s : State) : State :=
  { afterXfer [op] ins s with pos := ⟨ph, n, 0⟩ }

/-- The opcode transfer of a command. -/
theorem runOps_opcode_ok {ph : Phase} {n : BitVec 8} {op : Byte} (hb : s.bus.isSome = true) (hh : s.held = none)
    (hi : s.inputs = .answer .ok :: ins) :
    runOps k (microOp ⟨ph, n, 0⟩ (.xfer (.const [op])) ++ rest) s = runOps k rest (afterOpcode ph n op ins s) := by
  simp [microOp, runOps, perform, perfRequest, perfAwait, perfCheck, hb, hh, hi, admits, settleEvent, effectOk, issueEvent,
    emitEvent, startXfer, finishXfer, busPinsIdle, afterOpcode, afterXfer, answered, payloadBytes]

/-- The state after a command with a payload of these bytes. -/
def afterCommand (ph : Phase) (n : BitVec 8) (op : Byte) (data : List Byte) (ins : List Input) (s : State) : State :=
  { s with
    trace := s.trace ++ .xfer s.dc.level [op] :: payloadTrace data
    outcomes := s.outcomes ++ [.ok, .ok, .ok, .ok]
    shifted := s.shifted ++ ⟨s.dc.level, op⟩ :: data.map (fun b => ⟨true, b⟩)
    dc := ⟨true, false⟩, pinDc := .driven false
    wave := s.wave ++ traceWave s.cfg (.xfer s.dc.level [op] :: payloadTrace data), moves := []
    pinSclk := .driven (cpol s.cfg.spiMode), pinCsN := .driven true, pinMosi := .driven (Config.drawBit (s.draws + 3))
    draws := s.draws + 4, pos := ⟨ph, n, 3⟩, outstanding := none, inputs := ins }

/-- A command with a payload, every outcome ok. -/
theorem runOps_sendCommand_ok {ph : Phase} {n : BitVec 8} {op : Byte} {p : Payload} (hp : p.isAbsent = false)
    (hb : s.bus.isSome = true) (hc : s.dc.claimed = true) (hh : s.held = none)
    (hi : s.inputs = stepInputs ++ ins) :
    runOps k (.gate :: (sendCommand ph n op p ++ rest)) s
      = runOps k rest (afterCommand ph n op (payloadBytes { s with draws := s.draws + 2 } p) ins s) := by
  simp only [stepInputs, List.cons_append, List.nil_append] at hi
  cases p with
  | absent => simp [Payload.isAbsent] at hp
  | const data =>
    simp [sendCommand, hp, microOp, runOps, perform, perfGate, perfRequest, perfAwait, perfCheck, hb, hc, hh, hi, admits,
      settleEvent, effectOk, issueEvent, emitEvent, startXfer, finishXfer, busPinsIdle, driveLine, setLine, lineOf, afterCommand,
      payloadBytes, payloadTrace, traceWave, eventWave]
  | frame =>
    simp [sendCommand, hp, microOp, runOps, perform, perfGate, perfRequest, perfAwait, perfCheck, hb, hc, hh, hi, admits,
      settleEvent, effectOk, issueEvent, emitEvent, startXfer, finishXfer, busPinsIdle, driveLine, setLine, lineOf, afterCommand,
      payloadBytes, payloadTrace, traceWave, eventWave]

/-! ### Protocol steps and their sequences (spec/45_command_protocol.md R240, R260) -/

/-- The state after init step `n`. -/
def afterInitStep (n : Fin 19) (ins : List Input) (s : State) : State :=
  afterCommand .init (BitVec.ofNat 8 n) s.cfg.initSequence[n].op (initData s.cfg n) ins { s with stepIx := BitVec.ofNat 8 n }

theorem runOps_initStep_ok {n : Fin 19} (hb : s.bus.isSome = true) (hc : s.dc.claimed = true) (hh : s.held = none)
    (hi : s.inputs = stepInputs ++ ins) :
    runOps k (initStep s.cfg n ++ rest) s = runOps k rest (afterInitStep n ins s) := by
  have h0 : initStep s.cfg n ++ rest = .setStep (BitVec.ofNat 8 n) :: .gate :: (sendCommand .init (BitVec.ofNat 8 n)
      s.cfg.initSequence[n].op (.const (initData s.cfg n)) ++ rest) := by
    simp only [initStep, protocolStep, initEntry, initData, if_pos, List.append_nil, List.cons_append]
  rw [h0, runOps_done rfl]
  exact runOps_sendCommand_ok rfl hb hc hh hi

/-- What an undisturbed outside world does for a list of init steps, each behind a gate. -/
def initStepInputs (ns : List (Fin 19)) : List Input :=
  ns.flatMap (fun _ => .work :: stepInputs)

/-- What a list of init steps comes to. -/
def afterInitSteps (ins : List Input) : List (Fin 19) → State → State
  | [], s => s
  | n :: ns, s => afterInitSteps ins ns (afterInitStep n (initStepInputs ns ++ ins) s)

theorem runOps_gatedInitStep {n : Fin 19} (hb : s.bus.isSome = true) (hc : s.dc.claimed = true) (hh : s.held = none)
    (hi : s.inputs = .work :: (stepInputs ++ ins)) :
    runOps k (.gate :: (initStep s.cfg n ++ rest)) s = runOps k rest (afterInitStep n ins s) := by
  rw [runOps_gate hi]
  have h := runOps_initStep_ok (k := k) (rest := rest) (n := n) (ins := ins)
    (s := { s with inputs := stepInputs ++ ins }) (by exact hb) (by exact hc)
    (by exact hh) rfl
  exact h

theorem runOps_initSteps_ok (ns : List (Fin 19)) {cfg : Config} (hg : s.cfg = cfg) (hb : s.bus.isSome = true)
    (hc : s.dc.claimed = true) (hh : s.held = none) (hi : s.inputs = initStepInputs ns ++ ins) :
    runOps k (ns.flatMap (fun n => .gate :: initStep cfg n) ++ rest) s = runOps k rest (afterInitSteps ins ns s) := by
  induction ns generalizing s with
  | nil => rfl
  | cons n ns ih =>
    simp only [List.flatMap_cons, List.append_assoc, List.cons_append]
    subst hg
    rw [runOps_gatedInitStep hb hc hh (ins := initStepInputs ns ++ ins) (by rw [hi]; rfl), afterInitSteps]
    exact ih rfl hb rfl hh rfl

/-- The state after a list of init steps, at once: the wire of every step, its bytes, and where the last one left the
engine. -/
theorem afterInitSteps_eq (ns : List (Fin 19)) (n : Fin 19) (hc : s.dc.level = false) :
    afterInitSteps ins (ns ++ [n]) s = { s with
      stepIx := BitVec.ofNat 8 n
      trace := s.trace ++ (ns ++ [n]).flatMap (initTrace s.cfg)
      outcomes := s.outcomes ++ List.replicate (4 * ns.length + 4) .ok
      shifted := s.shifted ++ (ns ++ [n]).flatMap (fun m => frameCommand ⟨s.cfg.initSequence[m].op, initData s.cfg m⟩)
      wave := s.wave ++ traceWave s.cfg ((ns ++ [n]).flatMap (initTrace s.cfg)), moves := []
      dc := ⟨true, false⟩, pinDc := .driven false
      pinSclk := .driven (cpol s.cfg.spiMode), pinCsN := .driven true
      pinMosi := .driven (Config.drawBit (s.draws + (4 * ns.length + 3)))
      draws := s.draws + (4 * ns.length + 4), pos := ⟨.init, BitVec.ofNat 8 n, 3⟩, outstanding := none, inputs := ins } := by
  induction ns generalizing s with
  | nil =>
    simp only [List.nil_append, afterInitSteps, initStepInputs, List.flatMap_nil, afterInitStep, afterCommand]
    simp [initTrace, hc, frameCommand, List.replicate]
  | cons m ns ih =>
    have ho : [Answer.ok, .ok, .ok, .ok] ++ List.replicate (4 * ns.length + 4) .ok
        = List.replicate (4 * (ns.length + 1) + 4) .ok := by
      rw [show [Answer.ok, .ok, .ok, .ok] = List.replicate 4 .ok from rfl, List.replicate_append_replicate]
      congr 1
      omega
    have hd : s.draws + 4 + (4 * ns.length + 4) = s.draws + (4 * (ns.length + 1) + 4) := by omega
    have hm : s.draws + 4 + (4 * ns.length + 3) = s.draws + (4 * (ns.length + 1) + 3) := by omega
    have hw (a b : List WireEvent) : traceWave s.cfg a ++ traceWave s.cfg b = traceWave s.cfg (a ++ b) :=
      List.flatMap_append.symm
    rw [List.cons_append, afterInitSteps, ih rfl]
    simp only [afterInitStep, afterCommand, List.flatMap_cons, List.length_cons, initTrace, frameCommand, hc, List.append_assoc,
      ho, hd, hm, hw, List.cons_append]

/-- The state after a paint step with a payload of these bytes, its delay over. -/
def afterPaintStep (n : BitVec 8) (op : Byte) (data : List Byte) (ms : BitVec 16) (ins : List Input) (s : State) : State :=
  { s with
    stepIx := n, trace := s.trace ++ (.xfer s.dc.level [op] :: payloadTrace data ++ [.delay ms])
    outcomes := s.outcomes ++ [.ok, .ok, .ok, .ok]
    shifted := s.shifted ++ ⟨s.dc.level, op⟩ :: data.map (fun b => ⟨true, b⟩)
    dc := ⟨true, false⟩, pinDc := .driven false
    wave := s.wave ++ traceWave s.cfg (.xfer s.dc.level [op] :: payloadTrace data ++ [.delay ms]), moves := []
    pinSclk := .driven (cpol s.cfg.spiMode), pinCsN := .driven true, pinMosi := .driven (Config.drawBit (s.draws + 3))
    dly := 0, draws := s.draws + 4, pos := ⟨.paint, n, 3⟩, outstanding := none, inputs := ins }

/-- A paint step with a payload. -/
theorem runOps_paintPayload_ok {n : BitVec 8} {op : Byte} {p : Payload} {data : List Byte} {ms : BitVec 16}
    (hp : p.isAbsent = false) (hd : payloadBytes { s with draws := s.draws + 2 } p = data) (hb : s.bus.isSome = true)
    (hc : s.dc.claimed = true) (hh : s.held = none)
    (hi : s.inputs = stepInputs ++ .work :: (List.replicate ms.toNat .tick ++ ins)) :
    runOps k (.setStep n :: .gate :: (sendCommand .paint n op p ++ .gate :: (waitFor ms ++ rest))) s
      = runOps k rest (afterPaintStep n op data ms ins s) := by
  have hd' : payloadBytes { s with stepIx := n, draws := s.draws + 2 } p = data := by
    rw [← hd]
    cases p <;> rfl
  have h := runOps_sendCommand_ok (k := k) (rest := .gate :: (waitFor ms ++ rest)) (ph := .paint) (n := n) (op := op) (p := p)
    (s := { s with stepIx := n }) (ins := .work :: (List.replicate ms.toNat .tick ++ ins)) hp (by exact hb) (by exact hc) (by exact hh)
    (by exact hi)
  rw [runOps_done rfl]
  refine h.trans ?_
  rw [hd', runOps_gate rfl, runOps_waitFor (ins := ins) (by exact rfl)]
  simp [afterCommand, afterPaintStep, traceWave, eventWave]

/-- The state after power-on. -/
def afterPowerOn (ins : List Input) (s : State) : State :=
  { s with
    stepIx := 1, trace := s.trace ++ [.xfer s.dc.level [s.cfg.opPon], .delay 1000], outcomes := s.outcomes ++ [.ok]
    shifted := s.shifted ++ [⟨s.dc.level, s.cfg.opPon⟩]
    wave := s.wave ++ transferMoves s.cfg.spiMode s.cfg.csPulsed [s.cfg.opPon], moves := []
    pinSclk := .driven (cpol s.cfg.spiMode), pinCsN := .driven true, pinMosi := .driven (Config.drawBit (s.draws + 1))
    dly := 0, draws := s.draws + 2, pos := ⟨.paint, 1, 0⟩, outstanding := none, inputs := ins }

/-- Power-on, which has no payload. -/
theorem runOps_paint1_ok (hb : s.bus.isSome = true) (hh : s.held = none)
    (hi : s.inputs = .work :: .answer .ok :: .work :: (List.replicate (1000 : BitVec 16).toNat .tick ++ ins)) :
    runOps k (paintStep s.cfg 1 ++ rest) s = runOps k rest (afterPowerOn ins s) := by
  have h0 : paintStep s.cfg 1 ++ rest = .setStep 1 :: .gate :: (microOp ⟨.paint, 1, 0⟩ (.xfer (.const [s.cfg.opPon]))
      ++ .gate :: (waitFor 1000 ++ rest)) := rfl
  have h := runOps_opcode_ok (k := k) (rest := .gate :: (waitFor 1000 ++ rest)) (ph := .paint) (n := 1) (op := s.cfg.opPon)
    (s := { s with stepIx := 1, inputs := .answer .ok :: .work :: (List.replicate (1000 : BitVec 16).toNat .tick ++ ins) })
    (ins := .work :: (List.replicate (1000 : BitVec 16).toNat .tick ++ ins)) (by exact hb) (by exact hh) rfl
  rw [h0, runOps_done rfl, runOps_gate (by exact hi)]
  refine h.trans ?_
  rw [runOps_gate rfl, runOps_waitFor (ins := ins) (by exact rfl)]
  simp only [afterOpcode, afterXfer, afterPowerOn, answered, List.append_assoc, List.cons_append, List.nil_append,
    List.map_cons, List.map_nil]

/-- The other paint steps. -/
theorem runOps_paintStep_ok {n : Fin 4} (hn : n ≠ 1) (hb : s.bus.isSome = true)
    (hc : s.dc.claimed = true) (hh : s.held = none)
    (hi : s.inputs = stepInputs ++ .work :: (List.replicate (paintDelay n).toNat .tick ++ ins)) :
    runOps k (paintStep s.cfg n ++ rest) s
      = runOps k rest (afterPaintStep (BitVec.ofNat 8 n) (paintOp s.cfg n) (paintData s n) (paintDelay n) ins s) := by
  fin_cases n
  · exact runOps_paintPayload_ok (p := .frame) (op := s.cfg.opDtm) (ms := 1000) rfl rfl hb hc hh hi
  · exact absurd rfl hn
  · exact runOps_paintPayload_ok (p := .const [s.cfg.drfData]) (op := s.cfg.opDrf) (ms := 35000) rfl rfl hb hc hh hi
  · exact runOps_paintPayload_ok (p := .const [s.cfg.pofData]) (op := s.cfg.opPof) (ms := 1000) rfl rfl hb hc hh hi

/-! ### Acquisition, reset and release -/

/-- The state after an acquisition (spec/46_display_driver.md R284). -/
def afterAcquire (ins : List Input) (s : State) : State :=
  { s with
    act := .acquire, bus := some ⟨s.cfg.spiMode, s.cfg.spiClockHz⟩, rst := ⟨true, false⟩, dc := ⟨true, false⟩
    pinRst := .driven false, pinDc := .driven false, pinSclk := .driven (cpol s.cfg.spiMode), pinCsN := .driven true
    pinMosi := .driven (Config.drawBit s.draws), draws := s.draws + 1
    trace := s.trace ++ acquireTrace s.cfg, outcomes := s.outcomes ++ [.ok, .ok, .ok]
    pos := ⟨.acquire, 2, 0⟩, outstanding := none, inputs := ins }

theorem runOps_acquire_ok (hh : s.held = none) (hi : s.inputs = calmInputs acquireSequence ++ ins) :
    runOps k (acquireSequence ++ rest) s = runOps k rest (afterAcquire ins s) := by
  have hi' : s.inputs = .work :: .work :: .answer .ok :: .work :: .answer .ok :: .work :: .answer .ok :: ins := hi
  simp [acquireSequence, microOp, runOps, perform, perfGate, perfRequest, perfAwait, perfCheck, hh, hi', admits, settleEvent,
    effectOk, issueEvent, emitEvent, busPinsIdle, setLine, afterAcquire, acquireTrace]

/-- The state after a reset sequence (spec/45_command_protocol.md R235, R236). -/
def afterReset (ins : List Input) (s : State) : State :=
  { s with
    pstate := .resetting, stepIx := 0, rst := ⟨true, true⟩, dc := ⟨true, false⟩
    pinRst := .driven true, pinDc := .driven false, dly := 0
    trace := s.trace ++ resetTrace, outcomes := s.outcomes ++ [.ok, .ok, .ok, .ok]
    pos := ⟨.reset, 0, 3⟩, outstanding := none, inputs := ins }

/-- A write of the reset line and the wait after it (R235). -/
theorem runOps_resetPulse {u : BitVec 4} {v : Bool} {ms : BitVec 16} (hr : s.rst.claimed = true) (hh : s.held = none)
    (hi : s.inputs = .work :: .answer .ok :: .work :: (List.replicate ms.toNat .tick ++ ins)) :
    runOps k (resetPulse u v ms ++ rest) s
      = runOps k rest { s with
          rst := ⟨true, v⟩, pinRst := .driven v, dly := 0, trace := s.trace ++ [.lineSet .rst v, .delay ms]
          outcomes := s.outcomes ++ [.ok], pos := ⟨.reset, 0, u⟩, outstanding := none, inputs := ins } := by
  simp [resetPulse, microOp, waitFor, runOps, perform, perfGate, perfRequest, perfAwait, perfCheck, perfTimer, hr, hh, hi, admits, settleEvent,
    effectOk, issueEvent, emitEvent, startDelay, driveLine, setLine, lineOf, countDown_replicate]

/-- The start of a reset sequence: PSTATE RESETTING and the command/data line driven low (R235). -/
theorem runOps_resetStart (hd : s.dc.claimed = true) (hh : s.held = none)
    (hi : s.inputs = .work :: .work :: .answer .ok :: ins) :
    runOps k (.gate :: .setPState .resetting :: .gate :: (microOp ⟨.reset, 0, 0⟩ (.lineSet .dc false) ++ rest)) s
      = runOps k rest { s with
          pstate := .resetting, stepIx := 0, dc := ⟨true, false⟩, pinDc := .driven false
          trace := s.trace ++ [.lineSet .dc false], outcomes := s.outcomes ++ [.ok], pos := ⟨.reset, 0, 0⟩
          outstanding := none, inputs := ins } := by
  simp [microOp, runOps, perform, perfGate, perfRequest, perfAwait, perfCheck, hd, hh, hi, admits, settleEvent,
    effectOk, issueEvent, emitEvent, driveLine, setLine, lineOf]

/-- What an undisturbed outside world does for a reset sequence. -/
theorem calmInputs_resetSequence : calmInputs resetSequence = resetInputsAll := by
  have h1 : (100 : BitVec 16).toNat = 100 := rfl
  have h2 : (1000 : BitVec 16).toNat = 1000 := rfl
  simp only [calmInputs, resetSequence, resetPulse, microOp, waitFor, List.flatMap_cons, List.flatMap_nil, calmInput,
    List.cons_append, List.nil_append, List.append_assoc, List.append_nil, resetInputsAll, resetInputs, h1, h2]

theorem runOps_reset_ok (hr : s.rst.claimed = true) (hd : s.dc.claimed = true) (hh : s.held = none)
    (hi : s.inputs = calmInputs resetSequence ++ ins) :
    runOps k (resetSequence ++ rest) s = runOps k rest (afterReset ins s) := by
  have hi' : s.inputs = .work :: .work :: .answer .ok :: (.work :: .answer .ok :: .work :: (List.replicate (100 : BitVec 16).toNat .tick
      ++ (.work :: .answer .ok :: .work :: (List.replicate (100 : BitVec 16).toNat .tick
      ++ (.work :: .answer .ok :: .work :: (List.replicate (1000 : BitVec 16).toNat .tick ++ ins)))))) := by
    rw [hi]
    simp only [calmInputs, resetSequence, resetPulse, microOp, waitFor, List.flatMap_cons, List.flatMap_nil,
      calmInput, List.cons_append, List.nil_append, List.append_assoc, List.append_nil]
  have h0 : resetSequence ++ rest = .gate :: .setPState .resetting :: .gate :: (microOp ⟨.reset, 0, 0⟩ (.lineSet .dc false)
      ++ (resetPulse 1 true 100 ++ (resetPulse 2 false 100 ++ (resetPulse 3 true 1000 ++ rest)))) := by
    simp only [resetSequence, List.append_assoc, List.cons_append, List.nil_append]
  rw [h0, runOps_resetStart hd hh hi', runOps_resetPulse (by exact hr) (by exact hh) rfl,
    runOps_resetPulse rfl (by exact hh) rfl, runOps_resetPulse rfl (by exact hh) rfl]
  simp only [afterReset, resetTrace, List.append_assoc, List.cons_append, List.nil_append]

/-- The state after a release and the end of the operation (spec/46_display_driver.md R283, R286). -/
def afterRelease (success : Bool) (ins : List Input) (s : State) : State :=
  { s with
    act := .idle, statusDone := success, statusErr := !success, busy := false, todo := []
    bus := none, rst := .released, dc := .released
    pinRst := .undriven, pinDc := .undriven, pinSclk := .undriven, pinMosi := .undriven, pinCsN := .undriven
    trace := s.trace ++ releaseTrace, inputs := ins }

theorem runOps_release_ok (hi : s.inputs = calmInputs releaseSequence ++ ins) :
    runOps k releaseSequence s = .next (afterRelease true ins s) := by
  have hi' : s.inputs = .work :: .work :: .work :: .work :: .work :: ins := hi
  simp [releaseSequence, runOps, perform, perfGate, perfRequest, hi', afterRelease, finishOperation, closeBus,
    busPinsUndriven, releaseLine, setLine, emitEvent, releaseTrace]

/-! ### The whole init and paint sequences -/

/-- The state after an init sequence (spec/45_command_protocol.md R240). -/
def afterInit (ins : List Input) (s : State) : State :=
  { s with
    pstate := .initialized, stepIx := 18, trace := s.trace ++ (List.finRange 19).flatMap (initTrace s.cfg)
    outcomes := s.outcomes ++ List.replicate 76 .ok
    shifted := s.shifted ++ (List.finRange 19).flatMap (fun m => frameCommand ⟨s.cfg.initSequence[m].op, initData s.cfg m⟩)
    dc := ⟨true, false⟩, pinDc := .driven false, pinSclk := .driven (cpol s.cfg.spiMode), pinCsN := .driven true
    wave := s.wave ++ traceWave s.cfg ((List.finRange 19).flatMap (initTrace s.cfg)), moves := []
    pinMosi := .driven (Config.drawBit (s.draws + 75)), draws := s.draws + 76, pos := ⟨.init, 18, 3⟩
    outstanding := none, inputs := ins }

theorem calmInputs_initSequence (cfg : Config) :
    calmInputs (initSequence cfg) = .work :: initStepInputs (List.finRange 19) := by
  have h : ∀ n : Fin 19, calmInputs (.gate :: initStep cfg n) = .work :: stepInputs :=
    fun _ => rfl
  simp only [calmInputs] at h ⊢
  simp only [initSequence, initStepInputs, List.flatMap_append, List.flatMap_assoc, h]
  rfl

theorem runOps_init_ok {cfg : Config} (hg : s.cfg = cfg) (hb : s.bus.isSome = true) (hc : s.dc = ⟨true, false⟩)
    (hh : s.held = none) (hi : s.inputs = calmInputs (initSequence cfg) ++ ins) :
    runOps k (initSequence cfg ++ rest) s = runOps k rest (afterInit ins s) := by
  subst hg
  rw [calmInputs_initSequence, List.cons_append] at hi
  have h0 : initSequence s.cfg ++ rest = .gate :: .setPState .initialized :: ((List.finRange 19).flatMap
      (fun n => .gate :: initStep s.cfg n) ++ rest) := rfl
  have h1 : List.finRange 19 = (List.finRange 19).dropLast ++ [18] := by decide
  have h2 := runOps_initSteps_ok (k := k) (rest := rest) (ins := ins) (List.finRange 19) (cfg := s.cfg)
    (s := { s with pstate := .initialized, stepIx := 0, inputs := initStepInputs (List.finRange 19) ++ ins }) rfl
    (by exact hb) (by exact (congrArg LineState.claimed hc)) (by exact hh) rfl
  rw [h0, runOps_enter hi]
  refine h2.trans ?_
  rw [h1, afterInitSteps_eq _ _ (by exact (congrArg LineState.level hc)), ← h1]
  rfl

/-- The state after a paint sequence that sends `frame` (R260, R275). -/
def afterPaint (frame : List Byte) (ins : List Input) (s : State) : State :=
  { s with
    pstate := .settled, stepIx := 0, trace := s.trace ++ (List.finRange 4).flatMap (paintTrace s.cfg frame)
    outcomes := s.outcomes ++ List.replicate 13 .ok
    shifted := s.shifted ++ ([⟨s.cfg.opDtm, frame⟩, ⟨s.cfg.opPon, []⟩, ⟨s.cfg.opDrf, [s.cfg.drfData]⟩,
      ⟨s.cfg.opPof, [s.cfg.pofData]⟩] : List WireCommand).flatMap frameCommand
    dc := ⟨true, false⟩, pinDc := .driven false, pinSclk := .driven (cpol s.cfg.spiMode), pinCsN := .driven true
    wave := s.wave ++ traceWave s.cfg ((List.finRange 4).flatMap (paintTrace s.cfg frame)), moves := []
    pinMosi := .driven (Config.drawBit (s.draws + 13)), dly := 0, draws := s.draws + 14, pos := ⟨.paint, 3, 3⟩
    outstanding := none, inputs := ins }

/-- What an undisturbed outside world does for paint step `n`, its gate included. -/
def paintStepInputs (n : Fin 4) : List Input :=
  .work :: ((if n = 1 then [.work, .answer .ok] else stepInputs) ++ .work :: List.replicate (paintDelay n).toNat .tick)

theorem calmInputs_paintStep (cfg : Config) (n : Fin 4) : calmInputs (.gate :: paintStep cfg n) = paintStepInputs n := by
  have h (m : BitVec 8) (op : Byte) (p : Payload) (ms : BitVec 16) :
      calmInputs (.gate :: .setStep m :: .gate :: (sendCommand .paint m op p ++ .gate :: waitFor ms))
        = .work :: ((if p.isAbsent then [.work, .answer .ok] else stepInputs) ++ .work :: List.replicate ms.toNat .tick) := by
    cases hp : p.isAbsent <;>
      simp [calmInputs, sendCommand, microOp, waitFor, calmInput, stepInputs, hp]
  fin_cases n
  · exact h 0 cfg.opDtm .frame 1000
  · exact h 1 cfg.opPon .absent 1000
  · exact h 2 cfg.opDrf (.const [cfg.drfData]) 35000
  · exact h 3 cfg.opPof (.const [cfg.pofData]) 1000

theorem calmInputs_paintSequence (cfg : Config) :
    calmInputs (paintSequence cfg) = .work :: (paintStepInputs 0 ++ (paintStepInputs 1 ++ (paintStepInputs 2
      ++ (paintStepInputs 3 ++ [.work])))) := by
  have h := calmInputs_paintStep cfg
  simp only [calmInputs] at h ⊢
  simp only [paintSequence, List.flatMap_append, List.flatMap_assoc, h]
  simp only [show List.finRange 4 = [0, 1, 2, 3] from rfl, List.flatMap_cons, List.flatMap_nil, calmInput, List.cons_append,
    List.nil_append, List.append_assoc, List.append_nil]

/-- A paint step with a payload behind its gate. -/
theorem runOps_gatedPaintStep {n : Fin 4} {cfg : Config} (hg : s.cfg = cfg) (hn : n ≠ 1) (hb : s.bus.isSome = true)
    (hc : s.dc.claimed = true) (hh : s.held = none) (hi : s.inputs = paintStepInputs n ++ ins) :
    runOps k (.gate :: (paintStep cfg n ++ rest)) s
      = runOps k rest (afterPaintStep (BitVec.ofNat 8 n) (paintOp cfg n) (paintData s n) (paintDelay n) ins s) := by
  subst hg
  have hi' : s.inputs = .work :: (stepInputs ++ .work :: (List.replicate (paintDelay n).toNat .tick ++ ins)) := by
    rw [hi, paintStepInputs, if_neg hn, List.cons_append, List.append_assoc, List.cons_append]
  have hd : paintData { s with inputs := stepInputs ++ .work :: (List.replicate (paintDelay n).toNat .tick ++ ins) } n = paintData s n := by fin_cases n <;> rfl
  have h := runOps_paintStep_ok (k := k) (rest := rest) (ins := ins) hn
    (s := { s with inputs := stepInputs ++ .work :: (List.replicate (paintDelay n).toNat .tick ++ ins) }) (by exact hb) (by exact hc) (by exact hh) rfl
  rw [hd] at h
  rw [runOps_gate hi']
  exact h

/-- Power-on behind its gate. -/
theorem runOps_gatedPaint1 {cfg : Config} (hg : s.cfg = cfg) (hb : s.bus.isSome = true) (hh : s.held = none)
    (hi : s.inputs = paintStepInputs 1 ++ ins) :
    runOps k (.gate :: (paintStep cfg 1 ++ rest)) s = runOps k rest (afterPowerOn ins s) := by
  subst hg
  have hi' : s.inputs = .work :: .work :: .answer .ok :: .work :: (List.replicate (1000 : BitVec 16).toNat .tick ++ ins) := by
    rw [hi, paintStepInputs, if_pos rfl, List.cons_append, List.append_assoc]
    rfl
  have h := runOps_paint1_ok (k := k) (rest := rest) (ins := ins)
    (s := { s with inputs := .work :: .answer .ok :: .work :: (List.replicate (1000 : BitVec 16).toNat .tick ++ ins) }) (by exact hb)
    (by exact hh) rfl
  rw [runOps_gate hi']
  exact h

/-- The four paint steps, each behind its gate. -/
theorem runOps_paintSteps {cfg : Config} (hg : s.cfg = cfg) (hb : s.bus.isSome = true) (hc : s.dc.claimed = true)
    (hh : s.held = none)
    (hi : s.inputs = paintStepInputs 0 ++ (paintStepInputs 1 ++ (paintStepInputs 2 ++ (paintStepInputs 3 ++ ins)))) :
    runOps k (.gate :: (paintStep cfg 0 ++ (.gate :: (paintStep cfg 1 ++ (.gate :: (paintStep cfg 2 ++ (.gate ::
        (paintStep cfg 3 ++ rest)))))))) s
      = runOps k rest (afterPaintStep 3 cfg.opPof [cfg.pofData] 1000 ins (afterPaintStep 2 cfg.opDrf [cfg.drfData] 35000
          (paintStepInputs 3 ++ ins) (afterPowerOn (paintStepInputs 2 ++ (paintStepInputs 3 ++ ins))
            (afterPaintStep 0 cfg.opDtm (paintData s 0) 1000
              (paintStepInputs 1 ++ (paintStepInputs 2 ++ (paintStepInputs 3 ++ ins))) s)))) := by
  have h2 (t : State) (e : t.cfg = cfg) : paintData t 2 = [cfg.drfData] := by simp only [paintData, e]
  have h3 (t : State) (e : t.cfg = cfg) : paintData t 3 = [cfg.pofData] := by simp only [paintData, e]
  have e0 := runOps_gatedPaintStep (k := k) (rest := .gate :: (paintStep cfg 1 ++ (.gate :: (paintStep cfg 2 ++ (.gate ::
    (paintStep cfg 3 ++ rest)))))) (n := 0) hg (by decide) hb hc hh hi
  have e1 := runOps_gatedPaint1 (k := k) (rest := .gate :: (paintStep cfg 2 ++ (.gate :: (paintStep cfg 3 ++ rest))))
    (cfg := cfg) (ins := paintStepInputs 2 ++ (paintStepInputs 3 ++ ins)) (s := afterPaintStep 0 cfg.opDtm (paintData s 0)
      1000 (paintStepInputs 1 ++ (paintStepInputs 2 ++ (paintStepInputs 3 ++ ins))) s) hg hb hh rfl
  have e2 := runOps_gatedPaintStep (k := k) (rest := .gate :: (paintStep cfg 3 ++ rest)) (n := 2) (cfg := cfg)
    (ins := paintStepInputs 3 ++ ins) (s := afterPowerOn (paintStepInputs 2 ++ (paintStepInputs 3 ++ ins))
      (afterPaintStep 0 cfg.opDtm (paintData s 0) 1000
        (paintStepInputs 1 ++ (paintStepInputs 2 ++ (paintStepInputs 3 ++ ins))) s)) hg (by decide) hb rfl hh rfl
  have e3 := runOps_gatedPaintStep (k := k) (rest := rest) (n := 3) (cfg := cfg) (ins := ins)
    (s := afterPaintStep 2 cfg.opDrf [cfg.drfData] 35000 (paintStepInputs 3 ++ ins)
      (afterPowerOn (paintStepInputs 2 ++ (paintStepInputs 3 ++ ins)) (afterPaintStep 0 cfg.opDtm (paintData s 0) 1000
        (paintStepInputs 1 ++ (paintStepInputs 2 ++ (paintStepInputs 3 ++ ins))) s))) hg (by decide) hb rfl hh rfl
  rw [h2 (afterPowerOn _ (afterPaintStep _ _ _ _ _ s)) hg] at e2
  rw [h3 (afterPaintStep _ _ _ _ _ (afterPowerOn _ (afterPaintStep _ _ _ _ _ s))) hg] at e3
  exact e0.trans (e1.trans (e2.trans e3))

theorem runOps_paint_ok {cfg : Config} {frame : List Byte} (hg : s.cfg = cfg)
    (hf : bytesOrDraw s.mem (s.draws + 2) frameBase frameBytes = frame)
    (hb : s.bus.isSome = true) (hc : s.dc = ⟨true, false⟩) (hh : s.held = none)
    (hi : s.inputs = calmInputs (paintSequence cfg) ++ ins) :
    runOps k (paintSequence cfg ++ rest) s = runOps k rest (afterPaint frame ins s) := by
  subst hg
  rw [calmInputs_paintSequence, List.cons_append] at hi
  have h0 : paintSequence s.cfg ++ rest = .gate :: .setPState .painting :: (.gate :: (paintStep s.cfg 0 ++ (.gate ::
      (paintStep s.cfg 1 ++ (.gate :: (paintStep s.cfg 2 ++ (.gate :: (paintStep s.cfg 3 ++ (.gate :: .setPState .settled ::
        rest))))))))) := rfl
  have hl : s.dc.claimed = true := congrArg LineState.claimed hc
  simp only [List.append_assoc, List.cons_append, List.nil_append] at hi
  have h1 := runOps_paintSteps (k := k) (rest := .gate :: .setPState .settled :: rest) (cfg := s.cfg) (ins := .work :: ins)
    (s := { s with
      pstate := .painting, stepIx := 0
      inputs := paintStepInputs 0 ++ (paintStepInputs 1 ++ (paintStepInputs 2 ++ (paintStepInputs 3 ++ (.work :: ins)))) })
    rfl (by exact hb) (by exact hl) (by exact hh) rfl
  rw [h0, runOps_enter hi]
  refine h1.trans ((runOps_enter (ins := ins) ?_).trans ?_)
  · simp only [afterPaintStep]
  refine congrArg (runOps k rest) ?_
  simp only [afterPaint, afterPaintStep, afterPowerOn, paintData, hf, hc]
  simp [List.finRange_succ, paintTrace, payloadTrace, traceWave, eventWave, frameCommand, List.replicate]

/-! ### The pipeline -/

/-- The region the fit stores is the region the later parts read (spec/40_fit_resample.md R121, spec/10_state.md R35). -/
theorem fitRegion_bounds (w h : Nat) :
    (fitRegion w h).x0 ≤ 800 ∧ (fitRegion w h).y0 ≤ 480 ∧ (fitRegion w h).fw ≤ 800 ∧ (fitRegion w h).fh ≤ 480 := by
  unfold fitRegion canvasW canvasH
  split
  · rename_i hlt
    have h1 : 800 * h / w ≤ 480 := Nat.div_le_of_le_mul (by omega)
    have h2 : (480 - 800 * h / w) / 2 ≤ 480 := (Nat.div_le_self _ _).trans (Nat.sub_le _ _)
    exact ⟨Nat.zero_le _, h2, le_refl _, h1⟩
  · rename_i hge
    have h1 : 480 * w / h ≤ 800 := Nat.div_le_of_le_mul (by omega)
    have h2 : (800 - 480 * w / h) / 2 ≤ 800 := (Nat.div_le_self _ _).trans (Nat.sub_le _ _)
    exact ⟨h2, Nat.zero_le _, h1, le_refl _⟩

theorem pairWord_lo (hi lo : Nat) (h : lo < 65536) : ((pairWord hi lo).extractLsb' 0 16).toNat = lo := by
  simp only [pairWord, BitVec.extractLsb'_toNat, BitVec.toNat_append, BitVec.toNat_ofNat]
  rw [← Nat.shiftLeft_add_eq_or_of_lt (by omega), Nat.shiftLeft_eq]
  simp
  omega

theorem pairWord_hi (hi lo : Nat) (h : hi < 65536) : ((pairWord hi lo).extractLsb' 16 16).toNat = hi := by
  simp only [pairWord, BitVec.extractLsb'_toNat, BitVec.toNat_append, BitVec.toNat_ofNat]
  rw [← Nat.shiftLeft_add_eq_or_of_lt (by omega), Nat.shiftLeft_eq, Nat.shiftRight_eq_div_pow]
  simp
  omega

theorem storedRegion_storeFit (w h : Nat) (s : State) : storedRegion (storeFit (fitRegion w h) s) = fitRegion w h := by
  obtain ⟨h1, h2, h3, h4⟩ := fitRegion_bounds w h
  simp only [storedRegion, storeFit_fitOrigin, storeFit_fitSize]
  rw [pairWord_lo _ _ (by omega), pairWord_hi _ _ (by omega), pairWord_lo _ _ (by omega), pairWord_hi _ _ (by omega)]

/-- The state after a pipeline that completes. -/
def afterPipeline (ins : List Input) (s : State) : State :=
  { storeFit (fitRegion (srcW s) (srcH s)) s with
    ct := preparedCanvas s, errAcc := (preparedBuffers s).err, idx := (preparedBuffers s).idx
    mem := memWrite s.mem frameBase (preparedFrame s), inputs := ins }

theorem perform_pack (t : State) :
    perform .pack t = .done { t with mem := memWrite t.mem frameBase (packFrame t.idx) } := by
  rw [perform, perfPack]

/-- The whole pipeline over any canvases, buffers and frame that its parts compute. -/
theorem runOps_pipelineParts {g ct : Array Rgb} {b : DitherBuffers} {fr : List Byte} {r : Region}
    (hd : dimensionError s.cfg.srcmemWords (srcW s) (srcH s) = none)
    (hu : unwrittenWord s.mem (srcW s * srcH s) = none) (hr : fitRegion (srcW s) (srcH s) = r)
    (hsr : storedRegion (storeFit r s) = r) (hg : backgroundCanvas s.cfg = g)
    (hct : resampleCanvas (sourcePixel s.mem (srcW s)) (srcW s) (srcH s) r g = ct) (hb : ditherPass s.cfg.palette r ct = b)
    (hf : packFrame b.idx = fr) (hi : s.inputs = .work :: .work :: .work :: .work :: .work :: .work :: ins) :
    runOps k (.gate :: .dimensionCheck :: .gate :: .fit :: .gate :: .background :: .gate :: .resample :: .gate :: .dither ::
        .gate :: .pack :: rest) s
      = runOps k rest { storeFit r s with
          ct := ct, errAcc := b.err, idx := b.idx, mem := memWrite s.mem frameBase fr, inputs := ins } := by
  simp only [storedRegion, storeFit] at hsr
  simp only [srcW, srcH] at hd hu hr hct
  simp only [runOps, perform, perfGate, perfDimensionCheck, perfFit, perfBackground, perfResample, perfDither, perfPack,
    storedRegion, storeFit, srcW, srcH, hi, hd, hu, hr, hsr, hg, hct, hb, hf]

theorem runOps_pipeline_ok (hs : sourceReady s) (hi : s.inputs = calmInputs pipelineSequence ++ ins) :
    runOps k (pipelineSequence ++ rest) s = runOps k rest (afterPipeline ins s) :=
  runOps_pipelineParts ((Laws.Pipeline.dimensionError_eq_none _ _ _).mpr hs.1)
    ((Laws.Pipeline.unwrittenWord_eq_none _ _).mpr hs.2) rfl (storedRegion_storeFit _ _ _) rfl rfl rfl rfl hi

/-! ### The abort path (spec/60_exceptions.md R305) -/

theorem runAbort_eq (hi : s.inputs = List.replicate (heldCount s + 1) .work ++ ins) :
    runAbort s = .next (afterAbort ins s) := by
  obtain hd | hd := Bool.eq_false_or_eq_true s.dc.claimed <;> obtain hr | hr := Bool.eq_false_or_eq_true s.rst.claimed <;>
    rcases hb : s.bus with _ | b <;>
    simp [runAbort, abortSequence, heldCount, hd, hr, hb, List.replicate_succ, runOps, perform, perfGate, perfRequest,
      releaseLine, closeBus, busPinsUndriven, finishOperation, setLine, emitEvent, afterAbort, heldReleases] at hi ⊢ <;>
    simp [hi]

end Sys2Proof.Machine
end

