-- ==== Sys2Proof/Laws/Wire.lean ====
section
/-! SUPPORT. What the pin changes of a transfer are made of, one lemma for each operation (spec/44_serial_bus.md R203, R204, R210
to R212). -/

namespace Sys2Proof.Laws.Wire

open Sys2Proof Sys2Proof.Machine

/-! ### Levels -/

@[simp] theorem levelAfter_nil (level : PinMove → Option Bool) (before : Bool) : levelAfter level before [] = before := rfl

@[simp] theorem levelAfter_cons (level : PinMove → Option Bool) (before : Bool) (m : PinMove) (rest : List PinMove) :
    levelAfter level before (m :: rest) = levelAfter level ((level m).getD before) rest := rfl

@[simp] theorem levelAfter_append (level : PinMove → Option Bool) (before : Bool) (a b : List PinMove) :
    levelAfter level before (a ++ b) = levelAfter level (levelAfter level before a) b := List.foldl_append

/-- A bit leaves SCLK at its idle level and CS_N as it was. -/
theorem bitMoves_sclk (mode : BitVec 2) (b before : Bool) :
    levelAfter PinMove.sclkLevel before (bitMoves mode b) = cpol mode := by
  unfold bitMoves
  split <;> simp [PinMove.sclkLevel]

theorem bitMoves_csN (mode : BitVec 2) (b before : Bool) :
    levelAfter PinMove.csNLevel before (bitMoves mode b) = before := by
  unfold bitMoves
  split <;> simp [PinMove.csNLevel]

/-! ### Edges -/

@[simp] theorem sclkEdges_nil : sclkEdges [] = 0 := rfl

@[simp] theorem sclkEdges_append (a b : List PinMove) : sclkEdges (a ++ b) = sclkEdges a + sclkEdges b :=
  List.countP_append

theorem sclkEdges_bitMoves (mode : BitVec 2) (b : Bool) : sclkEdges (bitMoves mode b) = 2 := by
  unfold bitMoves
  split <;> rfl

/-- A byte has 16 changes of SCLK. -/
theorem sclkEdges_chunkMoves (mode : BitVec 2) (chunk : List Byte) : sclkEdges (chunkMoves mode chunk) = 16 * chunk.length := by
  have hbits (bits : List Bool) : sclkEdges (bits.flatMap (bitMoves mode)) = 2 * bits.length := by
    induction bits with
    | nil => rfl
    | cons b bits ih => simp [ih, sclkEdges_bitMoves]; omega
  rw [chunkMoves, hbits]
  induction chunk with
  | nil => rfl
  | cons b chunk ih => simp [byteBits] at ih ⊢; omega

/-! ### Transfers -/

theorem transferMoves_nil (mode : BitVec 2) (pulsed : Bool) : transferMoves mode pulsed [] = [] := rfl

/-- What is taken is the beginning of what there is. -/
theorem takeEdges_prefix (n : Nat) (moves : List PinMove) : takeEdges n moves <+: moves := by
  induction moves generalizing n with
  | nil => cases n <;> exact List.nil_prefix
  | cons m rest ih =>
    cases n with
    | zero => exact List.nil_prefix
    | succ n => cases m <;> simp only [takeEdges, List.cons_prefix_cons, true_and] <;> exact ih _

/-- A failed transfer makes the first of its changes, at least those that had been made (spec/44_serial_bus.md R203). -/
theorem failedMoves_prefix (all : List PinMove) (made more : Nat) : failedMoves all made more <+: all := by
  obtain ⟨rest, h⟩ := takeEdges_prefix ((16 - sclkEdges (all.take (made + more)) % 16) % 16) (all.drop (made + more))
  refine ⟨rest, ?_⟩
  simp only [failedMoves, List.append_assoc, h, List.take_append_drop]

theorem take_prefix_failedMoves (all : List PinMove) (made more : Nat) : all.take made <+: failedMoves all made more :=
  (List.take_prefix_take_left (Nat.le_add_right made more)).trans (List.prefix_append _ _)

end Sys2Proof.Laws.Wire
end

