-- ==== Sys2Proof/Tests/Slice0.lean ====
section
/-! SUPPORT. Tests: ill-formed terms that WellFormed refuses, words written out from the spec's encodings, vectors of
spec/95_test_vectors.md, one-step runs, and for every statement with hypotheses a witness that meets them. Every expected
value is taken from the spec, not from the model. -/

namespace Sys2Proof.Tests

open Sys2Proof Sys2Proof.Machine

/-! ### Small states -/

/-- A block with the candidate palette of spec/93_implementation_defined.md I3 and a short step ROM. -/
def block : Config where
  palette := #v[⟨0, 0, 0⟩, ⟨255, 255, 255⟩, ⟨0, 255, 0⟩, ⟨0, 0, 255⟩, ⟨255, 0, 0⟩, ⟨255, 255, 0⟩, ⟨255, 140, 0⟩]
  initSequence := Vector.replicate 19 ⟨0xAA, 0x49, [0x55]⟩
  opDtm := 0x10
  opPon := 0x04
  opDrf := 0x12
  opPof := 0x02
  drfData := 0x00
  pofData := 0x00
  spiMode := 0
  spiClockHz := 1000000
  rstLine := ⟨0, 27⟩
  dcLine := ⟨0, 22⟩
  srcmemWords := 4
  tickExtraUs := 0
  csPulsed := false

/-- Idle, as after block reset, with these inputs to come. -/
def idle (ins : List Input) : State := { State.resetOf block with inputs := ins }

/-- Idle with a source image of dimensions `dim` whose first word is stored. -/
def loaded (dim : Word) (ins : List Input) : State :=
  { idle ins with srcDim := dim, mem := memWriteWord [] 0x100000 0xFF0000FF }

/-- In a run, with bus and lines held. -/
def running (ins : List Input) : State :=
  { idle ins with
    busy := true, act := .protocol, pstate := .initialized, bus := some ⟨0, 1000000⟩, rst := ⟨true, true⟩, dc := ⟨true, false⟩
    pinRst := .driven true, pinDc := .driven false, pinSclk := .driven false, pinCsN := .driven true }

/-- In a run, waiting for the outcome of a line write. -/
def waiting (ins : List Input) : State :=
  { running ins with outstanding := some (.lineSet .dc true), todo := [.await, .check] }

/-- The state an outcome leads to; a state that no test expects if there is none. -/
def next (o : StepOutcome) : State :=
  match o with
  | .next s => s
  | _ => { idle [] with draws := 999999 }

/-- The reason a step stops for, if it does. -/
def stops (o : StepOutcome) : Option (Fault ⊕ Refusal) :=
  match o with
  | .next _ => none
  | .fault f => some (.inl f)
  | .refused f => some (.inr f)

/-! ### WellFormed -/

theorem test_wf_illegal_refuses_prepare : (Instr.illegal 0x00000001).wf = false := by decide
theorem test_wf_illegal_refuses_render : (Instr.illegal 0x00000002).wf = false := by decide
theorem test_wf_illegal_admits : (Instr.illegal 0x00000101).wf = true := by decide
theorem test_wf_xfer_refuses_empty : (Instr.xfer []).wf = false := by decide
theorem test_wf_xfer_admits : (Instr.xfer [0x12]).wf = true := by decide

/-! ### Decoding: words written out from spec/30_encoding.md R90, R91; V-CMD-1 to V-CMD-6 -/

theorem test_decode_prepare : decode [0b00000001, 0, 0, 0] = .ok .prepare [] := by decide
theorem test_decode_render : decode [0b00000010, 0, 0, 0, 0xAA] = .ok .render [0xAA] := by decide
theorem test_decode_zero : decodeCmd 0x00000000 = .illegal 0x00000000 := by decide
theorem test_decode_three : decodeCmd 0x00000003 = .illegal 0x00000003 := by decide
theorem test_decode_reserved_bit : decodeCmd 0x00000101 = .illegal 0x00000101 := by decide
theorem test_decode_top_bit : decodeCmd 0x80000001 = .illegal 0x80000001 := by decide
theorem test_decode_ones : decodeCmd 0xFFFFFFFF = .illegal 0xFFFFFFFF := by decide
theorem test_decode_truncated : decode [0x01, 0x00] = .bad (.truncated 2) := by decide
theorem test_decodeTable : decodeTableWord 32 1 = some .prepare ∧ decodeTableWord 32 2 = some .render := by decide

/-- The step ROM's framing (R97): PAINT[1] is one byte, PAINT[2] two, told apart by DC alone. -/
theorem test_framing :
    deframe [⟨false, 0x04⟩, ⟨false, 0x12⟩, ⟨true, 0x00⟩] = some [⟨0x04, []⟩, ⟨0x12, [0x00]⟩] := by decide
theorem test_framing_refuses : deframe [⟨true, 0x00⟩, ⟨false, 0x04⟩] = none := by decide
theorem test_byte_order : wordBytes 0x44332211 = [0x11, 0x22, 0x33, 0x44] := by decide

/-! ### The pipeline's vectors -/

/-- V-FIT-1, 3, 4, 9, 10, 11. -/
theorem test_fit : fitRegion 2 1 = ⟨0, 40, 800, 400⟩ ∧ fitRegion 1 2 = ⟨280, 0, 240, 480⟩ ∧ fitRegion 801 1 = ⟨0, 240, 800, 0⟩
    ∧ fitRegion 801 480 = ⟨0, 0, 800, 479⟩ ∧ fitRegion 1 480 = ⟨399, 0, 1, 480⟩ ∧ fitRegion 1 481 = ⟨400, 0, 0, 480⟩ := by
  decide
/-- V-FIT-1: FIT_ORIGIN and FIT_SIZE. -/
theorem test_fit_registers : (storeFit (fitRegion 2 1) (idle [])).fitOrigin = 0x00280000
    ∧ (storeFit (fitRegion 2 1) (idle [])).fitSize = 0x01900320 := by decide
/-- V-AX-1 to V-AX-9, the corners. -/
theorem test_axis : axis 200 2 800 = ⟨0, 1, 1598, 2, 1600⟩ ∧ axis 0 2 800 = ⟨0, 1, 1600, 0, 1600⟩
    ∧ axis 799 2 800 = ⟨1, 1, 1600, 0, 1600⟩ ∧ axis 0 1 5 = ⟨0, 0, 10, 0, 10⟩ ∧ axis 0 3 2 = ⟨0, 1, 3, 1, 4⟩
    ∧ axis 1 3 2 = ⟨1, 2, 1, 3, 4⟩ ∧ axis 2 2 3 = ⟨1, 1, 6, 0, 6⟩ := by decide
/-- V-RS-4: 63.75 rounds to 64. -/
theorem test_blend : blendChannel ⟨0, 1, 3, 1, 4⟩ ⟨0, 0, 2, 0, 2⟩ 0 255 0 255 = 64 := by decide
/-- V-RS-3: the middle of the black-to-white ramp is 128. -/
theorem test_resample : resamplePixel (fun x _ => if x = 0 then ⟨0, 0, 0⟩ else ⟨255, 255, 255⟩) 2 1 ⟨0, 40, 800, 400⟩ 400 0
    = ⟨128, 128, 128⟩ := by rfl
/-- V-DQ-2 and V-DQ-3: division toward zero, and the clamp at both ends. -/
theorem test_working : workingValue ⟨128, 128, 128⟩ ⟨-100, 40, 0⟩ = ⟨122, 130, 128⟩
    ∧ workingValue ⟨255, 255, 255⟩ ⟨19, 579, -130⟩ = ⟨255, 255, 247⟩ ∧ workingChannel 0 (-17) = 0 := by decide
/-- V-DQ-4. -/
theorem test_nearest : nearest block.palette ⟨200, 30, 40⟩ = 4 ∧ nearest block.palette ⟨122, 130, 128⟩ = 6
    ∧ nearest block.palette ⟨255, 70, 0⟩ = 4 ∧ nearest block.palette ⟨0, 128, 0⟩ = 2 := by decide
/-- V-DQ-6, the first row of the 3 x 2 region: indices 4, 3, 3, and what it leaves in the second row. -/
theorem test_dither : let b := (List.range 3).foldl (fun b q => quantizePixel block.palette ⟨0, 0, 3, 2⟩
      #[⟨200, 30, 40⟩, ⟨122, 130, 128⟩, ⟨10, 10, 250⟩] b (q % 3) (q / 3)) ⟨Array.replicate 6 ⟨0, 0, 0⟩, Array.replicate 3 1⟩
    b.idx = #[4, 3, 3] ∧ b.err[3]? = some ⟨19, 579, -130⟩ ∧ b.err[4]? = some ⟨591, 961, -669⟩ := by decide +kernel
/-- V-PK-1: the even pixel is the high nibble. -/
theorem test_pack : packedByte #[4, 6] 0 = 0x46 := by decide
/-- V-PK-4. -/
theorem test_unpack : unpackPixel (fun _ => 0x63) 0 0 = 6 ∧ unpackPixel (fun _ => 0x63) 1 0 = 3 := by decide
/-- R211: most significant bit first. -/
theorem test_bit_order : byteBits 0x12 = [false, false, false, true, false, false, true, false] := by decide

/-! ### STATUS and ERROR words: V-ST, V-ERR, V-PR -/

theorem test_status_settled : statusWord { idle [] with statusDone := true, pstate := .settled } = 0x00000042 := by decide
/-- V-ST-6: during the payload transfer of INIT[7]. -/
theorem test_status_init : statusWord { running [] with stepIx := 7, dc := ⟨true, true⟩ } = 0x007F0721 := by decide
/-- V-PR-8. -/
theorem test_error_word : errorWord (errorOf ⟨.transferFailed, ⟨.init, 5, 2⟩⟩) = 0x00020596 := by decide
/-- V-RST-2: not wrapped. -/
theorem test_error_reset : errorWord (errorOf ⟨.lineWriteFailed, ⟨.reset, 0, 1⟩⟩) = 0x00010064 := by decide

/-! ### The host operations, one step each -/

/-- V-CMD-4. -/
theorem test_illegal : statusWord (next (step (idle [commandWrite 3]))) = 0x00000004
    ∧ errorWord (next (step (idle [commandWrite 3]))).error = 0x00000007 := by decide
/-- V-CMD-7: an illegal value written while BUSY is dropped and sets OVERRUN. -/
theorem test_illegal_busy : next (exec (.illegal 3) (running [])) = { running [] with overrun := true } := by decide
/-- V-CMD-1. -/
theorem test_prepare_accepted : statusWord (next (step ((idle []).withFetchWord 32 1))) = 0x00200001 := by decide
/-- V-ERR-1 and V-ERR-3. -/
theorem test_prepare_invalid :
    errorWord (next (exec .prepare (loaded 0x00010000 [.work, .work]))).error = 0x00000021
      ∧ errorWord (next (exec .prepare (loaded 0xFFFFFFFF [.work, .work]))).error = 0x00010021 := by decide
/-- V-ST-1; the first wire event waits for the engine's work. -/
theorem test_render_accepted : statusWord (next (step ((idle []).withFetchWord 32 2))) = 0x00200001 := by decide
/-- V-ERR-4: a RENDER straight after block reset. -/
theorem test_render_invalid : errorWord (next (exec .render (idle [.work, .work]))).error = 0x00000021
    ∧ (next (exec .render (idle [.work, .work]))).trace = [] := by decide

/-! ### The protocol steps -/

/-- The trace of an instruction run in a run, with these inputs. -/
def stepTrace (i : Instr) (ins : List Input) : List WireEvent := (next (exec i (running ins))).trace

/-- What R241 to R259 give for the wire of an init step. -/
def initWire : List WireEvent := [.xfer false [0xAA], .lineSet .dc true, .xfer true [0x49, 0x55], .lineSet .dc false]

theorem test_init0 : stepTrace .init0 stepInputs = initWire := by decide
theorem test_init1 : stepTrace .init1 stepInputs = initWire := by decide
theorem test_init2 : stepTrace .init2 stepInputs = initWire := by decide
theorem test_init3 : stepTrace .init3 stepInputs = initWire := by decide
theorem test_init4 : stepTrace .init4 stepInputs = initWire := by decide
theorem test_init5 : stepTrace .init5 stepInputs = initWire := by decide
theorem test_init6 : stepTrace .init6 stepInputs = initWire := by decide
theorem test_init7 : stepTrace .init7 stepInputs = initWire := by decide
theorem test_init8 : stepTrace .init8 stepInputs = initWire := by decide
theorem test_init9 : stepTrace .init9 stepInputs = initWire := by decide
theorem test_init10 : stepTrace .init10 stepInputs = initWire := by decide
theorem test_init11 : stepTrace .init11 stepInputs = initWire := by decide
theorem test_init12 : stepTrace .init12 stepInputs = initWire := by decide
theorem test_init13 : stepTrace .init13 stepInputs = initWire := by decide
theorem test_init14 : stepTrace .init14 stepInputs = initWire := by decide
theorem test_init15 : stepTrace .init15 stepInputs = initWire := by decide
theorem test_init16 : stepTrace .init16 stepInputs = initWire := by decide
theorem test_init17 : stepTrace .init17 stepInputs = initWire := by decide
theorem test_init18 : stepTrace .init18 stepInputs = initWire ∧ (next (exec .init18 (running []))).stepIx = 18 := by decide
/-- V-PR-10: both the payload and the DC-low write of step 5 fail, and the payload's error wins. -/
theorem test_init5_fails : errorWord (next (exec .init5 (running
    [.work, .answer .ok, .work, .answer .ok, .work, .answer (.fail .transferFailed), .work, .answer (.fail .lineWriteFailed)]))).error
      = 0x00020596 := by decide
/-- The frame data's opcode; nothing of the payload goes out before DC is high. -/
theorem test_paint0 : stepTrace .paint0 [.work, .answer .ok, .work] = [.xfer false [0x10], .lineSet .dc true] := by
  decide
/-- V-PR-13. -/
theorem test_paint1 : stepTrace .paint1 [.work, .answer .ok, .work] = [.xfer false [0x04], .delay 1000]
    ∧ errorWord (next (exec .paint1 (running [.work, .answer (.fail .transferFailed)]))).error = 0x000001B6 := by decide
theorem test_paint2 : stepTrace .paint2 (stepInputs ++ [.work])
    = [.xfer false [0x12], .lineSet .dc true, .xfer true [0x00], .lineSet .dc false, .delay 35000] := by decide
/-- V-PR-17: no delay after a failed DC-low write. -/
theorem test_paint3 : (next (exec .paint3 (running
    [.work, .answer .ok, .work, .answer .ok, .work, .answer .ok, .work, .answer (.fail .lineWriteFailed), .work, .work, .work,
      .work]))).trace
    = [.xfer false [0x02], .lineSet .dc true, .xfer true [0x00], .lineSet .dc false, .lineRelease .dc, .lineRelease .rst,
       .busClose] := by decide

/-! ### The wire micro-operations -/

/-- V-ACQ-2, and a bus that opens is held (STATUS bit 16). -/
theorem test_busOpen : errorWord (next (exec .busOpen (idle [.answer (.fail .configurationFailed)]))).error = 0x00000045
    ∧ (statusWord (next (exec .busOpen (idle [.answer .ok])))).getLsbD 16 = true := by decide
/-- R185's example: bit 17 set, bit 19 at 0; and V-ACQ-6. -/
theorem test_lineClaim : statusWord (next (exec (.lineClaim .rst) (idle [.answer .ok]))) = 0x00020000
    ∧ errorWord (next (exec (.lineClaim .dc) (idle [.answer (.fail .lineRequestFailed)]))).error = 0x00000243 := by decide
/-- R186's example: LineSet(DC, 1) sets STATUS bit 20. -/
theorem test_lineSet : (statusWord (next (exec (.lineSet .dc true) (running [.answer .ok])))).getLsbD 20 = true := by decide
/-- R187: a failed line write keeps the level. -/
theorem test_lineSet_fails :
    (statusWord (next (exec (.lineSet .dc true) (running [.answer (.fail .lineWriteFailed)])))).getLsbD 20 = false := by decide
/-- R188's example: LineRelease(DC) clears STATUS bits 18 and 20. -/
theorem test_lineRelease : let t := next (exec (.lineRelease .dc) { running [] with dc := ⟨true, true⟩ })
    (statusWord t).getLsbD 18 = false ∧ (statusWord t).getLsbD 20 = false ∧ t.pinDc = .undriven := by decide
/-- R202's example: Xfer(0, [0x12]) puts the byte on MOSI while DC is 0. -/
theorem test_xfer : (next (exec (.xfer [0x12]) (running [.answer .ok]))).shifted = [⟨false, 0x12⟩] := by decide
/-- R210, R211, R212 with SPI_MODE 0: CS_N falls; then the bits 0 and 0 of 0x12, each on MOSI before SCLK rises. After seven of these
changes SCLK is back at its idle level and CS_N is still low. -/
theorem test_xfer_pins : let s := next (exec (.xfer [0x12]) (running []))
    s.moves.take 7 = [.csN false, .mosi false, .sclk true, .sclk false, .mosi false, .sclk true, .sclk false]
      ∧ (next (step { s with inputs := [.edge] })).pinCsN = .driven false
      ∧ (next (step { s with inputs := [.edge] })).wave = [.csN false] := by decide
/-- R210 with SPI_MODE 3: SCLK idles high, the bit is put on MOSI by the falling edge and read on the rising one. -/
theorem test_bit_mode3 : bitMoves 3 true = [.sclk false, .mosi true, .sclk true] ∧ bitMoves 0 true = [.mosi true, .sclk true, .sclk false]
    ∧ bitMoves 1 true = [.sclk true, .mosi true, .sclk false] ∧ bitMoves 2 true = [.mosi true, .sclk false, .sclk true] := by
  decide
theorem test_busClose : (next (exec .busClose (running []))).bus = none
    ∧ (next (exec .busClose (running []))).pinCsN = .undriven := by decide
/-- R345: three counts need three TICKs. -/
theorem test_delay : (next (exec (.delay 3) (idle [.tick, .tick, .tick, .tick]))).inputs = [.tick]
    ∧ (next (exec (.delay 3) (idle [.tick, .tick]))).dly = 1 := by decide

/-! ### Witnesses: for each statement with hypotheses, a state and operands that meet them -/

theorem witness_DecodeEncodeAgree : (Instr.illegal 3).wf = true ∧ encodeCmd (.illegal 3) = some 3
    ∧ Instr.prepare.wf = true ∧ encodeCmd .prepare = some 1 ∧ Instr.render.wf = true ∧ encodeCmd .render = some 2 := by decide
theorem witness_ExactlyTwoCommands : (3 : Word) ≠ 0x00000001 ∧ (3 : Word) ≠ 0x00000002 := by decide
theorem witness_StepRunsCommand : (idle [commandWrite 1]).inputs = .host (.write 0 4 1) :: [] := by decide
theorem witness_StepContinuesOperation : (idle [.work]).inputs = .work :: []
    ∧ (∀ t, Input.work ≠ .host t) ∧ Input.work ≠ .reset ∧ Input.work ≠ .edge := by
  refine ⟨by decide, fun t h => ?_, by decide, by decide⟩
  cases h
/-- What goes on: work at a gate, a TICK at the timer, an outcome the event can have. What passes: work with nothing to do, an
outcome the event cannot have (R187 names LineWriteFailed alone). -/
theorem witness_StepContinuesOperation_goesOn :
    (next (step { running [.work] with todo := [.gate, .setPState .painting] })).pstate = .painting
      ∧ (next (step { running [.tick] with dly := 2, todo := [.timer] })).dly = 1
      ∧ (next (step (waiting [.answer .ok]))).outstanding = none
      ∧ next (step (idle [.work])) = idle [] ∧ next (step (waiting [.answer (.fail .transferFailed)])) = waiting [] := by decide
/-- An operation that stops with its inputs used up, and goes on with one more. -/
theorem witness_StepContinuesOperation_waits : let t := next (engine (waitFor 2) (idle [.tick]))
    (idle [.tick]).todo = [] ∧ engine (waitFor 2) (idle [.tick]) = .next t ∧ t.todo ≠ [] ∧ t.inputs = []
      ∧ engine (waitFor 2) (idle [.tick, .tick]) = .next { idle [] with trace := [.delay 2] } :=
  ⟨rfl, rfl, by decide, rfl, rfl⟩
/-- The clauses on a change of level: bus closed, none left to make, one to make. -/
theorem witness_StepContinuesOperation_edge : (idle [.edge]).inputs = .edge :: [] ∧ (idle [.edge]).bus = none
    ∧ (running [.edge]).inputs = .edge :: [] ∧ (running [.edge]).moves = []
    ∧ let s := { running [.edge] with moves := [.sclk true] }
      s.inputs = .edge :: [] ∧ s.bus.isSome = true ∧ s.moves = .sclk true :: [] ∧ (next (step s)).pinSclk = .driven true := by
  decide
theorem witness_StuckWithoutOutcome : let s := waiting []
    s.busy = true ∧ s.outstanding = some (.lineSet .dc true) ∧ s.todo = .await :: [.check]
      ∧ s.inputs.head? ≠ some .reset ∧ (∀ a, admits (.lineSet .dc true) a = true → s.inputs.head? ≠ some (.answer a))
      ∧ s.inputs = [] ∧ next (step s) = s := by
  refine ⟨by decide, by decide, by decide, by decide, fun a _ h => ?_, by decide, by decide⟩
  cases h
/-- The second clause: a host read passes by while the engine is stuck. -/
theorem witness_StuckWithoutOutcome_step : (waiting [.host (.read 0x04 4)]).inputs.head? = some (.host (.read 0x04 4))
    ∧ (next (step (waiting [.host (.read 0x04 4)]))).reads = [⟨0x04, 0x006F0021⟩] := by decide
/-- One read of each clause; the reserved offsets at both ends. -/
theorem witness_RegisterReads :
    (next (step (idle [.host (.read 0x00 4)]))).reads = [⟨0x00, 0⟩]
      ∧ (next (step (waiting [.host (.read 0x04 4)]))).reads = [⟨0x04, 0x006F0021⟩]
      ∧ (next (step { idle [.host (.read 0x08 4)] with error := errorOf ⟨.transferFailed, ⟨.init, 5, 2⟩⟩ })).reads
          = [⟨0x08, 0x00020596⟩]
      ∧ (next (step (loaded 0x00010002 [.host (.read 0x0C 4)]))).reads = [⟨0x0C, 0x00010002⟩]
      ∧ (next (step { idle [.host (.read 0x10 4)] with fitOrigin := 0x00280000 })).reads = [⟨0x10, 0x00280000⟩]
      ∧ (next (step { idle [.host (.read 0x14 4)] with fitSize := 0x01900320 })).reads = [⟨0x14, 0x01900320⟩]
      ∧ (next (step (idle [.host (.read 0x18 4)]))).reads = [⟨0x18, 0⟩]
      ∧ (next (step (idle [.host (.read 0xFC 4)]))).reads = [⟨0xFC, 0⟩] := by decide
/-- Both ends of each unmapped range, with four words of SRCMEM. -/
theorem witness_UnmappedAccess :
    ([0x000100, 0x0FFFFC, 0x100010, 0x7FFFFC, 0x82EE00, 0xFFFFFC].all fun a =>
      decide ((next (step (idle [.host (.read a 4)]))).reads = [⟨a, 0⟩])
        && decide (next (step (idle [.host (.write a 4 7)])) = idle [])) = true := by decide
theorem witness_MisalignedRefused :
    2 ≠ 4 ∧ stops (step (idle [.host (.read 0x04 2)])) = some (.inr (.hostAccess 0x04 2))
      ∧ (0x06 : HostAddr).toNat % 4 ≠ 0 ∧ stops (step (idle [.host (.write 0x06 4 1)])) = some (.inr (.hostAccess 0x06 4))
      ∧ stops (step (idle [.host (.write 0x04 8 1)])) = some (.inr (.hostAccess 0x04 8)) := by decide
theorem witness_SrcDimWrite :
    next (step (idle [.host (.write 0x0C 4 0x00010002), .host (.read 0x0C 4)]))
        = { idle [.host (.read 0x0C 4)] with srcDim := 0x00010002 }
      ∧ next (step (running [.host (.write 0x0C 4 0x00010002)])) = { running [] with overrun := true }
      ∧ srcW { idle [] with srcDim := 0x00010002 } = 2 ∧ srcH { idle [] with srcDim := 0x00010002 } = 1 := by decide
/-- The first and the last word of SRCMEM, idle and BUSY, stored and not. -/
theorem witness_SrcmemAccess :
    block.srcmemWords.val = 4 ∧ (0x10000C : HostAddr).toNat = 0x100000 + 4 * 3
      ∧ (next (step (idle [.host (.write 0x10000C 4 0x44332211)]))).mem
          = [(0x10000C, 0x11), (0x10000D, 0x22), (0x10000E, 0x33), (0x10000F, 0x44)]
      ∧ next (step (running [.host (.write 0x100000 4 7)])) = { running [] with overrun := true }
      ∧ (next (step (loaded 0 [.host (.read 0x100000 4)]))).reads = [⟨0x100000, 0xFF0000FF⟩]
      ∧ memReadWord (loaded 0 []).mem 0x100000 = some 0xFF0000FF ∧ (∀ j, j < 4 → memRead (idle []).mem (0x100000 + j) = none) := by
  decide
/-- The first and the last word of FRAMEMEM: stored, being rewritten, never written. -/
theorem witness_FramememReads :
    (0x82EDFC : HostAddr).toNat = 0x800000 + 4 * 47999
      ∧ (next (step { idle [.host (.read 0x800000 4)] with mem := memWrite [] 0x800000 [0x46, 0x25, 0x10, 0x63] })).reads
          = [⟨0x800000, 0x63102546⟩]
      ∧ (next (step { idle [.host (.read 0x82EDFC 4)] with mem := memWrite [] 0x82EDFC [0x46, 0x25, 0x10, 0x63] })).reads
          = [⟨0x82EDFC, 0x63102546⟩]
      ∧ frameBeingWritten { running [] with act := .prepare } = true
      ∧ (∀ j, j < 4 → memRead (idle []).mem (0x82EDFC + j) = none) := by decide
/-- Both ends of each range. -/
theorem witness_ReadOnlyWritesIgnored :
    ([0x04, 0x08, 0x10, 0xFC, 0x800000, 0x82EDFC].all fun a =>
      decide (next (step (running [.host (.write a 4 7)])) = running [])) = true := by decide
theorem witness_HostReadsHaveNoSideEffect :
    next (step (idle [.host (.read 0x0C 4)])) = { idle [] with reads := [⟨0x0C, 0⟩], draws := 1 } := by decide
/-- CMD, SRC_DIM, the first and the last SRCMEM word while BUSY; and a CMD write that clears OVERRUN. -/
theorem witness_OverrunRule :
    ([0x00, 0x0C, 0x100000, 0x10000C].all fun a =>
      decide (next (step (running [.host (.write a 4 1)])) = { running [] with overrun := true })) = true
      ∧ (next (step { idle [commandWrite 3] with overrun := true })).overrun = false := by decide
theorem witness_IllegalOperation : (idle []).busy = false := by decide
theorem witness_PrepareCompletes : let s := loaded 0x00010001 (List.replicate 7 .work)
    s.busy = false ∧ sourceReady s ∧ s.inputs = List.replicate 7 .work ++ [] := by decide
/-- Each of the three ways to be invalid. -/
theorem witness_InvalidImageTouchesNothing : let s := fun d => loaded d [.work, .work]
    (s 0).busy = false ∧ nothingHeld (s 0) ∧ (s 0).inputs = .work :: .work :: []
      ∧ srcW (s 0x00010000) = 0 ∧ srcH (s 0x00000005) = 0 ∧ (s 0x00010005).cfg.srcmemWords.val < srcW (s 0x00010005) * srcH (s 0x00010005) := by
  decide
theorem witness_UnwrittenSourceFaults : let s := loaded 0x00010002 (List.replicate 4 .work)
    s.busy = false ∧ sourceLegal s ∧ 1 < srcW s * srcH s
      ∧ memReadWord s.mem (0x100000 + 4 * 1) = none ∧ (∀ j, j < 1 → memReadWord s.mem (0x100000 + 4 * j) ≠ none)
      ∧ s.inputs = List.replicate 4 .work ++ [] ∧ stops (exec .prepare s) = some (.inl (.unwrittenSource 1)) := by decide
theorem witness_RenderCompletes : let s := loaded 0x00010001 (calmInputs (renderSequence block))
    s.busy = false ∧ sourceReady s ∧ s.inputs = calmInputs (renderSequence s.cfg) ++ [] :=
  ⟨rfl, by decide, (List.append_nil _).symm⟩
theorem witness_BusOpenCompletes : (idle [.answer .ok]).held = none ∧ (idle [.answer .ok]).inputs = .answer .ok :: [] := by
  decide
theorem witness_LineClaimCompletes : (idle [.answer .ok]).held = none ∧ (idle [.answer .ok]).inputs = .answer .ok :: [] := by
  decide
theorem witness_LineSetCompletes : let s := running [.answer .ok]
    s.held = none ∧ s.inputs = .answer .ok :: [] ∧ s.rst.claimed = true ∧ s.dc.claimed = true := by decide
theorem witness_XferCompletes : (running []).bus.isSome = true ∧ (running []).held = none ∧ (running []).inputs = []
    ∧ (running [.answer .ok]).bus.isSome = true ∧ (running [.answer .ok]).held = none
    ∧ (running [.answer .ok]).inputs = .answer .ok :: [] := by decide
/-- ms = 0 ends at once; one TICK of two is not enough. -/
theorem witness_DelayCounts : (idle []).inputs = List.replicate (0 : BitVec 16).toNat .tick ++ [] ∧ 1 < (2 : BitVec 16).toNat
    ∧ (idle [.tick]).inputs = List.replicate 1 .tick := by decide
theorem witness_UnownedUseFaults : (lineOf (idle []) .rst).claimed = false ∧ (lineOf (idle []) .dc).claimed = false
    ∧ (idle []).bus = none := by decide
theorem witness_LineSetFailure : let s := running [.answer (.fail .lineWriteFailed)]
    (lineOf s .rst).claimed = true ∧ (lineOf s .dc).claimed = true ∧ s.held = none
      ∧ s.inputs = [.answer (.fail .lineWriteFailed)] := by decide
theorem witness_XferFailure : let s := running [.answer (.fail .transferFailed), .work, .work, .work, .work]
    s.bus.isSome = true ∧ s.held = none ∧ s.inputs = .answer (.fail .transferFailed) :: (List.replicate (heldCount s + 1) .work ++ []) := by
  decide
/-- One state for each of the three steps. -/
theorem witness_PartialAcquisitionReleases :
    let s := idle [.answer (.fail .deviceUnavailable), .work]
    let u := { idle [.answer (.fail .lineRequestFailed), .work, .work] with bus := some ⟨0, 1⟩ }
    let v := { idle [.answer (.fail .lineRequestFailed), .work, .work, .work] with bus := some ⟨0, 1⟩, rst := ⟨true, false⟩ }
    (s.held = none ∧ s.dc.claimed = false ∧ s.bus = none ∧ s.rst.claimed = false
        ∧ s.inputs = .answer (.fail .deviceUnavailable) :: (List.replicate (heldCount s + 1) .work ++ []))
      ∧ (u.held = none ∧ u.dc.claimed = false ∧ u.bus.isSome = true ∧ u.rst.claimed = false
        ∧ u.inputs = .answer (.fail .lineRequestFailed) :: (List.replicate (heldCount u + 1) .work ++ []))
      ∧ (v.held = none ∧ v.dc.claimed = false ∧ v.bus.isSome = true ∧ v.rst.claimed = true
        ∧ v.inputs = .answer (.fail .lineRequestFailed) :: (List.replicate (heldCount v + 1) .work ++ [])) := by decide
theorem witness_AbortPath : let s := { running (List.replicate 4 .work) with held := some ⟨.transferFailed, ⟨.init, 5, 2⟩⟩ }
    s.held = some ⟨.transferFailed, ⟨.init, 5, 2⟩⟩ ∧ s.inputs = List.replicate (heldCount s + 1) .work ++ []
      ∧ (idle []).busy = false := by decide
theorem witness_InitStepsComplete : let s := running stepInputs
    s.bus.isSome = true ∧ s.dc.claimed = true ∧ s.held = none ∧ s.inputs = stepInputs ++ [] := by decide
theorem witness_PaintPayloadStepsComplete :
    let s := running (stepInputs ++ .work :: (List.replicate (paintDelay 2).toNat .tick ++ []))
    (2 : Fin 4) ≠ 1 ∧ s.bus.isSome = true ∧ s.dc.claimed = true ∧ s.held = none
      ∧ s.inputs = stepInputs ++ .work :: (List.replicate (paintDelay 2).toNat .tick ++ []) :=
  ⟨by decide, rfl, rfl, rfl, rfl⟩
theorem witness_PowerOnStepCompletes : let s := running (.work :: .answer .ok :: .work :: (List.replicate 1000 .tick ++ []))
    s.bus.isSome = true ∧ s.held = none ∧ s.inputs = .work :: .answer .ok :: .work :: (List.replicate 1000 .tick ++ []) := ⟨rfl, rfl, rfl⟩
/-- The first and the last byte of the frame. -/
theorem witness_FrameDataAreFramemem :
    memRead (memWrite [] 0x800000 [0x46]) (0x800000 + 0) = some 0x46
      ∧ memRead (memWrite [] 0x82EDFF [0x10]) (0x800000 + 191999) = some 0x10 := by decide
/-- The premises, and inputs for a failure at the opcode and at the write that drives DC high. -/
theorem witness_StepFailuresAreAnnotated : let s := running (.work :: .answer (.fail .transferFailed) :: List.replicate 4 .work)
    let t := running (.work :: .answer .ok :: .work :: .answer (.fail .lineWriteFailed) :: List.replicate 4 .work)
    s.bus.isSome = true ∧ s.rst.claimed = true ∧ s.dc.claimed = true ∧ s.held = none ∧ (0 : Fin 4) ≠ 1
      ∧ s.inputs = .work :: ([Answer.fail .transferFailed].map .answer).intersperse .work ++ (List.replicate 4 .work ++ [])
      ∧ t.inputs = .work :: ([Answer.ok, .fail .lineWriteFailed].map .answer).intersperse .work ++ (List.replicate 4 .work ++ []) := by
  decide
/-- Every outcome ok; and a failure of the first and of the last line write (V-RST-1 and V-RST-4). -/
theorem witness_ResetSequenceRuns : let s := running (resetInputsAll ++ [])
    let t := fun u => running (resetInputs u ++ .answer (.fail .lineWriteFailed) :: (List.replicate 4 .work ++ []))
    s.rst.claimed = true ∧ s.dc.claimed = true ∧ s.held = none ∧ s.inputs = resetInputsAll ++ []
      ∧ (t 0).bus.isSome = true ∧ (t 0).inputs = resetInputs 0 ++ .answer (.fail .lineWriteFailed) :: (List.replicate 4 .work ++ [])
      ∧ (t 3).bus.isSome = true ∧ (t 3).inputs = resetInputs 3 ++ .answer (.fail .lineWriteFailed) :: (List.replicate 4 .work ++ []) :=
  ⟨rfl, rfl, rfl, rfl, rfl, rfl, rfl, rfl⟩
/-- A region that touches both dimensions, one that touches one, a source wider than 5:3 and one of exactly 5:3; and a state for the
registers. -/
theorem witness_FitIsContained : 1 ≤ 800 ∧ 1 ≤ 480 ∧ (fitRegion 800 480).fw = 800 ∧ (fitRegion 1 1).fh = 480
    ∧ (fitRegion 1 1).fw = 480 ∧ 1 * 800 < 2 * 480 ∧ 800 * 480 ≤ 480 * 800
    ∧ 1 ≤ srcW (loaded 0x00010002 []) ∧ 1 ≤ srcH (loaded 0x00010002 []) := by decide
/-- Each of the three clauses at its boundary: n <= 0, n >= (S - 1) D, and between. -/
theorem witness_AxisMapIsExact :
    (0 < 1 ∧ 1 ≤ 1 ∧ (2 * (0 : Int) + 1) * 1 - 1 ≤ 0)
      ∧ (799 < 800 ∧ 1 ≤ 2 ∧ ((2 : Int) - 1) * (2 * 800) ≤ (2 * 799 + 1) * 2 - 800)
      ∧ (200 < 800 ∧ 1 ≤ 2 ∧ 0 < (2 * (200 : Int) + 1) * 2 - 800 ∧ (2 * (200 : Int) + 1) * 2 - 800 < (2 - 1) * (2 * 800)) := by
  decide
/-- A canvas pixel in the region and one outside it, with V-FIT-1's region; and the full canvas. -/
theorem witness_FullSizeSourceIsCopied : 1 ≤ 2 ∧ 1 ≤ 1 ∧ 799 < 800
    ∧ (Array.replicate 384000 (⟨0, 0, 0⟩ : Rgb))[800 * 40 + 799]? = some ⟨0, 0, 0⟩
    ∧ (Array.replicate 384000 (⟨0, 0, 0⟩ : Rgb))[800 * 39 + 799]? = some ⟨0, 0, 0⟩
    ∧ inRegion (fitRegion 2 1) 799 40 = true ∧ inRegion (fitRegion 2 1) 799 39 = false
    ∧ (Array.replicate 384000 (⟨0, 0, 0⟩ : Rgb)).size = 384000 ∧ 479 < 480 := by
  refine ⟨by decide, by decide, by decide, ?_, ?_, by decide, by decide, Array.size_replicate, by decide⟩ <;>
    rw [Array.getElem?_replicate, if_pos (by decide)]
/-- V-DQ-4's tie between red and orange. -/
theorem witness_NearestIsLeast : let d : Fin 7 → Int := fun m => colourDist ⟨255, 70, 0⟩ block.palette[m]
    d 4 = 4900 ∧ d 6 = 4900 ∧ (∀ m, d 4 ≤ d m) ∧ (∀ m, d 6 ≤ d m) := by decide
/-- A one-pixel red region, before and after its visit, and the whole canvas. -/
theorem witness_SolidColourStaysSolid : let r : Region := ⟨0, 0, 1, 1⟩
    let full : Region := ⟨0, 0, 800, 480⟩
    1 ≤ r.fw * r.fh ∧ 0 < r.fw * r.fh ∧ r.x0 + r.fw ≤ 800 ∧ r.y0 + r.fh ≤ 480 ∧ (∀ m : Fin 7, m < 4 → block.palette[m] ≠ block.palette[(4 : Fin 7)])
      ∧ (∀ x y, inRegion r x y = true → (#[⟨255, 0, 0⟩] : Array Rgb)[800 * y + x]? = some block.palette[(4 : Fin 7)])
      ∧ full.x0 + full.fw ≤ 800 ∧ full.y0 + full.fh ≤ 480
      ∧ (∀ x y, inRegion full x y = true → (Array.replicate 384000 block.palette[(4 : Fin 7)])[800 * y + x]?
          = some block.palette[(4 : Fin 7)]) := by
  refine ⟨by decide, by decide, by decide, by decide, by decide, fun x y h => ?_, by decide, by decide, fun x y h => ?_⟩
  · simp only [inRegion, Bool.and_eq_true, decide_eq_true_eq] at h
    obtain rfl : x = 0 := by omega
    obtain rfl : y = 0 := by omega
    decide
  · simp only [inRegion, Bool.and_eq_true, decide_eq_true_eq] at h
    rw [Array.getElem?_replicate, if_pos (by omega)]
/-- V-DQ-6's region, at the first visit, between visits and at the end; a stored pixel and accumulator; and R156's example: the
error (-55, 30, 40) of the first visit adds (-385, 210, 280) on the right. -/
theorem witness_ErrorNeverOverflows : let r : Region := ⟨0, 0, 3, 2⟩
    let ct : Array Rgb := #[⟨200, 30, 40⟩, ⟨122, 130, 128⟩, ⟨10, 10, 250⟩]
    r.x0 + r.fw ≤ 800 ∧ r.y0 + r.fh ≤ 480 ∧ 6 ≤ r.fw * r.fh ∧ 0 < r.fw * r.fh ∧ 5 < r.fw * r.fh
      ∧ ct[800 * (r.y0 + 0) + (r.x0 + 0)]? = some ⟨200, 30, 40⟩
      ∧ (ditherStart r).err[0 * r.fw + 0]? = some ⟨0, 0, 0⟩ ∧ 1 < r.fw ∧ 0 < r.fh
      ∧ visitError block.palette r ct (ditherStart r) 0 0 = ⟨-55, 30, 40⟩
      ∧ (diffuseAll r 0 0 ⟨-55, 30, 40⟩ (ditherStart r).err)[1]? = some ⟨-385, 210, 280⟩ ∧ shareWeight 0 0 1 0 = 7 := by
  decide +kernel
/-- R170's example, red beside orange. -/
theorem witness_UnpackRecoversIndices_packed : let idx : Array (BitVec 3) := #[4, 6]
    0 < 192000 ∧ idx[2 * 0]? = some 4 ∧ idx[2 * 0 + 1]? = some 6 ∧ BitVec.ofNat 8 (16 * 4 + 6) = (0x46 : Byte) := by decide
theorem witness_UnpackRecoversIndices : 799 < 800 ∧ 479 < 480
    ∧ (Array.replicate 384000 (6 : BitVec 3))[800 * 479 + 799]? = some 6 := by
  refine ⟨by decide, by decide, ?_⟩
  rw [Array.getElem?_replicate, if_pos (by decide)]
/-- V-FIT-1's margin, first and last byte, and V-FIT-4's empty region. -/
theorem witness_MarginBytesAreWhite : let r := fitRegion 2 1
    r.x0 + r.fw ≤ 800 ∧ r.y0 + r.fh ≤ 480
      ∧ inRegion r ((2 * 0) % 800) ((2 * 0) / 800) = false ∧ inRegion r ((2 * 0) % 800 + 1) ((2 * 0) / 800) = false
      ∧ inRegion r ((2 * 191999) % 800) ((2 * 191999) / 800) = false
      ∧ inRegion r ((2 * 191999) % 800 + 1) ((2 * 191999) / 800) = false ∧ (fitRegion 801 1).fh = 0 := by decide
/-- Two one-pixel images that differ in alpha alone. -/
theorem witness_FrameIgnoresAlpha : let s := loaded 0x00010001 []
    let t := { loaded 0x00010001 [] with mem := memWriteWord [] 0x100000 0x120000FF }
    s.cfg.palette = t.cfg.palette ∧ s.srcDim = t.srcDim ∧ 1 ≤ srcW s ∧ 1 ≤ srcH s ∧ s.mem ≠ t.mem
      ∧ (∀ k, k < srcW s * srcH s → (memReadWord s.mem (srcAddr k)).map (fun w => w.extractLsb' 0 24)
          = (memReadWord t.mem (srcAddr k)).map (fun w => w.extractLsb' 0 24)) := by decide
/-- R93's word and R66's address: pixel (1, 1) of a 2 x 2 image is word 3. -/
theorem witness_FrameIgnoresAlpha_pixel :
    let s := { idle [] with srcDim := 0x00020002, mem := memWriteWord [] 0x10000C 0xFF332211 }
    memReadWord s.mem (0x100000 + 4 * (1 * srcW s + 1)) = some 0xFF332211 ∧ sourcePixel s.mem (srcW s) 1 1 = ⟨0x11, 0x22, 0x33⟩ := by
  decide
/-- One transfer, split before a change of SCLK and before a change of CS_N. -/
theorem witness_WaveformCarriesTheBytes : 7 < 8 ∧ sampledBits 3 true (transferMoves 3 true [0x12]) = byteBits 0x12
    ∧ sampledBits 0 true (transferMoves 0 false [0x12]) = byteBits 0x12
    ∧ transferMoves 0 false [0x12] = [.csN false, .mosi false] ++ .sclk true :: (transferMoves 0 false [0x12]).drop 3
    ∧ transferMoves 0 false [0x12] = [] ++ .csN false :: (transferMoves 0 false [0x12]).drop 1 := by decide
theorem witness_BlockResetTakesEffectAtOnce : (running [.reset]).inputs = .reset :: [] := by decide
theorem witness_MemoryStaysCanonical : (idle [.host (.write 0x100000 4 7)]).mem.wf
    ∧ ∃ t, step (idle [.host (.write 0x100000 4 7)]) = .next t ∧ t.mem ≠ [] := ⟨by decide, _, rfl, by decide⟩
/-- Idle, and in the releases of a run. -/
theorem witness_ResourcesAreReleased : releasesAll (idle [commandWrite 2])
    ∧ (∃ t, step (idle [commandWrite 2]) = .next t ∧ t.busy = true)
    ∧ releasesAll { running [.work] with todo := abortSequence (running []) }
    ∧ ∃ t, step { running [.work] with todo := abortSequence (running []) } = .next t ∧ t.dc.claimed = false :=
  ⟨by decide, ⟨_, rfl, by decide⟩, by decide, ⟨_, rfl, by decide⟩⟩
theorem witness_FlagsStayConsistent : flagsOk (idle [commandWrite 1]) ∧ errorOk (idle [commandWrite 1])
    ∧ flagsOk (waiting [.answer .ok]) ∧ (∃ t, step (idle [commandWrite 1]) = .next t)
    ∧ ∃ t, step (waiting [.answer .ok]) = .next t :=
  ⟨by decide, by decide, by decide, ⟨_, rfl⟩, ⟨_, rfl⟩⟩
/-- Idle; at the first work after acceptance; in the payload of INIT[7]; at the end of the reset sequence. -/
theorem witness_FlagsStayConsistent_order : progressOk (idle [commandWrite 2])
    ∧ (∃ t, step (idle [commandWrite 2]) = .next t ∧ t.act = .prepare ∧ t.todo ≠ [])
    ∧ (let s := { running [.answer .ok] with
          stepIx := 7, dc := ⟨true, true⟩, outstanding := some (.xfer true [0x49]), todo := [.await, .gate] }
      progressOk s ∧ ∃ t, step s = .next t ∧ t.todo = [.gate])
    ∧ (let s := { running [.work] with pstate := .resetting, todo := [.gate, .setPState .initialized] }
      progressOk s ∧ ∃ t, step s = .next t ∧ t.pstate = .initialized) :=
  ⟨by decide, ⟨_, rfl, rfl, by decide⟩, ⟨by decide, _, rfl, rfl⟩, by decide, _, rfl, rfl⟩
/-- What the order refuses: bytes sent outside INITIALIZED and PAINTING, a step left out, PAINTING before step 18. -/
theorem test_order_refuses : ¬ progressOk { waiting [] with outstanding := some (.xfer false [0xAA]), pstate := .resetting }
    ∧ ¬ progressOk { running [] with todo := [.setStep 2] } ∧ ¬ progressOk { running [] with stepIx := 17, todo := [.setPState .painting] } := by
  decide
theorem witness_UnclaimedLinesAreLow : linesOk (idle [.work]) ∧ linesOk (waiting [.answer .ok])
    ∧ ∃ t, step (waiting [.answer .ok]) = .next t ∧ t.dc.level = true := ⟨by decide, by decide, ⟨_, rfl, by decide⟩⟩
theorem witness_IndicesStayInPalette :
    let s := { idle [.host (.write 0x100000 4 0xFFFFFFFF)] with idx := #[4, 6], mem := memWrite [] 0x800000 [0x46] }
    indicesOk s ∧ ∃ t, step s = .next t := ⟨by decide, _, rfl⟩
theorem witness_SourceIsASnapshot : let s := running [.host (.write 0x100000 4 7)]
    s.busy = true ∧ s.inputs.head? ≠ some .reset ∧ ∃ t, step s = .next t := ⟨rfl, by decide, _, rfl⟩
/-- The accepting step, with a source image that is ready. -/
theorem witness_SourceIsASnapshot_accept : let s := loaded 0x00010001 [commandWrite 1, .work, .work]
    s.busy = false ∧ (∃ v rest, s.inputs = commandWrite v :: rest) ∧ sourceReady s ∧ ∃ t, step s = .next t ∧ t.busy = true :=
  ⟨rfl, ⟨1, _, rfl⟩, by decide, _, rfl, by decide⟩
theorem witness_ParametersAndTraceStand : (waiting [.work]).inputs.head? ≠ some .reset ∧ ∃ t, step (waiting [.work]) = .next t :=
  ⟨by decide, _, rfl⟩

end Sys2Proof.Tests
end

section
/-! Host accesses as steps, and the statements about OVERRUN, SRC_DIM and the values of block reset
(spec/10_state.md R27, R34, R50). -/

namespace Sys2Proof.Machine

variable {s t : State} {a : HostAddr} {v : Word} {rest : List Input}

/-! ### The address map -/

/-- CMD stands at address 0 and nowhere else (spec/10_state.md R22, spec/20_memory.md R61). -/
theorem placeAt_eq_cmd_iff (cfg : Config) (n : Nat) : placeAt cfg n = .cmd ↔ n = 0 := by
  constructor
  · intro h
    by_contra hn
    have hreg : registerAt n ≠ .cmd := by
      unfold registerAt
      rw [if_neg hn]
      split_ifs <;> simp
    unfold placeAt at h
    split_ifs at h
    exact hreg h
  · rintro rfl
    rfl

/-- SRC_DIM stands at address 0x0C (spec/10_state.md R22). -/
theorem placeAt_srcDim (cfg : Config) : placeAt cfg (0x0C : HostAddr).toNat = .srcDim := rfl

/-- The words of SRCMEM stand from 0x100000 on (spec/20_memory.md R61). -/
theorem placeAt_srcmem (cfg : Config) {k : Nat} (hk : k < cfg.srcmemWords.val) :
    placeAt cfg (0x100000 + 4 * k) = .srcmem (0x100000 + 4 * k) := by
  have hlow : ¬ 0x100000 + 4 * k < 0x100 := by omega
  have hin : srcBase ≤ 0x100000 + 4 * k ∧ 0x100000 + 4 * k < srcBase + 4 * cfg.srcmemWords.val := by
    unfold srcBase
    omega
  rw [placeAt, if_neg hlow, if_pos hin]

/-! ### Host accesses as steps -/

theorem accessDefined_word (h : a.toNat % 4 = 0) : accessDefined a 4 = true := by
  simp [accessDefined, h]

/-- A host read of a word is the value that its place returns (spec/20_memory.md R71). -/
theorem step_hostRead {p : Place} (hi : s.inputs = .host (.read a 4) :: rest) (ha : a.toNat % 4 = 0)
    (hp : placeAt s.cfg a.toNat = p) : step s = .next (afterRead a (readPlace { s with inputs := rest } p) rest s) := by
  simp only [step, fetch, fetchHost, hi, accessDefined_word ha, if_true, hostRead, hp, afterRead]

/-- A host write of CMD runs the command that its value decodes to (spec/10_state.md R23). -/
theorem step_hostWrite_cmd (hi : s.inputs = .host (.write 0 4 v) :: rest) :
    step s = exec (decodeCmd v) { s with inputs := rest } := by
  have hd : accessDefined (0 : HostAddr) 4 = true := rfl
  have hp : placeAt s.cfg (0 : HostAddr).toNat = .cmd := rfl
  simp only [step, fetch, fetchHost, hi, hd, hp, if_true]

/-- A host write of a word to any other place is what that place does with it. -/
theorem step_hostWrite {p : Place} (hi : s.inputs = .host (.write a 4 v) :: rest) (ha : a.toNat % 4 = 0)
    (hp : placeAt s.cfg a.toNat = p) (hc : p ≠ .cmd) : step s = .next (writePlace v { s with inputs := rest } p) := by
  simp only [step, fetch, fetchHost, hi, accessDefined_word ha, hp, hc, if_true, if_false]

/-! ### OVERRUN -/

/-- Any CMD value written while BUSY is dropped, before its legality is looked at (spec/60_exceptions.md R304). -/
theorem exec_command_busy (v : Word) (hb : s.busy = true) : exec (decodeCmd v) s = .next (dropWrite s) := by
  rcases exec_command_cases v s with ⟨-, h⟩ | ⟨hidle, -⟩ | ⟨hidle, -⟩ | ⟨hidle, -⟩
  · exact h
  all_goals exact absurd (hb.symm.trans hidle) (by decide)

theorem writePlace_srcDim_busy (hb : s.busy = true) : writePlace v s .srcDim = dropWrite s := if_pos hb

theorem writePlace_srcDim_idle (hb : s.busy = false) : writePlace v s .srcDim = { s with srcDim := v } := by
  rw [writePlace, hb]
  rfl

theorem writePlace_srcmem_busy {n : Nat} (hb : s.busy = true) : writePlace v s (.srcmem n) = dropWrite s := if_pos hb

/-- No host write but that of CMD clears OVERRUN. -/
theorem writePlace_keeps_overrun (p : Place) (ho : s.overrun = true) : (writePlace v s p).overrun = true := by
  cases p with
  | srcDim | srcmem =>
    rw [writePlace]
    split
    · rfl
    · exact ho
  | cmd | status | error | fitOrigin | fitSize | reserved | framemem | unmapped => exact ho

/-- Nothing that the engine does clears OVERRUN: only the acceptance of a command does, and it stands before the engine's
sequence. -/
theorem overrun_engineKeeps : EngineKeeps (fun s => s.overrun = true) where
  perform _ _ _ ho h := (perform_steady h).overrun.trans ho
  finish _ _ ho := ho
  raise _ _ ho := ho
  todo _ _ ho := ho

/-- A host write of CMD, SRC_DIM or an SRCMEM word while BUSY sets OVERRUN and does nothing else (spec/10_state.md R27). -/
theorem step_hostWrite_busy (hb : s.busy = true) (hi : s.inputs = .host (.write a 4 v) :: rest)
    (ha : a = 0 ∨ a = 0x0C ∨ ∃ k, k < s.cfg.srcmemWords.val ∧ a.toNat = 0x100000 + 4 * k) :
    step s = .next (dropWrite { s with inputs := rest }) := by
  rcases ha with rfl | rfl | ⟨k, hk, ha⟩
  · rw [step_hostWrite_cmd hi]
    exact exec_command_busy v hb
  · exact (step_hostWrite hi (by decide) (placeAt_srcDim _) (by simp)).trans (congrArg _ (writePlace_srcDim_busy hb))
  · have hp : placeAt s.cfg a.toNat = .srcmem (0x100000 + 4 * k) := by rw [ha, placeAt_srcmem _ hk]
    exact (step_hostWrite hi (by omega) hp (by simp)).trans (congrArg _ (writePlace_srcmem_busy hb))

/-- A step that takes OVERRUN from 1 to 0 is block reset or a CMD write while idle (spec/10_state.md R27). -/
theorem step_clears_overrun (h : step s = .next t) (ho : s.overrun = true) (hc : t.overrun = false)
    (hr : s.inputs.head? ≠ some .reset) : s.busy = false ∧ ∃ v rest, s.inputs = .host (.write 0 4 v) :: rest := by
  have hcleared : t.overrun ≠ true := by simp [hc]
  rcases step_cases h with ⟨-, rfl⟩ | ⟨rest, hi, -⟩ | ⟨rest, -, rfl⟩ | ⟨a, size, rest, -, rfl⟩ |
    ⟨a, size, v, rest, -, -, -, rfl⟩ | ⟨a, size, v, rest, hi, rfl, hp, he⟩ | ⟨x, rest, -, -, he⟩ | ⟨x, rest, -, -, rfl⟩
  · exact hcleared.elim ho
  · exact absurd (by rw [hi]; rfl) hr
  · exact hcleared.elim ((clockEdge_overrun _).trans ho)
  · exact hcleared.elim ho
  · exact hcleared.elim (writePlace_keeps_overrun _ ho)
  · have hzero : a = 0 := BitVec.eq_of_toNat_eq ((placeAt_eq_cmd_iff _ _).1 hp)
    subst hzero
    refine ⟨?_, v, rest, hi⟩
    by_contra hb
    rw [exec_command_busy v (s := { s with inputs := rest }) (by simpa using hb)] at he
    cases he
    exact hcleared rfl
  · exact hcleared.elim (overrun_engineKeeps.engine s.todo { s with todo := [] } t ho he)
  · exact hcleared.elim ho

/-- Settles O17: a dropped write by the place it goes to, and the clearing of OVERRUN by the cases of a step. -/
theorem overrunRule : Obligations.OverrunRule :=
  ⟨fun _ _ _ _ hb hi ha => step_hostWrite_busy hb hi ha, fun _ _ h ho hc hr => step_clears_overrun h ho hc hr⟩

/-! ### SRC_DIM -/

theorem srcW_eq_mod (s : State) : srcW s = s.srcDim.toNat % 65536 := by
  simp [srcW]

theorem srcH_eq_div (s : State) : srcH s = s.srcDim.toNat / 65536 := by
  have hlt : s.srcDim.toNat / 65536 < 65536 := by omega
  simp [srcH, Nat.shiftRight_eq_div_pow, Nat.mod_eq_of_lt hlt]

/-- SRC_DIM takes any value while idle (spec/10_state.md R34). -/
theorem step_writeSrcDim_idle (hi : s.inputs = .host (.write 0x0C 4 v) :: rest) (hb : s.busy = false) :
    step s = .next { s with inputs := rest, srcDim := v } :=
  (step_hostWrite hi (by decide) (placeAt_srcDim _) (by simp)).trans (congrArg _ (writePlace_srcDim_idle hb))

/-- A read of SRC_DIM returns what stands there (spec/10_state.md R34). -/
theorem step_readSrcDim (hi : s.inputs = .host (.read 0x0C 4) :: rest) :
    step s = .next (afterRead 0x0C s.srcDim rest s) :=
  step_hostRead hi (by decide) (placeAt_srcDim _)

/-- Settles O11: a write while idle and its read back, a dropped write (R27), and the two fields. -/
theorem srcDimWrite : Obligations.SrcDimWrite := by
  intro s v rest hi
  refine ⟨step_writeSrcDim_idle hi, fun hb => step_hostWrite_busy hb hi (.inr (.inl rfl)), srcW_eq_mod _, srcH_eq_div _, ?_⟩
  rintro more rfl
  exact step_readSrcDim rfl

/-! ### Block reset -/

/-- Settles O51: each value of the table (spec/10_state.md R50) stands in `State.resetOf`, whatever the block's parameters are. -/
theorem resetValues : Obligations.ResetValues := by
  have hstatus : statusWord State.reset = 0 := rfl
  have herror : errorWord State.reset.error = 0 := rfl
  have hmem : ∀ a, memRead State.reset.mem a = none := fun _ => rfl
  exact ⟨hstatus, herror, rfl, rfl, rfl, hmem, rfl, rfl, rfl, rfl, rfl, rfl, rfl, rfl, rfl, rfl, rfl⟩

end Sys2Proof.Machine
end

section
/-! Host accesses by the place they go to: unmapped addresses, FRAMEMEM, read-only registers, and accesses that the block
defines no behaviour for (spec/20_memory.md R61 to R63, R67, R68, spec/10_state.md R36). -/

namespace Sys2Proof.Machine

variable {s : State} {a : HostAddr} {v : Word} {rest : List Input}

/-! ### The address map, range by range -/

/-- The window of SRCMEM ends below FRAMEMEM, however many words of it there are (spec/20_memory.md R61). -/
theorem srcmem_end_le_frameBase (cfg : Config) : srcBase + 4 * cfg.srcmemWords.val ≤ frameBase := by
  have hlt := cfg.srcmemWords.isLt
  unfold srcBase frameBase
  omega

theorem placeAt_register (cfg : Config) {n : Nat} (h : n < 0x100) : placeAt cfg n = registerAt n := if_pos h

/-- The bytes of FRAMEMEM run from 0x800000 to 0x82EDFF (spec/20_memory.md R61). -/
theorem placeAt_framemem (cfg : Config) {n : Nat} (hlow : 0x800000 ≤ n) (hhigh : n < 0x82EE00) :
    placeAt cfg n = .framemem n := by
  have hreg : ¬ n < 0x100 := by omega
  have hsrc : ¬ (srcBase ≤ n ∧ n < srcBase + 4 * cfg.srcmemWords.val) := by
    have hend : srcBase + 4 * cfg.srcmemWords.val ≤ 0x800000 := srcmem_end_le_frameBase cfg
    omega
  have hframe : frameBase ≤ n ∧ n < frameBase + frameBytes := ⟨hlow, hhigh⟩
  rw [placeAt, if_neg hreg, if_neg hsrc, if_pos hframe]

/-- What lies outside the registers, SRCMEM and FRAMEMEM is unmapped (spec/20_memory.md R61). -/
theorem placeAt_unmapped (cfg : Config) {n : Nat} (h : (0x100 ≤ n ∧ n < 0x100000) ∨
    (0x100000 + 4 * cfg.srcmemWords.val ≤ n ∧ n < 0x800000) ∨ 0x82EE00 ≤ n) : placeAt cfg n = .unmapped := by
  have hend : 0x100000 + 4 * cfg.srcmemWords.val ≤ 0x800000 := srcmem_end_le_frameBase cfg
  have hreg : ¬ n < 0x100 := by omega
  have hsrc : ¬ (0x100000 ≤ n ∧ n < 0x100000 + 4 * cfg.srcmemWords.val) := by omega
  have hframe : ¬ (0x800000 ≤ n ∧ n < 0x82EE00) := by omega
  exact (if_neg hreg).trans ((if_neg hsrc).trans (if_neg hframe))

/-- SRC_DIM is the register at offset 0x0C and no other (spec/10_state.md R22). -/
theorem registerAt_eq_srcDim_iff (n : Nat) : registerAt n = .srcDim ↔ n = 0x0C := by
  constructor
  · intro h
    by_contra hn
    unfold registerAt at h
    rw [if_neg hn] at h
    split_ifs at h
  · rintro rfl
    rfl

theorem registerAt_ne_srcmem (n m : Nat) : registerAt n ≠ .srcmem m := by
  unfold registerAt
  split_ifs <;> simp

/-! ### Writes that nothing takes -/

/-- SRC_DIM and SRCMEM are the only places that a host write other than that of CMD changes. -/
theorem writePlace_ignored {p : Place} (hdim : p ≠ .srcDim) (hsrc : ∀ n, p ≠ .srcmem n) : writePlace v s p = s := by
  cases p with
  | srcDim => exact absurd rfl hdim
  | srcmem n => exact absurd rfl (hsrc n)
  | cmd | status | error | fitOrigin | fitSize | reserved | framemem | unmapped => rfl

/-- A host write of a word to any place but CMD, SRC_DIM and SRCMEM changes nothing, OVERRUN included. -/
theorem step_hostWrite_ignored {p : Place} (hi : s.inputs = .host (.write a 4 v) :: rest) (ha : a.toNat % 4 = 0)
    (hp : placeAt s.cfg a.toNat = p) (hcmd : p ≠ .cmd) (hdim : p ≠ .srcDim) (hsrc : ∀ n, p ≠ .srcmem n) :
    step s = .next { s with inputs := rest } :=
  (step_hostWrite hi ha hp hcmd).trans (congrArg _ (writePlace_ignored hdim hsrc))

/-- A host write to a register other than CMD and SRC_DIM is ignored (spec/10_state.md R36). -/
theorem step_hostWrite_readOnlyRegister (hi : s.inputs = .host (.write a 4 v) :: rest) (ha : a.toNat % 4 = 0)
    (hreg : a.toNat < 0x100) (hcmd : a.toNat ≠ 0) (hdim : a.toNat ≠ 0x0C) : step s = .next { s with inputs := rest } := by
  have hp := placeAt_register s.cfg hreg
  refine step_hostWrite_ignored hi ha hp ?_ (mt (registerAt_eq_srcDim_iff _).1 hdim) (registerAt_ne_srcmem _)
  rw [← hp]
  exact mt (placeAt_eq_cmd_iff _ _).1 hcmd

/-- A host write to FRAMEMEM is ignored (spec/20_memory.md R68). -/
theorem step_hostWrite_framemem (hi : s.inputs = .host (.write a 4 v) :: rest) (ha : a.toNat % 4 = 0)
    (hlow : 0x800000 ≤ a.toNat) (hhigh : a.toNat < 0x82EE00) : step s = .next { s with inputs := rest } :=
  step_hostWrite_ignored hi ha (placeAt_framemem _ hlow hhigh) (by simp) (by simp) (by simp)

/-- Settles O14: the read-only and reserved registers (R36), and FRAMEMEM (R68). -/
theorem readOnlyWritesIgnored : Obligations.ReadOnlyWritesIgnored := by
  rintro s a v rest ha (⟨hlow, hreg, hdim⟩ | ⟨hlow, hhigh⟩) hi
  · exact step_hostWrite_readOnlyRegister hi ha hreg (by omega) hdim
  · exact step_hostWrite_framemem hi ha hlow hhigh

/-- Settles O9: the place at such an address is `.unmapped`, which reads as 0 and takes no write. -/
theorem unmappedAccess : Obligations.UnmappedAccess := by
  intro s a v rest ha hrange
  have hp := placeAt_unmapped s.cfg hrange
  exact ⟨fun hi => step_hostRead hi ha hp, fun hi => step_hostWrite_ignored hi ha hp (by simp) (by simp) (by simp)⟩

/-! ### Accesses that the block does not define -/

theorem accessDefined_eq_false {size : Nat} (h : size ≠ 4 ∨ a.toNat % 4 ≠ 0) : accessDefined a size = false := by
  rw [accessDefined, Bool.and_eq_false_iff, decide_eq_false_iff_not, decide_eq_false_iff_not]
  exact h

theorem step_hostRead_refused {size : Nat} (hi : s.inputs = .host (.read a size) :: rest)
    (hd : accessDefined a size = false) : step s = .refused (.hostAccess a size) := by
  simp only [step, fetch, fetchHost, hi, hd, Bool.false_eq_true, if_false]

theorem step_hostWrite_refused {size : Nat} (hi : s.inputs = .host (.write a size v) :: rest)
    (hd : accessDefined a size = false) : step s = .refused (.hostAccess a size) := by
  simp only [step, fetch, fetchHost, hi, hd, Bool.false_eq_true, if_false]

/-- Settles O10: neither a read nor a write comes to its place when the access is not defined (R63). -/
theorem misalignedRefused : Obligations.MisalignedRefused := by
  intro s a size v rest h
  have hd := accessDefined_eq_false h
  exact ⟨fun hi => step_hostRead_refused hi hd, fun hi => step_hostWrite_refused hi hd⟩

/-! ### Reads of FRAMEMEM -/

/-- A word that no byte is stored for reads as the draw (spec/10_state.md R48). -/
theorem wordOrDraw_of_unwritten {m : Memory} {b : Nat} (n : Nat) (h : ∀ j, j < 4 → memRead m (b + j) = none) :
    wordOrDraw m n b = drawnWord n := by
  have h0 : memRead m b = none := h 0 (by decide)
  simp [wordOrDraw, byteOrDraw, drawnWord, h0, h 1, h 2, h 3]

/-- Four stored bytes make a stored word, the lowest address in its low byte (spec/20_memory.md R64). -/
theorem memReadWord_of_bytes {m : Memory} {b : Nat} {b0 b1 b2 b3 : Byte} (h0 : memRead m b = some b0)
    (h1 : memRead m (b + 1) = some b1) (h2 : memRead m (b + 2) = some b2) (h3 : memRead m (b + 3) = some b3) :
    memReadWord m b = some (wordOfBytes b0 b1 b2 b3) := by
  rw [memReadWord, h0, h1, h2, h3]

theorem frameBeingWritten_iff : frameBeingWritten s = true ↔ s.busy = true ∧ s.act = .prepare := by
  simp [frameBeingWritten]

theorem readPlace_framemem_drawn {n : Nat} (h : s.busy = true ∧ s.act = .prepare) :
    readPlace s (.framemem n) = drawnWord s.draws := if_pos (frameBeingWritten_iff.2 h)

theorem readPlace_framemem_stored {n : Nat} (h : ¬ (s.busy = true ∧ s.act = .prepare)) :
    readPlace s (.framemem n) = wordOrDraw s.mem s.draws n := if_neg (mt frameBeingWritten_iff.1 h)

/-- A FRAMEMEM word that no byte is stored for reads as a draw, whether or not it is being rewritten. -/
theorem readPlace_framemem_unwritten {n : Nat} (h : ∀ j, j < 4 → memRead s.mem (n + j) = none) :
    readPlace s (.framemem n) = drawnWord s.draws := by
  by_cases hw : s.busy = true ∧ s.act = .prepare
  · exact readPlace_framemem_drawn hw
  · rw [readPlace_framemem_stored hw, wordOrDraw_of_unwritten _ h]

/-- Settles O13: a read is the value of its place, which is the stored word or the draw (R67). -/
theorem framememReads : Obligations.FramememReads := by
  intro s k a rest hk ha hi
  have hread : ∀ w, readPlace { s with inputs := rest } (.framemem a.toNat) = w → step s = .next (afterRead a w rest s) := by
    rintro w rfl
    exact step_hostRead hi (by omega) (placeAt_framemem _ (by omega) (by omega))
  refine ⟨fun b0 b1 b2 b3 hw h0 h1 h2 h3 => hread _ ?_, fun hw => hread _ (readPlace_framemem_drawn hw),
    fun hm => hread _ (readPlace_framemem_unwritten hm)⟩
  have hword : memReadWord s.mem a.toNat = some (b3 ++ b2 ++ b1 ++ b0) := by
    rw [ha]
    exact memReadWord_of_bytes h0 h1 h2 h3
  exact (readPlace_framemem_stored hw).trans (wordOrDraw_of_memReadWord _ hword)

end Sys2Proof.Machine
end

section
/-! The command words: the two that start an operation, and all the others (spec/30_encoding.md R90 to R92). Each fact is
read off the three cases of `decodeCmd_cases`. -/

namespace Sys2Proof

variable {v : Word}

theorem decodeCmd_eq_prepare_iff : decodeCmd v = .prepare ↔ v = 1 := by
  rcases decodeCmd_cases v with ⟨rfl, hd⟩ | ⟨rfl, hd⟩ | ⟨h1, -, hd⟩
  · exact iff_of_true hd rfl
  · exact iff_of_false (by rw [hd]; decide) (by decide)
  · exact iff_of_false (by simp [hd]) h1

theorem decodeCmd_eq_render_iff : decodeCmd v = .render ↔ v = 2 := by
  rcases decodeCmd_cases v with ⟨rfl, hd⟩ | ⟨rfl, hd⟩ | ⟨-, h2, hd⟩
  · exact iff_of_false (by rw [hd]; decide) (by decide)
  · exact iff_of_true hd rfl
  · exact iff_of_false (by simp [hd]) h2

theorem decodeCmd_eq_illegal (h1 : v ≠ 1) (h2 : v ≠ 2) : decodeCmd v = .illegal v := by
  rcases decodeCmd_cases v with ⟨e, -⟩ | ⟨e, -⟩ | ⟨-, -, hd⟩
  · exact absurd e h1
  · exact absurd e h2
  · exact hd

/-- One format and one length (R92): whatever four bytes stand first are one command word. -/
theorem decode_four_bytes (b0 b1 b2 b3 : Byte) (rest : List Byte) :
    decode (b0 :: b1 :: b2 :: b3 :: rest) = .ok (decodeCmd (wordOfBytes b0 b1 b2 b3)) rest := rfl

/-- Settles O2: the words by the cases of the decoder, the bytes by the one form that `decode` accepts (R92). -/
theorem exactlyTwoCommands : Obligations.ExactlyTwoCommands :=
  ⟨fun _ => ⟨decodeCmd_eq_prepare_iff, decodeCmd_eq_render_iff, decodeCmd_eq_illegal⟩, decode_four_bytes⟩

end Sys2Proof
end

section
/-! The fit of a source to the canvas: the two forms of the region, that either lies within the canvas, and what the fit action
writes (spec/40_fit_resample.md R121, R126). -/

namespace Sys2Proof.Machine

variable {w h : Nat}

/-- A source wider than 5:3 fills the width and is centred vertically (R121). -/
theorem fitRegion_of_wide (hwide : h * 800 < w * 480) :
    fitRegion w h = ⟨0, (480 - (800 * h) / w) / 2, 800, (800 * h) / w⟩ := if_pos hwide

/-- Any other source fills the height and is centred horizontally (R121). -/
theorem fitRegion_of_not_wide (htall : w * 480 ≤ h * 800) :
    fitRegion w h = ⟨(800 - (480 * w) / h) / 2, 0, (480 * w) / h, 480⟩ := if_neg (Nat.not_lt.2 htall)

theorem fitRegion_full_dimension (w h : Nat) : (fitRegion w h).fw = 800 ∨ (fitRegion w h).fh = 480 := by
  rcases Nat.lt_or_ge (h * 800) (w * 480) with hwide | htall
  · exact .inl (by rw [fitRegion_of_wide hwide])
  · exact .inr (by rw [fitRegion_of_not_wide htall])

/-- A size of at most `c`, centred by half of what is left, ends within `c`. -/
theorem centred_le {size c : Nat} (hs : size ≤ c) : (c - size) / 2 + size ≤ c := by omega

/-- The region is contained in the canvas: the floored size is at most the canvas's (`fitRegion_bounds`), and centring keeps
it inside. -/
theorem fitRegion_contained (w h : Nat) :
    (fitRegion w h).x0 + (fitRegion w h).fw ≤ 800 ∧ (fitRegion w h).y0 + (fitRegion w h).fh ≤ 480 := by
  obtain ⟨-, -, hfw, hfh⟩ := fitRegion_bounds w h
  rcases Nat.lt_or_ge (h * 800) (w * 480) with hwide | htall
  · rw [fitRegion_of_wide hwide] at hfh ⊢
    exact ⟨le_refl _, centred_le hfh⟩
  · rw [fitRegion_of_not_wide htall] at hfw ⊢
    exact ⟨centred_le hfw, le_refl _⟩

theorem inRegion_iff (r : Region) (x y : Nat) :
    inRegion r x y = true ↔ r.x0 ≤ x ∧ x < r.x0 + r.fw ∧ r.y0 ≤ y ∧ y < r.y0 + r.fh := by
  simp only [inRegion, Bool.and_eq_true, decide_eq_true_eq, and_assoc]

theorem perform_fit (s : State) : perform .fit s = .done (storeFit (fitRegion (srcW s) (srcH s)) s) := rfl

/-- Settles O40: the two forms of the region, its containment, and the registers read back by `storedRegion_storeFit`. -/
theorem fitIsContained : Obligations.FitIsContained := by
  refine ⟨fun w h _ _ => ?_, inRegion_iff, fun s _ _ => ?_⟩
  · obtain ⟨hx, hy⟩ := fitRegion_contained w h
    refine ⟨hx, hy, fitRegion_full_dimension w h, fun hwide => ?_, fun htall => ?_⟩
    · rw [fitRegion_of_wide hwide]
      exact ⟨rfl, rfl, rfl, rfl⟩
    · rw [fitRegion_of_not_wide htall]
      exact ⟨rfl, rfl, rfl, rfl⟩
  · have hstored := storedRegion_storeFit (srcW s) (srcH s) s
    exact ⟨_, perform_fit s, congrArg Region.y0 hstored, congrArg Region.x0 hstored, congrArg Region.fh hstored,
      congrArg Region.fw hstored, rfl⟩

end Sys2Proof.Machine
end

section
/-! The nearest palette colour: the choice of `nearest` is the library's `List.argmin` over the indices in order, which gives
both the least distance and the tie rule (spec/41_dither.md R153). -/

namespace Sys2Proof.Machine

/-- The fold of `nearest` computes `argmin`: only a strictly smaller value moves the choice. -/
theorem argmin_cons_eq_foldl {α : Type} (f : α → Int) (a : α) (l : List α) :
    (a :: l).argmin f = some (l.foldl (fun best k => if f k < f best then k else best) a) :=
  List.foldl_hom some fun _ _ => (apply_ite some _ _ _).symm

/-- The fold starts with index 0 and compares it with itself first. -/
theorem argmin_eq_some_nearest (palette : Vector Rgb 7) (v : Rgb) :
    (List.finRange 7).argmin (fun k => colourDist v palette[k]) = some (nearest palette v) := by
  rw [nearest, List.finRange_succ, argmin_cons_eq_foldl, List.foldl_cons, if_neg (lt_irrefl _)]

theorem colourDist_nearest_le (palette : Vector Rgb 7) (v : Rgb) (m : Fin 7) :
    colourDist v palette[nearest palette v] ≤ colourDist v palette[m] :=
  List.le_of_mem_argmin (f := fun k : Fin 7 => colourDist v palette[k]) (List.mem_finRange m) (argmin_eq_some_nearest palette v)

/-- No index as near as the chosen one comes before it. -/
theorem nearest_le_of_colourDist_le {palette : Vector Rgb 7} {v : Rgb} {k : Fin 7}
    (h : colourDist v palette[k] ≤ colourDist v palette[nearest palette v]) : nearest palette v ≤ k := by
  have hidx := List.index_of_argmin (argmin_eq_some_nearest palette v) (List.mem_finRange k) h
  rwa [List.idxOf_finRange, List.idxOf_finRange] at hidx

theorem sq_channelDiff_le (v q : Byte) : channelDiff v q ^ 2 ≤ 65025 := by
  have hv := v.isLt
  have hq := q.isLt
  have hlow : -255 ≤ channelDiff v q := by unfold channelDiff; omega
  have hhigh : channelDiff v q ≤ 255 := by unfold channelDiff; omega
  exact sq_le_sq' hlow hhigh

/-- Three channels of at most 255 squared. -/
theorem colourDist_le (v q : Rgb) : colourDist v q ≤ 195075 := by
  have hr := sq_channelDiff_le v.r q.r
  have hg := sq_channelDiff_le v.g q.g
  have hb := sq_channelDiff_le v.b q.b
  simp only [colourDist, quantError]
  omega

/-- Settles O43: `colourDist` is the distance of the statement, and `nearest` is its `argmin` (R153). -/
theorem nearestIsLeast : Obligations.NearestIsLeast :=
  fun palette v =>
    ⟨colourDist_nearest_le palette v, fun _ hk => nearest_le_of_colourDist_le (hk _), fun _ => colourDist_le _ _⟩

end Sys2Proof.Machine
end

section
/-! A region of one palette colour. The colour is its own nearest, so the first visit makes no error; no error is diffused, so
the next visit sees the same colour again (spec/41_dither.md R158). -/

namespace Sys2Proof.Machine

open Sys2Proof.Laws.Pipeline

/-! ### The colour itself -/

theorem colourDist_self (v : Rgb) : colourDist v v = 0 := by
  simp [colourDist, quantError_self]

theorem eq_of_sq_channelDiff_le_zero {v q : Byte} (h : channelDiff v q ^ 2 ≤ 0) : v = q := by
  have hzero : channelDiff v q = 0 := pow_eq_zero_iff two_ne_zero |>.1 (h.antisymm (sq_nonneg _))
  exact BitVec.eq_of_toNat_eq (by unfold channelDiff at hzero; omega)

/-- Only a colour itself is at distance 0: a sum of squares is 0 when each of them is. -/
theorem eq_of_colourDist_le_zero {v q : Rgb} (h : colourDist v q ≤ 0) : v = q := by
  obtain ⟨vr, vg, vb⟩ := v
  obtain ⟨qr, qg, qb⟩ := q
  have hr := sq_nonneg (channelDiff vr qr)
  have hg := sq_nonneg (channelDiff vg qg)
  have hb := sq_nonneg (channelDiff vb qb)
  simp only [colourDist, quantError] at h
  rw [eq_of_sq_channelDiff_le_zero (v := vr) (q := qr) (by omega), eq_of_sq_channelDiff_le_zero (v := vg) (q := qg) (by omega),
    eq_of_sq_channelDiff_le_zero (v := vb) (q := qb) (by omega)]

/-- The nearest index to a palette colour is the first that has it. -/
theorem nearest_self {palette : Vector Rgb 7} {k : Fin 7} (hfirst : ∀ m, m < k → palette[m] ≠ palette[k]) :
    nearest palette palette[k] = k := by
  have hdist : colourDist palette[k] palette[nearest palette palette[k]] ≤ 0 :=
    (colourDist_nearest_le palette _ k).trans_eq (colourDist_self _)
  have hcolour : palette[nearest palette palette[k]] = palette[k] := (eq_of_colourDist_le_zero hdist).symm
  have hle : nearest palette palette[k] ≤ k := nearest_le_of_colourDist_le (by rw [hcolour])
  exact hle.eq_of_not_lt fun hlt => hfirst _ hlt hcolour

theorem clamp_byte (c : Byte) : clamp c.toNat 0 255 = c.toNat := by
  have hc := c.isLt
  rw [clamp, if_neg (by omega), if_neg (by omega)]

theorem workingChannel_zero (c : Byte) : workingChannel c 0 = c := by
  simp [workingChannel, clamp_byte]

theorem workingValue_zero (c : Rgb) : workingValue c ⟨0, 0, 0⟩ = c := by
  simp only [workingValue, workingChannel_zero]

/-! ### No error, no diffusion -/

theorem diffuse_zero (r : Region) (p q weight : Int) (err : Array ErrTriple) :
    diffuse r p q weight ⟨0, 0, 0⟩ err = err := by
  apply Array.ext_getElem?
  intro n
  rw [diffuse_getElem, funext (addShare_zero weight), Option.map_id', ite_self]

theorem diffuseAll_zero (r : Region) (i j : Nat) (err : Array ErrTriple) : diffuseAll r i j ⟨0, 0, 0⟩ err = err := by
  simp only [diffuseAll, diffuse_zero]

/-! ### The pass over the region -/

/-- The region lies within the canvas, its pixels all have palette colour `k`, and no lower index has that colour (R158). -/
structure SolidRegion (palette : Vector Rgb 7) (r : Region) (ct : Array Rgb) (k : Fin 7) : Prop where
  width : r.x0 + r.fw ≤ 800
  height : r.y0 + r.fh ≤ 480
  first : ∀ m, m < k → palette[m] ≠ palette[k]
  pixel : ∀ x y, inRegion r x y = true → ct[800 * y + x]? = some palette[k]

variable {palette : Vector Rgb 7} {r : Region} {ct : Array Rgb} {k : Fin 7} {b : DitherBuffers} {i j n : Nat}

section

variable (h : SolidRegion palette r ct k) (hb : b.err = Array.replicate (r.fw * r.fh) ⟨0, 0, 0⟩)
  (hi : i < r.fw) (hj : j < r.fh)

include h hb hi hj

/-- With no error accumulated, a visit works with the region's colour. -/
theorem SolidRegion.visitValue_eq : visitValue r ct b i j = palette[k] := by
  have hsample : ct[rasterPos (r.x0 + i) (r.y0 + j)]? = some palette[k] := h.pixel _ _ ((inRegion_iff _ _ _).2 (by omega))
  have hpos : j * r.fw + i < r.fw * r.fh := by
    rw [Nat.mul_comm j, Nat.add_comm]
    exact Nat.add_mul_lt_mul_of_lt_of_lt hi hj
  rw [visitValue, hb, Array.getD_eq_getD_getElem?, Array.getD_eq_getD_getElem?, hsample, Array.getElem?_replicate, if_pos hpos]
  exact workingValue_zero _

theorem SolidRegion.visitIndex_eq : visitIndex palette r ct b i j = k := by
  rw [visitIndex, h.visitValue_eq hb hi hj, nearest_self h.first]

theorem SolidRegion.visitError_eq : visitError palette r ct b i j = ⟨0, 0, 0⟩ := by
  simp only [visitError, h.visitIndex_eq hb hi hj, h.visitValue_eq hb hi hj, quantError_self]

/-- Such a visit emits index `k` and changes nothing else. -/
theorem SolidRegion.quantizePixel_eq : quantizePixel palette r ct b i j =
    ⟨b.err, b.idx.setIfInBounds (rasterPos (r.x0 + i) (r.y0 + j)) (BitVec.ofNat 3 k)⟩ := by
  rw [quantizePixel, h.visitError_eq hb hi hj, h.visitIndex_eq hb hi hj, diffuseAll_zero]

end

/-- However far the pass has come, no error is accumulated: each visit starts with none and diffuses none. -/
theorem SolidRegion.err_eq (h : SolidRegion palette r ct k) (hn : n ≤ r.fw * r.fh) :
    (ditherPrefix palette r ct n).err = Array.replicate (r.fw * r.fh) ⟨0, 0, 0⟩ := by
  refine ditherPrefix_induction (P := fun b => b.err = Array.replicate (r.fw * r.fh) ⟨0, 0, 0⟩) rfl ?_ n hn
  intro b i j hi hj hb
  rw [h.quantizePixel_eq hb hi hj]
  exact hb

/-- The pixel of every visit made so far has index `k`: the last visit wrote `k` there, and wrote nothing but `k` elsewhere. -/
theorem SolidRegion.idx_visited (h : SolidRegion palette r ct k) (hn : n ≤ r.fw * r.fh) {q : Nat} (hq : q < n) :
    (ditherPrefix palette r ct n).idx[rasterPos (r.x0 + q % r.fw) (r.y0 + q / r.fw)]? = some (BitVec.ofNat 3 k) := by
  induction n with
  | zero => exact absurd hq (Nat.not_lt_zero q)
  | succ n ih =>
    obtain ⟨hi, hj⟩ := visit_lt hn
    have hsize := (ditherPrefix_sizes palette r ct n (Nat.le_of_succ_le hn)).2
    have hw := h.width
    have hh := h.height
    rw [ditherPrefix_succ, h.quantizePixel_eq (h.err_eq (Nat.le_of_succ_le hn)) hi hj, Array.getElem?_setIfInBounds]
    split
    · rw [if_pos (by rw [hsize, rasterPos, canvasW]; omega)]
    · next hne =>
      have hqn : q ≠ n := fun heq => hne (by rw [heq])
      exact ih (Nat.le_of_succ_le hn) (by omega)

/-- Region pixel (x, y) is the pixel of visit (y - Y0) * FW + (x - X0). -/
theorem SolidRegion.idx_region (h : SolidRegion palette r ct k) {x y : Nat} (hxy : inRegion r x y = true) :
    (ditherPass palette r ct).idx[800 * y + x]? = some (BitVec.ofNat 3 k) := by
  obtain ⟨hx0, hx, hy0, hy⟩ := (inRegion_iff _ _ _).1 hxy
  obtain ⟨i, rfl⟩ := Nat.exists_eq_add_of_le hx0
  obtain ⟨j, rfl⟩ := Nat.exists_eq_add_of_le hy0
  have hi : i < r.fw := by omega
  have hj : j < r.fh := by omega
  have hidx := h.idx_visited (le_refl _) (Nat.add_mul_lt_mul_of_lt_of_lt hi hj)
  rwa [Nat.add_mul_mod_self_left, Nat.mod_eq_of_lt hi, Nat.add_mul_div_left _ _ (Nat.zero_lt_of_lt hi), Nat.div_eq_of_lt hi,
    Nat.zero_add] at hidx

/-! ### The frame -/

/-- A canvas of one index packs to one byte throughout (spec/42_pack.md R170). -/
theorem packFrame_of_constant {idx : Array (BitVec 3)} {c : BitVec 3}
    (h : ∀ x y, x < 800 → y < 480 → idx[800 * y + x]? = some c) :
    packFrame idx = List.replicate 192000 (packPair c c) := by
  have hat : ∀ x y, x < 800 → y < 480 → idxAt idx x y = c := fun x y hx hy => by
    rw [idxAt, Array.getD_eq_getD_getElem?]
    exact congrArg (Option.getD · 0) (h x y hx hy)
  refine List.eq_replicate_iff.2 ⟨packFrame_length idx, fun byte hbyte => ?_⟩
  obtain ⟨n, hn, rfl⟩ := List.mem_map.1 hbyte
  rw [List.mem_range, frameBytes] at hn
  rw [packedByte, canvasW, hat _ _ (by omega) (by omega), hat _ _ (by omega) (by omega)]

theorem packPair_palette_index (k : Fin 7) :
    packPair (BitVec.ofNat 3 k) (BitVec.ofNat 3 k) = BitVec.ofNat 8 (16 * k + k) := by
  revert k
  decide

/-- On the whole canvas every frame byte has the index in both nibbles. -/
theorem SolidRegion.packFrame_eq (h : SolidRegion palette ⟨0, 0, 800, 480⟩ ct k) :
    packFrame (ditherPass palette ⟨0, 0, 800, 480⟩ ct).idx = List.replicate 192000 (BitVec.ofNat 8 (16 * k + k)) := by
  rw [← packPair_palette_index]
  exact packFrame_of_constant fun x y hx hy => h.idx_region ((inRegion_iff _ _ _).2 (by simp [hx, hy]))

/-- Settles O44: no error is ever accumulated, so every visit sees the region's colour and emits its index (R158). -/
theorem solidColourStaysSolid : Obligations.SolidColourStaysSolid := by
  intro palette r ct k hw hh hfirst hpixel
  have h : SolidRegion palette r ct k := ⟨hw, hh, hfirst, hpixel⟩
  refine ⟨fun n hn e he => ?_, fun n hn => ?_, fun _ _ => h.idx_region, ?_⟩
  · rw [h.err_eq hn, Array.toList_replicate] at he
    exact List.eq_of_mem_replicate he
  · exact h.visitError_eq (h.err_eq hn.le) (visit_lt hn).1 (visit_lt hn).2
  · rintro rfl
    exact h.packFrame_eq

end Sys2Proof.Machine
end

section
/-! The nibble packer and its inverse: byte `n` of a packed frame holds raster pixels 2n and 2n + 1, and the nibble that a
pixel's parity selects is that pixel's index (spec/42_pack.md R170 to R172). -/

namespace Sys2Proof.Machine

open Sys2Proof.Laws.Pipeline

variable {idx : Array (BitVec 3)} {n x y : Nat} {k even odd : BitVec 3}

/-- Pixel `2n` is in an even column, so pixel `2n + 1` is in the same row: the two are neighbours in raster order. -/
theorem packedByte_eq_packPair (idx : Array (BitVec 3)) (n : Nat) :
    packedByte idx n = packPair (idx.getD (2 * n) 0) (idx.getD (2 * n + 1) 0) := by
  have heven : rasterPos (2 * n % canvasW) (2 * n / canvasW) = 2 * n := Nat.div_add_mod _ _
  have hodd : rasterPos (2 * n % canvasW + 1) (2 * n / canvasW) = 2 * n + 1 := congrArg (· + 1) heven
  rw [packedByte, idxAt, idxAt, heven, hodd]

theorem packPair_eq_ofNat (even odd : BitVec 3) : packPair even odd = BitVec.ofNat 8 (16 * even.toNat + odd.toNat) := by
  revert even odd
  decide

theorem getD_of_getElem? (h : idx[n]? = some k) : idx.getD n 0 = k := by
  rw [Array.getD_eq_getD_getElem?, h, Option.getD_some]

/-- A packed byte as a number (R170). -/
theorem packedByte_eq_ofNat (heven : idx[2 * n]? = some even) (hodd : idx[2 * n + 1]? = some odd) :
    packedByte idx n = BitVec.ofNat 8 (16 * even.toNat + odd.toNat) := by
  rw [packedByte_eq_packPair, getD_of_getElem? heven, getD_of_getElem? hodd, packPair_eq_ofNat]

theorem packFrame_getD (hn : n < 192000) : (packFrame idx).getD n 0 = packedByte idx n := by
  rw [List.getD_eq_getElem?_getD, packFrame_getElem idx n hn, Option.getD_some]

/-- The parity of `x` is that of the raster position, since a row has an even number of pixels: it selects the nibble that
holds the pixel (R172). -/
theorem unpackPixel_packFrame (hx : x < 800) (hy : y < 480) :
    unpackPixel (fun n => (packFrame idx).getD n 0) x y = (idx.getD (800 * y + x) 0).zeroExtend 4 := by
  have hbyte : (800 * y + x) / 2 < 192000 := by omega
  simp only [unpackPixel, canvasW, packFrame_getD hbyte, packedByte_eq_packPair, packPair_high, packPair_low]
  split
  · next heven =>
    have hpos : 2 * ((800 * y + x) / 2) = 800 * y + x := by omega
    rw [hpos]
  · next hodd =>
    have hpos : 2 * ((800 * y + x) / 2) + 1 = 800 * y + x := by omega
    rw [hpos]

/-- Settles O46: the frame's length and bytes (R170, R171), and unpacking a packed frame (R172). -/
theorem unpackRecoversIndices : Obligations.UnpackRecoversIndices := by
  refine ⟨fun idx n even odd => ⟨packFrame_length idx, fun hn heven hodd => ?_⟩, fun idx x y k hx hy hk => ?_⟩
  · rw [packFrame_getElem idx n hn, packedByte_eq_ofNat heven hodd]
  · rw [unpackPixel_packFrame hx hy, getD_of_getElem? hk]

end Sys2Proof.Machine
end

section
/-! Palette indices stay 0 to 6. A dither visit emits an index of the palette, packing puts two of them into a byte, and no
host write reaches FRAMEMEM (spec/42_pack.md R174). -/

namespace Sys2Proof.Machine

open Sys2Proof.Laws.Pipeline

variable {s t : State} {idx : Array (BitVec 3)}

/-! ### IDX: only the dither pass writes it -/

theorem paletteIndex_le_six (k : Fin 7) : BitVec.ofNat 3 k ≤ 6 := by
  revert k
  decide

/-- Every index after the dither pass is a palette index: 1 before the first visit, and each visit stores one. -/
theorem ditherPass_idx_le_six (palette : Vector Rgb 7) (r : Region) (ct : Array Rgb) :
    ∀ k ∈ (ditherPass palette r ct).idx.toList, k ≤ 6 := by
  refine ditherPass_induction (P := fun b => ∀ k ∈ b.idx.toList, k ≤ 6) ?start ?visit
  case start =>
    intro k hk
    rw [ditherStart, Array.toList_replicate] at hk
    rw [List.eq_of_mem_replicate hk]
    decide
  case visit =>
    intro b i j _ _ hb k hk
    rw [quantizePixel, Array.toList_setIfInBounds] at hk
    rcases List.mem_or_eq_of_mem_set hk with hold | rfl
    · exact hb k hold
    · exact paletteIndex_le_six _

/-! ### FRAMEMEM: only packing writes it -/

theorem zeroExtend_le_six {k : BitVec 3} (hk : k ≤ 6) : k.zeroExtend 4 ≤ 6 := by
  revert k
  decide

theorem packPair_nibblesOk {even odd : BitVec 3} (heven : even ≤ 6) (hodd : odd ≤ 6) : nibblesOk (packPair even odd) := by
  rw [nibblesOk, packPair_high, packPair_low]
  exact ⟨zeroExtend_le_six heven, zeroExtend_le_six hodd⟩

/-- A pixel that nothing is stored for counts as index 0. -/
theorem getD_le_six (h : ∀ k ∈ idx.toList, k ≤ 6) (n : Nat) : idx.getD n 0 ≤ 6 := by
  rw [Array.getD_eq_getD_getElem?]
  cases hn : idx[n]? with
  | none => decide
  | some k => exact h k (Array.mem_toList_iff.2 (Array.mem_of_getElem? hn))

theorem packFrame_nibblesOk (h : ∀ k ∈ idx.toList, k ≤ 6) : ∀ b ∈ packFrame idx, nibblesOk b := by
  intro b hb
  obtain ⟨n, -, rfl⟩ := List.mem_map.1 hb
  rw [packedByte_eq_packPair]
  exact packPair_nibblesOk (getD_le_six h _) (getD_le_six h _)

/-- A place of SRCMEM is its own address, below the window's end (spec/20_memory.md R61). -/
theorem placeAt_eq_srcmem {cfg : Config} {n m : Nat} (h : placeAt cfg n = .srcmem m) :
    m = n ∧ n < srcBase + 4 * cfg.srcmemWords.val := by
  unfold placeAt at h
  split_ifs at h with _ hsrc
  · exact absurd h (registerAt_ne_srcmem _ _)
  · exact ⟨(Place.srcmem.inj h).symm, hsrc.2⟩

/-- A host write other than that of CMD leaves IDX, and changes memory at most by the one word of SRCMEM that it goes to
(spec/20_memory.md R69). -/
theorem writePlace_buffers (v : Word) (s : State) (p : Place) : (writePlace v s p).idx = s.idx ∧
    ((writePlace v s p).mem = s.mem ∨ ∃ n, p = .srcmem n ∧ (writePlace v s p).mem = memWriteWord s.mem n v) := by
  cases p with
  | srcDim =>
    rw [writePlace]
    split <;> exact ⟨rfl, .inl rfl⟩
  | srcmem n =>
    rw [writePlace]
    split
    · exact ⟨rfl, .inl rfl⟩
    · exact ⟨rfl, .inr ⟨n, rfl, rfl⟩⟩
  | cmd | status | error | fitOrigin | fitSize | reserved | framemem | unmapped => exact ⟨rfl, .inl rfl⟩

/-! ### The invariant -/

/-- The invariant is about IDX and memory alone. -/
theorem indicesOk_of_buffers_eq (h : indicesOk s) (hmem : t.mem = s.mem) (hidx : t.idx = s.idx) : indicesOk t := by
  rw [indicesOk, hmem, hidx]
  exact h

/-- Bytes written to memory keep the invariant if each is below FRAMEMEM or holds two indices. -/
theorem indicesOk_of_memWrite {a : Nat} {bs : List Byte} (h : indicesOk s) (hmem : t.mem = memWrite s.mem a bs)
    (hidx : t.idx = s.idx) (hbs : a + bs.length ≤ frameBase ∨ ∀ b ∈ bs, nibblesOk b) : indicesOk t := by
  obtain ⟨hidxOk, hmemOk⟩ := h
  rw [indicesOk, hmem, hidx]
  refine ⟨hidxOk, fun c hc hframe => ?_⟩
  rcases mem_memWrite hc with ⟨hold, -⟩ | ⟨hrange, hnew⟩
  · exact hmemOk c hold hframe
  · rcases hbs with hbelow | hnibbles
    · omega
    · exact hnibbles _ hnew

/-- An action that writes IDX or memory is dither, which stores palette indices, or pack, which packs them. -/
theorem effect_indicesOk {op : Op} (he : Effect op s t) (h : indicesOk s) : indicesOk t := by
  rcases effect_buffers he with ⟨hmem, hidx⟩ | ⟨-, hmem, hidx⟩ | ⟨-, hmem, hidx⟩
  · exact indicesOk_of_buffers_eq h hmem hidx
  · rw [indicesOk, hmem, hidx]
    exact ⟨ditherPass_idx_le_six _ _ _, h.2⟩
  · exact indicesOk_of_memWrite h hmem hidx (.inr (packFrame_nibblesOk h.1))

/-- A word written to SRCMEM at a multiple of 4 ends below FRAMEMEM. -/
theorem writePlace_indicesOk {a : HostAddr} (v : Word) (h : indicesOk s) (ha : a.toNat % 4 = 0) :
    indicesOk (writePlace v s (placeAt s.cfg a.toNat)) := by
  obtain ⟨hidx, hmem | ⟨n, hp, hmem⟩⟩ := writePlace_buffers v s (placeAt s.cfg a.toNat)
  · exact indicesOk_of_buffers_eq h hmem hidx
  · obtain ⟨rfl, hlt⟩ := placeAt_eq_srcmem hp
    refine indicesOk_of_memWrite h hmem hidx (.inl ?_)
    have hend := srcmem_end_le_frameBase s.cfg
    rw [wordBytes_length]
    unfold srcBase frameBase at *
    omega

theorem indicesOk_engineKeeps : EngineKeeps indicesOk where
  perform _ _ _ h hp := effect_indicesOk (effect_of_perform hp) h
  finish _ _ h := h
  raise _ _ h := h
  todo _ _ h := h

/-- Block reset leaves no index and no written byte (spec/10_state.md R50). -/
theorem blockReset_indicesOk (s : State) : indicesOk (blockReset s) :=
  ⟨fun _ hk => absurd hk List.not_mem_nil, fun _ hc => absurd hc List.not_mem_nil⟩

/-- Settles O58: of all that a step can do, only dither writes IDX, and only pack and the host's writes to SRCMEM write
memory (R174). -/
theorem indicesStayInPalette : Obligations.IndicesStayInPalette := fun _ _ h hstep =>
  indicesOk_engineKeeps.step (hin := fun _ _ h => h) (hreset := fun _ _ => blockReset_indicesOk _)
    (hedge := fun _ h => indicesOk_of_buffers_eq h (clockEdge_mem _) (clockEdge_idx _)) (hread := fun _ _ h => h)
    (hwrite := fun _ v _ h ha => writePlace_indicesOk v h ha) (hdrop := fun _ h => h) (hillegal := fun _ h => h)
    (haccept := fun _ h => h) (hstart := fun _ h => h) h hstep

end Sys2Proof.Machine
end

section
/-! A line write. Answered ok, it moves the line's level and pin together; answered LineWriteFailed, it leaves the level, draws the
pin, and raises the error at once, so that the abort path stands before its first gate (spec/43_digital_line.md R186, R187;
spec/60_exceptions.md R305). -/

namespace Sys2Proof.Machine

variable {s t : State} {l : Line} {v : Bool} {ins : List Input}

theorem exec_lineSet (l : Line) (v : Bool) (s : State) :
    exec (.lineSet l v) s = runOps runAbort [.request (.lineSet l v), .await, .check] s := rfl

/-! ### Outcome ok -/

theorem exec_lineSet_ok (hc : (lineOf s l).claimed = true) (hh : s.held = none) (hi : s.inputs = .answer .ok :: ins) :
    exec (.lineSet l v) s = .next (setLine l ⟨true, v⟩ (.driven v) (answered (.lineSet l v) ins s)) := by
  rw [exec_lineSet, runOps_lineSet_ok hc hi hh, runOps_nil]

/-- Settles O25: the state after the outcome, for each line (R186). -/
theorem lineSetCompletes : Obligations.LineSetCompletes :=
  fun _ _ _ hh hi => ⟨fun hc => exec_lineSet_ok (l := .rst) hc hh hi, fun hc => exec_lineSet_ok (l := .dc) hc hh hi⟩

/-! ### The abort path before its first gate -/

theorem perform_gate_wait (h : ∀ ins, s.inputs ≠ .work :: ins) : perform .gate s = .wait s := by
  rw [perform, perfGate]
  split
  · next ins hi => exact absurd hi (h ins)
  · rfl

theorem abortSequence_eq_gate_cons (s : State) : ∃ ops, abortSequence s = .gate :: ops := by
  unfold abortSequence
  cases s.dc.claimed <;> cases s.rst.claimed <;> cases s.bus.isSome <;> exact ⟨_, rfl⟩

/-- The abort path waits for the engine's work before it releases anything (assumption 4). -/
theorem runAbort_wait (h : ∀ ins, s.inputs ≠ .work :: ins) :
    runAbort s = .next { s with todo := abortSequence s ++ s.todo } := by
  obtain ⟨ops, hops⟩ := abortSequence_eq_gate_cons s
  rw [runAbort, hops, runOps_wait (perform_gate_wait h)]

/-- What is released depends on what is held alone. -/
theorem abortSequence_congr (hline : ∀ m, lineOf t m = lineOf s m) (hbus : t.bus = s.bus) :
    abortSequence t = abortSequence s := by
  have hrst : t.rst = s.rst := hline .rst
  have hdc : t.dc = s.dc := hline .dc
  rw [abortSequence, abortSequence, hrst, hdc, hbus]

/-! ### Outcome LineWriteFailed -/

/-- Raising a failure forgets whatever failure was kept. -/
theorem raiseError_noteFailure (f : Failure) (c : ErrClass) (s : State) : raiseError f (noteFailure c s) = raiseError f s := by
  unfold noteFailure
  split <;> rfl

theorem pinAfterFailedWrite_cases (draw requested : Bool) (previous : Pin) :
    pinAfterFailedWrite draw requested previous = previous ∨ pinAfterFailedWrite draw requested previous = .driven requested := by
  cases draw
  · exact .inl rfl
  · exact .inr rfl

/-- The state after a line write that failed, its error not yet raised. -/
def afterFailedLineSet (l : Line) (v : Bool) (ins : List Input) (s : State) : State :=
  setLine l (lineOf s l) (pinAfterFailedWrite (Config.drawBit s.draws) v (pinOf s l))
    { s with
      trace := s.trace ++ [.lineSet l v], outcomes := s.outcomes ++ [.fail .lineWriteFailed], outstanding := none
      inputs := ins, draws := s.draws + 1 }

theorem settleEvent_lineSet_fail (hc : (lineOf s l).claimed = true) :
    settleEvent (.lineSet l v) (.fail .lineWriteFailed) { issueEvent (.lineSet l v) s with inputs := ins }
      = noteFailure .lineWriteFailed (afterFailedLineSet l v ins s) := by
  have hline : lineOf s l = ⟨true, (lineOf s l).level⟩ := by rw [← hc]
  rw [settleEvent, effectFail, driveLine_claimed (by cases l <;> exact hc), afterFailedLineSet, hline]
  cases l <;> rfl

theorem lineOf_afterFailedLineSet (l m : Line) (v : Bool) (ins : List Input) (s : State) :
    lineOf (afterFailedLineSet l v ins s) m = lineOf s m := by
  cases l <;> cases m <;> rfl

theorem pinOf_afterFailedLineSet (l : Line) (v : Bool) (ins : List Input) (s : State) :
    pinOf (afterFailedLineSet l v ins s) l = pinOf s l ∨ pinOf (afterFailedLineSet l v ins s) l = .driven v := by
  rw [afterFailedLineSet, pinOf_setLine_self]
  exact pinAfterFailedWrite_cases _ _ _

/-- The failure is raised at the position that stands (R187). -/
theorem exec_lineSet_fail (hc : (lineOf s l).claimed = true) (hh : s.held = none)
    (hi : s.inputs = .answer (.fail .lineWriteFailed) :: ins) :
    exec (.lineSet l v) s = runAbort (raiseError ⟨.lineWriteFailed, s.pos⟩ (afterFailedLineSet l v ins s)) := by
  have hreq : perfRequest (.lineSet l v) s = .done (issueEvent (.lineSet l v) s) := by simp [perfRequest, hc]
  have hheld : (noteFailure .lineWriteFailed (afterFailedLineSet l v ins s)).held = some ⟨.lineWriteFailed, s.pos⟩ := by
    rw [noteFailure_held_none (by simp [afterFailedLineSet, hh])]
    simp [afterFailedLineSet]
  rw [exec_lineSet, runOps_issue_fail hreq rfl hi rfl (by rw [settleEvent_lineSet_fail hc, hheld]),
    settleEvent_lineSet_fail hc, raiseError_noteFailure]

/-- Settles O30: after the outcome the error is raised, and with no work to come the abort path stands before its first gate
(R187, R305). -/
theorem lineSetFailure : Obligations.LineSetFailure := by
  intro s l v hc hh hi
  have hexec := exec_lineSet_fail (v := v) hc hh hi
  rw [runAbort_wait (by simp [afterFailedLineSet])] at hexec
  have hline := fun m => lineOf_afterFailedLineSet l m v [] s
  have hbus : (afterFailedLineSet l v [] s).bus = s.bus := by simp [afterFailedLineSet]
  refine ⟨_, hexec, hline l, pinOf_afterFailedLineSet l v [] s, rfl, rfl, ?_, ?_, ?_, ?_, hbus, ?_⟩
  case refine_2 =>
    rw [raiseError_todo, List.append_nil]
    exact abortSequence_congr hline hbus
  all_goals simp [afterFailedLineSet]

end Sys2Proof.Machine
end

section
/-! The ways a protocol step and the reset sequence fail. A failed micro-operation leaves its failure to the next check, which
raises it, and the abort path then releases the three resources (spec/45_command_protocol.md R233, R237, R268, R269;
spec/60_exceptions.md R305). What stands up to the failure is the relation `Emits`; a run that stops is `AbortsFrom`. -/

namespace Sys2Proof.Machine

variable {k : State → StepOutcome} {s t u : State} {e : WireEvent} {a b : Answer} {c : ErrClass} {f : Failure}
  {es es' : List WireEvent} {rest : List Op} {ins : List Input} {l : Line} {v : Bool} {p q : Pos} {pl : Payload}

/-! ### What is held, and what stands while micro-operations run -/

/-- The bus is open and both lines are claimed. -/
structure AllHeld (s : State) : Prop where
  bus : s.bus.isSome = true
  rst : s.rst.claimed = true
  dc : s.dc.claimed = true

theorem AllHeld.line (h : AllHeld s) (l : Line) : (lineOf s l).claimed = true := by
  cases l
  · exact h.rst
  · exact h.dc

theorem allHeld_setLine (h : AllHeld s) (l : Line) (v : Bool) (p : Pin) : AllHeld (setLine l ⟨true, v⟩ p s) := by
  cases l
  · exact ⟨h.bus, rfl, h.dc⟩
  · exact ⟨h.bus, h.rst, rfl⟩

theorem allHeld_driveLine (h : AllHeld s) (l : Line) (v : Bool) (p : Pin) : AllHeld (driveLine l v p s) := by
  rw [driveLine_claimed (h.line l)]
  exact allHeld_setLine h l v p

/-- No outcome takes away what is held. -/
theorem allHeld_settleEvent (h : AllHeld s) (e : WireEvent) (a : Answer) : AllHeld (settleEvent e a s) := by
  have h0 : AllHeld { s with outstanding := none, outcomes := s.outcomes ++ [a] } := ⟨h.bus, h.rst, h.dc⟩
  cases a with
  | ok =>
    cases e with
    | busOpen mode hz => exact ⟨rfl, h.rst, h.dc⟩
    | lineClaim l _ => exact allHeld_setLine h0 l false _
    | lineSet l v => exact allHeld_driveLine h0 l v _
    | xfer | busClose | lineRelease | delay => exact ⟨h.bus, h.rst, h.dc⟩
  | fail c =>
    have heff : AllHeld (effectFail e { s with outstanding := none, outcomes := s.outcomes ++ [.fail c] }) := by
      cases e with
      | lineSet l v =>
        have hd := allHeld_driveLine h0 l (lineOf s l).level (pinAfterFailedWrite (Config.drawBit s.draws) v (pinOf s l))
        cases l <;> exact ⟨hd.bus, hd.rst, hd.dc⟩
      | busOpen | lineClaim | xfer | busClose | lineRelease | delay => exact ⟨h.bus, h.rst, h.dc⟩
    constructor
    · simpa [settleEvent] using heff.bus
    · simpa [settleEvent] using heff.rst
    · simpa [settleEvent] using heff.dc

/-- From `s` the engine came to `t` with the wire events `es`: PSTATE, STEP and the memories stand, and nothing held was given
up. -/
structure Emits (es : List WireEvent) (s t : State) : Prop where
  trace : t.trace = s.trace ++ es
  pstate : t.pstate = s.pstate
  stepIx : t.stepIx = s.stepIx
  mem : t.mem = s.mem
  held : AllHeld s → AllHeld t

theorem Emits.trans (h : Emits es s t) (g : Emits es' t u) : Emits (es ++ es') s u where
  trace := by rw [g.trace, h.trace, List.append_assoc]
  pstate := g.pstate.trans h.pstate
  stepIx := g.stepIx.trans h.stepIx
  mem := g.mem.trans h.mem
  held hs := g.held (h.held hs)

theorem emits_settleEvent (e : WireEvent) (a : Answer) (s : State) : Emits [] s (settleEvent e a s) where
  trace := by rw [trace_settleEvent, List.append_nil]
  pstate := congrArg Progress.pstate (settleEvent_progress e a s).1
  stepIx := congrArg Progress.step (settleEvent_progress e a s).1
  mem := by
    cases a with
    | ok => cases e <;> simp [settleEvent, effectOk]
    | fail c => cases e <;> simp [settleEvent, effectFail]
  held h := allHeld_settleEvent h e a

/-! ### One event and its outcome -/

/-- The failure that an outcome at a position leaves to be raised. -/
def Answer.failureAt : Answer → Pos → Option Failure
  | .ok, _ => none
  | .fail c, p => some ⟨c, p⟩

/-- The first failure in program order stays (R233, R304). -/
theorem settleEvent_held (e : WireEvent) (a : Answer) (s : State) :
    (settleEvent e a s).held = s.held.or (a.failureAt s.pos) := by
  cases a with
  | ok => cases e <;> simp [settleEvent, effectOk, Answer.failureAt]
  | fail c =>
    have heff : ∀ t : State, (effectFail e t).held = t.held ∧ (effectFail e t).pos = t.pos := by
      intro t
      cases e <;> simp [effectFail]
    cases hh : s.held with
    | none => rw [settleEvent, noteFailure_held_none (by rw [(heff _).1, hh]), (heff _).2]; rfl
    | some f => rw [settleEvent, noteFailure_held_some (by rw [(heff _).1, hh])]; rfl

theorem settleEvent_inputs (e : WireEvent) (a : Answer) (s : State) : (settleEvent e a s).inputs = s.inputs := by
  cases a with
  | ok => cases e <;> simp [settleEvent, effectOk]
  | fail c => cases e <;> simp [settleEvent, effectFail]

/-- From `s` the event `e` was emitted and answered with `a`, with `ins` still to come. -/
structure AnsweredWith (e : WireEvent) (a : Answer) (ins : List Input) (s u : State) : Prop where
  emits : Emits [e] s u
  held : u.held = s.held.or (a.failureAt s.pos)
  inputs : u.inputs = ins

/-- A request whose event is awaited, and its outcome, whatever it is. -/
theorem runOps_request_answered {r : Request} (hr : perform (.request r) s = .done t) (ht : Emits [e] s t)
    (ho : t.outstanding = some e) (hh : t.held = s.held) (hp : t.pos = s.pos) (hi : t.inputs = .answer a :: ins)
    (ha : admits e a = true) :
    ∃ u, AnsweredWith e a ins s u ∧ ∀ k rest, runOps k (.request r :: .await :: rest) s = runOps k rest u := by
  have hin : Emits [e] s { t with inputs := ins } :=
    ⟨ht.trace, ht.pstate, ht.stepIx, ht.mem, fun h => ⟨(ht.held h).bus, (ht.held h).rst, (ht.held h).dc⟩⟩
  refine ⟨settleEvent e a { t with inputs := ins },
    ⟨hin.trans (emits_settleEvent e a _), ?_, settleEvent_inputs e a _⟩, fun k rest => ?_⟩
  · rw [settleEvent_held, hh, hp]
  · rw [runOps_done hr, runOps_done (perform_await_answer ho hi ha)]

/-- A line write (spec/43_digital_line.md R186, R187). -/
theorem runOps_lineSet_answered (hc : (lineOf s l).claimed = true) (hi : s.inputs = .answer a :: ins)
    (ha : admits (.lineSet l v) a = true) :
    ∃ u, AnsweredWith (.lineSet l v) a ins s u
      ∧ ∀ k rest, runOps k (.request (.lineSet l v) :: .await :: rest) s = runOps k rest u := by
  have hr : perform (.request (.lineSet l v)) s = .done (issueEvent (.lineSet l v) s) := by simp [perform, perfRequest, hc]
  exact runOps_request_answered hr ⟨rfl, rfl, rfl, rfl, fun h => ⟨h.bus, h.rst, h.dc⟩⟩ rfl rfl rfl hi ha

/-- A transfer (spec/44_serial_bus.md R202, R203). -/
theorem runOps_xfer_answered (hb : s.bus.isSome = true) (hi : s.inputs = .answer a :: ins)
    (ha : admits (.xfer s.dc.level (payloadBytes s pl)) a = true) :
    ∃ u, AnsweredWith (.xfer s.dc.level (payloadBytes s pl)) a ins s u
      ∧ ∀ k rest, runOps k (.request (.xfer pl) :: .await :: rest) s = runOps k rest u := by
  have hr : perform (.request (.xfer pl)) s = .done (startXfer (payloadBytes s pl) { s with draws := s.draws + 1 }) := by
    simp [perform, perfRequest, hb]
  exact runOps_request_answered hr ⟨rfl, rfl, rfl, rfl, fun h => ⟨h.bus, h.rst, h.dc⟩⟩ rfl rfl rfl hi ha

/-! ### Runs that stop -/

/-- The work that the abort path takes when everything is held: one for each of the three releases and one for its end. -/
def abortWork : List Input := List.replicate 4 .work

/-- A run from `s` emitted `es`, then raised `f`, and the abort path released everything, with `ins` still to come (R305). -/
def AbortsFrom (es : List WireEvent) (f : Failure) (ins : List Input) (s : State) (o : StepOutcome) : Prop :=
  ∃ u, Emits es s u ∧ o = .next (afterRelease false ins (raiseError f u))

/-- What went well before a failure stands before it in the trace. -/
theorem Emits.aborts {o : StepOutcome} (h : Emits es s t) (hs : AllHeld s) (g : AllHeld t → AbortsFrom es' f ins t o) :
    AbortsFrom (es ++ es') f ins s o := by
  obtain ⟨u, hu, ho⟩ := g (h.held hs)
  exact ⟨u, h.trans hu, ho⟩

/-- The abort path when everything is held. -/
theorem runAbort_allHeld (h : AllHeld s) (hi : s.inputs = abortWork ++ ins) :
    runAbort s = .next (afterRelease false ins s) := by
  have hcount : heldCount s + 1 = 4 := by simp [heldCount, h.bus, h.rst, h.dc]
  rw [runAbort_eq (by rw [hcount]; exact hi)]
  simp [afterAbort, afterRelease, heldReleases, releaseTrace, h.bus, h.rst, h.dc]

/-- A check after an event that left a failure, now or before. -/
theorem AnsweredWith.aborts (h : AnsweredWith e a (abortWork ++ ins) s u) (hs : AllHeld s)
    (hf : s.held.or (a.failureAt s.pos) = some f) : AbortsFrom [e] f ins s (runOps runAbort (.check :: rest) u) := by
  have hu := h.emits.held hs
  refine ⟨u, h.emits, ?_⟩
  rw [runOps_raise (perform_check_some (h.held.trans hf))]
  exact runAbort_allHeld ⟨hu.bus, hu.rst, hu.dc⟩ h.inputs

theorem emits_setPos (q : Pos) (ins : List Input) (s : State) : Emits [] s { s with pos := q, inputs := ins } :=
  ⟨(List.append_nil _).symm, rfl, rfl, rfl, fun h => ⟨h.bus, h.rst, h.dc⟩⟩

/-- A line write, when it fails or a failure is kept from before. -/
theorem lineSet_aborts (hs : AllHeld s) (hi : s.inputs = .answer a :: (abortWork ++ ins)) (ha : admits (.lineSet l v) a = true)
    (hf : s.held.or (a.failureAt p) = some f) :
    AbortsFrom [.lineSet l v] f ins s (runOps runAbort (microOp p (.lineSet l v) ++ rest) s) := by
  have hp : AllHeld { s with pos := p } := ⟨hs.bus, hs.rst, hs.dc⟩
  obtain ⟨u, hu, hrun⟩ := runOps_lineSet_answered (s := { s with pos := p }) (hp.line l) hi ha
  have hops : runOps runAbort (microOp p (.lineSet l v) ++ rest) s = runOps runAbort (.check :: rest) u := hrun _ _
  rw [hops]
  exact (emits_setPos p s.inputs s).aborts hs fun hp => hu.aborts hp hf

/-- Such a line write behind a gate. -/
theorem gatedLineSet_aborts (hs : AllHeld s) (hi : s.inputs = .work :: .answer a :: (abortWork ++ ins))
    (ha : admits (.lineSet l v) a = true) (hf : s.held.or (a.failureAt p) = some f) :
    AbortsFrom [.lineSet l v] f ins s (runOps runAbort (.gate :: (microOp p (.lineSet l v) ++ rest)) s) := by
  rw [runOps_gate hi]
  exact (emits_setPos s.pos _ s).aborts hs fun ht => lineSet_aborts ht rfl ha hf

/-- The transfer of an opcode that fails. -/
theorem opcode_aborts {op : Byte} (hs : AllHeld s) (hh : s.held = none)
    (hi : s.inputs = .answer (.fail .transferFailed) :: (abortWork ++ ins)) :
    AbortsFrom [.xfer s.dc.level [op]] ⟨.transferFailed, p⟩ ins s
      (runOps runAbort (microOp p (.xfer (.const [op])) ++ rest) s) := by
  have hp : AllHeld { s with pos := p } := ⟨hs.bus, hs.rst, hs.dc⟩
  obtain ⟨u, hu, hrun⟩ := runOps_xfer_answered (pl := .const [op]) hp.bus hi rfl
  have hops : runOps runAbort (microOp p (.xfer (.const [op])) ++ rest) s = runOps runAbort (.check :: rest) u := hrun _ _
  rw [hops]
  exact (emits_setPos p s.inputs s).aborts hs fun hp => hu.aborts hp (by rw [hh]; rfl)

/-- A line write whose outcome is ok. -/
def afterLineSet (l : Line) (v : Bool) (p : Pos) (ins : List Input) (s : State) : State :=
  setLine l ⟨true, v⟩ (.driven v) (answered (.lineSet l v) ins { s with pos := p })

section

variable (l : Line) (v : Bool) (p : Pos) (ins : List Input) (s : State)

@[simp] theorem afterLineSet_held : (afterLineSet l v p ins s).held = s.held := by simp [afterLineSet, answered]
@[simp] theorem afterLineSet_mem : (afterLineSet l v p ins s).mem = s.mem := by simp [afterLineSet, answered]
@[simp] theorem afterLineSet_inputs : (afterLineSet l v p ins s).inputs = ins := by simp [afterLineSet, answered]
@[simp] theorem afterLineSet_draws : (afterLineSet l v p ins s).draws = s.draws := by simp [afterLineSet, answered]
@[simp] theorem afterLineSet_dc_level : (afterLineSet .dc v p ins s).dc.level = v := rfl

theorem emits_afterLineSet : Emits [.lineSet l v] s (afterLineSet l v p ins s) := by
  cases l
  · exact ⟨rfl, rfl, rfl, rfl, fun h => ⟨h.bus, rfl, h.dc⟩⟩
  · exact ⟨rfl, rfl, rfl, rfl, fun h => ⟨h.bus, h.rst, rfl⟩⟩

end

theorem runOps_gatedLineSet_ok (hc : (lineOf s l).claimed = true) (hi : s.inputs = .work :: .answer .ok :: ins)
    (hh : s.held = none) :
    runOps k (.gate :: (microOp p (.lineSet l v) ++ rest)) s = runOps k rest (afterLineSet l v p ins s) := by
  rw [runOps_gate hi]
  exact runOps_lineSet_ok (s := { s with pos := p, inputs := .answer .ok :: ins }) (by cases l <;> exact hc) rfl hh

/-! ### A command that fails (spec/45_command_protocol.md R233) -/

section

variable (ph : Phase) (n : BitVec 8) (op : Byte) (ins : List Input) (s : State)

@[simp] theorem afterOpcode_held : (afterOpcode ph n op ins s).held = s.held := rfl
@[simp] theorem afterOpcode_mem : (afterOpcode ph n op ins s).mem = s.mem := rfl
@[simp] theorem afterOpcode_draws : (afterOpcode ph n op ins s).draws = s.draws + 2 := rfl

theorem emits_afterOpcode : Emits [.xfer s.dc.level [op]] s (afterOpcode ph n op ins s) :=
  ⟨rfl, rfl, rfl, rfl, fun h => ⟨h.bus, h.rst, h.dc⟩⟩

end

theorem payloadBytes_congr (hm : t.mem = s.mem) (hd : t.draws = s.draws) (pl : Payload) :
    payloadBytes t pl = payloadBytes s pl := by
  cases pl with
  | absent | const => rfl
  | frame => simp only [payloadBytes, hm, hd]

/-- The payload's transfer under DC high and the write that drives DC low after it, whatever became of the transfer: the first
failure of the two is raised. -/
theorem payload_aborts {data : List Byte} (hs : AllHeld s) (hh : s.held = none) (hdc : s.dc.level = true)
    (hd : payloadBytes s pl = data) (hi : s.inputs = .answer a :: .work :: .answer b :: (abortWork ++ ins))
    (ha : admits (.xfer true data) a = true) (hb : admits (.lineSet .dc false) b = true)
    (hf : (a.failureAt s.pos).or (b.failureAt q) = some f) :
    AbortsFrom [.xfer true data, .lineSet .dc false] f ins s
      (runOps runAbort (.request (.xfer pl) :: .await :: .gate :: (microOp q (.lineSet .dc false) ++ rest)) s) := by
  subst hd
  obtain ⟨u, hu, hrun⟩ := runOps_xfer_answered (pl := pl) hs.bus hi (by rw [hdc]; exact ha)
  rw [hdc] at hu
  have hheld : u.held = a.failureAt s.pos := by rw [hu.held, hh, Option.none_or]
  rw [hrun]
  exact hu.emits.aborts hs fun ht => gatedLineSet_aborts ht hu.inputs hb (by rw [hheld, hf])

/-- A command with a payload, micro-operation by micro-operation. -/
theorem sendCommand_of_payload {ph : Phase} {n : BitVec 8} {op : Byte} (hp : pl.isAbsent = false) :
    sendCommand ph n op pl ++ rest = microOp ⟨ph, n, 0⟩ (.xfer (.const [op]))
      ++ .gate :: (microOp ⟨ph, n, 1⟩ (.lineSet .dc true)
        ++ .gate :: .setPos ⟨ph, n, 2⟩ :: .request (.xfer pl) :: .await
          :: .gate :: (microOp ⟨ph, n, 3⟩ (.lineSet .dc false) ++ rest)) := by
  rw [sendCommand, hp]
  rfl

section

variable {ph : Phase} {n : BitVec 8} {op : Byte} (hs : AllHeld s) (hh : s.held = none)

include hs hh

/-- Micro-operation 0 fails: the opcode. -/
theorem sendCommand_opcode_aborts (hi : s.inputs = .answer (.fail .transferFailed) :: (abortWork ++ ins)) :
    AbortsFrom [.xfer s.dc.level [op]] ⟨.transferFailed, ⟨ph, n, 0⟩⟩ ins s
      (runOps runAbort (sendCommand ph n op pl ++ rest) s) := by
  rw [sendCommand, List.append_assoc]
  exact opcode_aborts hs hh hi

/-- Micro-operation 1 fails: the write that drives DC high. -/
theorem sendCommand_dcHigh_aborts (hp : pl.isAbsent = false)
    (hi : s.inputs = .answer .ok :: .work :: .answer (.fail .lineWriteFailed) :: (abortWork ++ ins)) :
    AbortsFrom [.xfer s.dc.level [op], .lineSet .dc true] ⟨.lineWriteFailed, ⟨ph, n, 1⟩⟩ ins s
      (runOps runAbort (sendCommand ph n op pl ++ rest) s) := by
  rw [sendCommand_of_payload hp, runOps_opcode_ok hs.bus hh hi]
  exact (emits_afterOpcode ph n op _ s).aborts hs fun ht => gatedLineSet_aborts ht rfl rfl (by simp [hh, Answer.failureAt])

/-- Micro-operation 2 or 3 fails, or both: the payload, and the write that drives DC low. -/
theorem sendCommand_payload_aborts (hp : pl.isAbsent = false)
    (hi : s.inputs = .answer .ok :: .work :: .answer .ok :: .work :: .answer a :: .work :: .answer b :: (abortWork ++ ins))
    (ha : ∀ d bs, admits (.xfer d bs) a = true) (hb : admits (.lineSet .dc false) b = true)
    (hf : (a.failureAt ⟨ph, n, 2⟩).or (b.failureAt ⟨ph, n, 3⟩) = some f) :
    AbortsFrom (.xfer s.dc.level [op] :: payloadTrace (payloadBytes { s with draws := s.draws + 2 } pl)) f ins s
      (runOps runAbort (sendCommand ph n op pl ++ rest) s) := by
  rw [sendCommand_of_payload hp, runOps_opcode_ok hs.bus hh hi, runOps_gatedLineSet_ok (by exact hs.dc) rfl (by exact hh),
    runOps_gate rfl, runOps_done rfl]
  have hsent := emits_afterOpcode ph n op
    (.work :: .answer .ok :: .work :: .answer a :: .work :: .answer b :: (abortWork ++ ins)) s
  have hhigh := hsent.trans
    (emits_afterLineSet .dc true ⟨ph, n, 1⟩ (.work :: .answer a :: .work :: .answer b :: (abortWork ++ ins)) _)
  have hset := hhigh.trans (emits_setPos ⟨ph, n, 2⟩ (.answer a :: .work :: .answer b :: (abortWork ++ ins)) _)
  refine hset.aborts hs fun ht => ?_
  exact payload_aborts ht (by simpa using hh) (by simp) (payloadBytes_congr (by simp) (by simp) pl) rfl (ha _ _) hb hf

end

/-! ### A protocol step that fails (spec/45_command_protocol.md R268, R269) -/

theorem exec_initInstr (k : Fin 19) (s : State) :
    exec (initInstr k) s = runOps runAbort (protocolStep .init (BitVec.ofNat 8 k) (initEntry s.cfg k)) s := by
  fin_cases k <;> rfl

theorem exec_paintInstr (k : Fin 4) (s : State) :
    exec (paintInstr k) s = runOps runAbort (protocolStep .paint (BitVec.ofNat 8 k) (paintEntry s.cfg k)) s := by
  fin_cases k <;> rfl

theorem paintEntry_op (cfg : Config) (k : Fin 4) : (paintEntry cfg k).op = paintOp cfg k := by
  fin_cases k <;> rfl

theorem paintEntry_payload_isAbsent {k : Fin 4} (hk : k ≠ 1) (cfg : Config) : (paintEntry cfg k).payload.isAbsent = false := by
  fin_cases k
  · rfl
  · exact absurd rfl hk
  · rfl
  · rfl

theorem payloadBytes_paintEntry (k : Fin 4) (s : State) :
    payloadBytes { s with draws := s.draws + 2 } (paintEntry s.cfg k).payload = paintData s k := by
  fin_cases k <;> rfl

/-- A step's command starts once STEP is written and the engine's work before it is done. -/
def commandStart (n : BitVec 8) (ins : List Input) (s : State) : State := { s with stepIx := n, inputs := ins }

/-- What the outside world does for a command that gets these answers and then fails. -/
def failingInputs (answers : List Answer) (ins : List Input) : List Input :=
  (answers.map Input.answer).intersperse .work ++ (abortWork ++ ins)

theorem runOps_protocolStep {ph : Phase} {n : BitVec 8} {en : RomEntry} (hi : s.inputs = .work :: ins) :
    ∃ rest, runOps k (protocolStep ph n en) s
      = runOps k (sendCommand ph n en.op en.payload ++ rest) (commandStart n ins s) := by
  refine ⟨if en.delayMs = 0 then [] else .gate :: waitFor en.delayMs, ?_⟩
  rw [protocolStep, List.cons_append, List.cons_append, runOps_done rfl]
  exact runOps_gate hi

section

variable {i : Instr} {ph : Phase} {n : BitVec 8} {en : RomEntry} (hs : AllHeld s) (hh : s.held = none)
  (hexec : exec i s = runOps runAbort (protocolStep ph n en) s) (hw : wrapsIn ph = true)

include hexec hw in
/-- A step fails as its command does, wrapped and annotated with its step. -/
theorem failsAt_of_command {answers : List Answer} {m : BitVec 4}
    (h : ∀ ins rest, AbortsFrom es ⟨c, ⟨ph, n, m⟩⟩ ins (commandStart n (failingInputs answers ins) s)
      (runOps runAbort (sendCommand ph n en.op en.payload ++ rest) (commandStart n (failingInputs answers ins) s))) :
    failsAt i s answers es c ⟨ph, n, m⟩ := by
  intro ins hi
  obtain ⟨rest, hrun⟩ := runOps_protocolStep (k := runAbort) (ph := ph) (n := n) (en := en) hi
  obtain ⟨u, hu, ho⟩ := h ins rest
  refine ⟨_, hexec.trans (hrun.trans ho), ?_, congrArg (· ++ releaseTrace) hu.trace, rfl, rfl, rfl, rfl, rfl, rfl, rfl,
    hu.pstate, hu.stepIx, hu.mem, rfl, rfl⟩
  exact congrArg (ErrorReg.mk c · ph n m) hw

include hs hh hexec hw

theorem step_opcode_failsAt :
    failsAt i s [.fail .transferFailed] [.xfer s.dc.level [en.op]] .transferFailed ⟨ph, n, 0⟩ :=
  failsAt_of_command hexec hw fun _ _ =>
    sendCommand_opcode_aborts (s := commandStart n _ s) ⟨hs.bus, hs.rst, hs.dc⟩ hh rfl

theorem step_dcHigh_failsAt (hp : en.payload.isAbsent = false) :
    failsAt i s [.ok, .fail .lineWriteFailed] [.xfer s.dc.level [en.op], .lineSet .dc true] .lineWriteFailed ⟨ph, n, 1⟩ :=
  failsAt_of_command hexec hw fun _ _ =>
    sendCommand_dcHigh_aborts (s := commandStart n _ s) ⟨hs.bus, hs.rst, hs.dc⟩ hh hp rfl

/-- The payload's failure is the one reported, whatever became of the write after it. -/
theorem step_payload_failsAt {m : BitVec 4} {data : List Byte} (hp : en.payload.isAbsent = false)
    (hd : payloadBytes { s with draws := s.draws + 2 } en.payload = data)
    (ha : ∀ d bs, admits (.xfer d bs) a = true) (hb : admits (.lineSet .dc false) b = true)
    (hf : (a.failureAt ⟨ph, n, 2⟩).or (b.failureAt ⟨ph, n, 3⟩) = some ⟨c, ⟨ph, n, m⟩⟩) :
    failsAt i s [.ok, .ok, a, b] (.xfer s.dc.level [en.op] :: payloadTrace data) c ⟨ph, n, m⟩ := by
  refine failsAt_of_command hexec hw fun ins rest => ?_
  have hstart := (payloadBytes_congr (t := { commandStart n (failingInputs [.ok, .ok, a, b] ins) s with draws := s.draws + 2 })
    rfl rfl en.payload).trans hd
  rw [← hstart]
  exact sendCommand_payload_aborts (s := commandStart n _ s) ⟨hs.bus, hs.rst, hs.dc⟩ hh hp rfl ha hb hf

/-- The four ways in which a step's payload fails. -/
theorem step_payload_failures {data : List Byte} (hp : en.payload.isAbsent = false)
    (hd : payloadBytes { s with draws := s.draws + 2 } en.payload = data) :
    failsAt i s [.ok, .fail .lineWriteFailed] [.xfer s.dc.level [en.op], .lineSet .dc true] .lineWriteFailed ⟨ph, n, 1⟩
      ∧ failsAt i s [.ok, .ok, .fail .transferFailed, .ok] (.xfer s.dc.level [en.op] :: payloadTrace data) .transferFailed
          ⟨ph, n, 2⟩
      ∧ failsAt i s [.ok, .ok, .fail .transferFailed, .fail .lineWriteFailed] (.xfer s.dc.level [en.op] :: payloadTrace data)
          .transferFailed ⟨ph, n, 2⟩
      ∧ failsAt i s [.ok, .ok, .ok, .fail .lineWriteFailed] (.xfer s.dc.level [en.op] :: payloadTrace data) .lineWriteFailed
          ⟨ph, n, 3⟩ :=
  ⟨step_dcHigh_failsAt hs hh hexec hw hp,
    step_payload_failsAt hs hh hexec hw hp hd (fun _ _ => rfl) rfl rfl,
    step_payload_failsAt hs hh hexec hw hp hd (fun _ _ => rfl) rfl rfl,
    step_payload_failsAt hs hh hexec hw hp hd (fun _ _ => rfl) rfl rfl⟩

end

/-- Settles O38: each micro-operation of a step's command, of the init and of the paint sequence (R233, R268, R269). -/
theorem stepFailuresAreAnnotated : Obligations.StepFailuresAreAnnotated := by
  refine ⟨fun k s hb hr hd hh => ?_, fun k s hb hr hd hh => ?_⟩
  · exact ⟨step_opcode_failsAt ⟨hb, hr, hd⟩ hh (exec_initInstr k s) rfl,
      step_payload_failures ⟨hb, hr, hd⟩ hh (exec_initInstr k s) rfl rfl rfl⟩
  · have hexec := exec_paintInstr k s
    simp only [← paintEntry_op]
    exact ⟨step_opcode_failsAt ⟨hb, hr, hd⟩ hh hexec rfl, fun hk =>
      step_payload_failures ⟨hb, hr, hd⟩ hh hexec rfl (paintEntry_payload_isAbsent hk _) (payloadBytes_paintEntry k s)⟩

/-! ### The reset sequence (spec/45_command_protocol.md R235, R237) -/

/-- What a pulse of the reset line takes from an undisturbed outside world, before `ins`. -/
def pulseInputs (ms : BitVec 16) (ins : List Input) : List Input :=
  .work :: .answer .ok :: .work :: (List.replicate ms.toNat .tick ++ ins)

/-- The inputs up to line write `u`, part by part. -/
theorem resetInputs_append (ins : List Input) :
    resetInputs 0 ++ ins = .work :: .work :: ins
      ∧ resetInputs 1 ++ ins = .work :: .work :: .answer .ok :: .work :: ins
      ∧ resetInputs 2 ++ ins = .work :: .work :: .answer .ok :: pulseInputs 100 (.work :: ins)
      ∧ resetInputs 3 ++ ins = .work :: .work :: .answer .ok :: pulseInputs 100 (pulseInputs 100 (.work :: ins)) := by
  have hms : (100 : BitVec 16).toNat = 100 := rfl
  refine ⟨rfl, rfl, ?_, ?_⟩ <;>
    simp only [resetInputs, pulseInputs, hms, List.cons_append, List.nil_append, List.append_assoc]

/-- The state after a write of the reset line and the wait after it. -/
def afterPulse (u : BitVec 4) (v : Bool) (ms : BitVec 16) (ins : List Input) (s : State) : State :=
  { s with
    rst := ⟨true, v⟩, pinRst := .driven v, dly := 0, trace := s.trace ++ [.lineSet .rst v, .delay ms]
    outcomes := s.outcomes ++ [.ok], pos := ⟨.reset, 0, u⟩, outstanding := none, inputs := ins }

theorem emits_afterPulse (u : BitVec 4) (v : Bool) (ms : BitVec 16) (ins : List Input) (s : State) :
    Emits [.lineSet .rst v, .delay ms] s (afterPulse u v ms ins s) :=
  ⟨rfl, rfl, rfl, rfl, fun h => ⟨h.bus, rfl, h.dc⟩⟩

/-- From every state that holds everything, keeps no failure and has the inputs `ins'`, these actions emit `es` and stop with `f`,
with `ins` still to come. -/
def StopsWith (ops : List Op) (es : List WireEvent) (f : Failure) (ins' ins : List Input) : Prop :=
  ∀ s, AllHeld s → s.held = none → s.inputs = ins' → AbortsFrom es f ins s (runOps runAbort ops s)

section

variable {ins' : List Input} {m : BitVec 4} {ms : BitVec 16}

theorem stopsWith_lineSet (l : Line) (v : Bool) (p : Pos) (rest : List Op) (ins : List Input) :
    StopsWith (.gate :: (microOp p (.lineSet l v) ++ rest)) [.lineSet l v] ⟨.lineWriteFailed, p⟩
      (.work :: .answer (.fail .lineWriteFailed) :: (abortWork ++ ins)) ins :=
  fun _ hs hh hi => gatedLineSet_aborts hs hi rfl (by rw [hh]; rfl)

theorem StopsWith.after_lineSet (h : StopsWith rest es f ins' ins) (l : Line) (v : Bool) (p : Pos) :
    StopsWith (.gate :: (microOp p (.lineSet l v) ++ rest)) (.lineSet l v :: es) f (.work :: .answer .ok :: ins') ins := by
  intro s hs hh hi
  rw [runOps_gatedLineSet_ok (hs.line l) hi hh]
  exact (emits_afterLineSet l v p ins' s).aborts hs fun ht => h _ ht (by simpa using hh) (by simp)

theorem stopsWith_resetPulse (m : BitVec 4) (v : Bool) (ms : BitVec 16) (rest : List Op) (ins : List Input) :
    StopsWith (resetPulse m v ms ++ rest) [.lineSet .rst v] ⟨.lineWriteFailed, ⟨.reset, 0, m⟩⟩
      (.work :: .answer (.fail .lineWriteFailed) :: (abortWork ++ ins)) ins := by
  have hops : resetPulse m v ms ++ rest
      = .gate :: (microOp ⟨.reset, 0, m⟩ (.lineSet .rst v) ++ .gate :: (waitFor ms ++ rest)) := by
    simp only [resetPulse, List.append_assoc, List.cons_append]
  rw [hops]
  exact stopsWith_lineSet .rst v _ _ ins

theorem StopsWith.after_resetPulse (h : StopsWith rest es f ins' ins) (m : BitVec 4) (v : Bool) (ms : BitVec 16) :
    StopsWith (resetPulse m v ms ++ rest) (.lineSet .rst v :: .delay ms :: es) f (pulseInputs ms ins') ins := by
  intro s hs hh hi
  rw [runOps_resetPulse hs.rst hh hi]
  exact (emits_afterPulse m v ms ins' s).aborts hs fun ht => h (afterPulse m v ms ins' s) ht hh rfl

end

/-- The reset sequence once RESETTING has been entered. -/
def resetWrites : List Op :=
  .gate :: (microOp ⟨.reset, 0, 0⟩ (.lineSet .dc false)
    ++ (resetPulse 1 true 100 ++ (resetPulse 2 false 100 ++ (resetPulse 3 true 1000 ++ []))))

theorem resetSequence_eq : resetSequence = .gate :: .setPState .resetting :: resetWrites := by
  simp only [resetSequence, resetWrites, List.append_assoc, List.cons_append, List.nil_append, List.append_nil]

/-- A reset sequence that stops at line write `u`: no later line write and no later delay happens (R237). -/
theorem reset_aborts (u : Fin 4) (hs : AllHeld s) (hh : s.held = none)
    (hi : s.inputs = resetInputs u ++ .answer (.fail .lineWriteFailed) :: (abortWork ++ ins)) :
    AbortsFrom (resetTrace.take (#v[1, 2, 4, 6][u])) ⟨.lineWriteFailed, ⟨.reset, 0, BitVec.ofNat 4 u⟩⟩ ins
      { s with pstate := .resetting, stepIx := 0 } (engine resetSequence s) := by
  obtain ⟨h0, h1, h2, h3⟩ := resetInputs_append (.answer (.fail .lineWriteFailed) :: (abortWork ++ ins))
  have hstops : ∃ ins', resetInputs u ++ .answer (.fail .lineWriteFailed) :: (abortWork ++ ins) = .work :: ins'
      ∧ StopsWith resetWrites (resetTrace.take (#v[1, 2, 4, 6][u])) ⟨.lineWriteFailed, ⟨.reset, 0, BitVec.ofNat 4 u⟩⟩
        ins' ins := by
    match u with
    | 0 => exact ⟨_, h0, stopsWith_lineSet .dc false _ _ ins⟩
    | 1 => exact ⟨_, h1, (stopsWith_resetPulse 1 true 100 _ ins).after_lineSet .dc false _⟩
    | 2 =>
      exact ⟨_, h2, ((stopsWith_resetPulse 2 false 100 _ ins).after_resetPulse 1 true 100).after_lineSet .dc false _⟩
    | 3 =>
      exact ⟨_, h3, (((stopsWith_resetPulse 3 true 1000 _ ins).after_resetPulse 2 false 100).after_resetPulse 1 true
        100).after_lineSet .dc false _⟩
  obtain ⟨ins', hins, h⟩ := hstops
  rw [engine, resetSequence_eq, runOps_enter (hi.trans hins)]
  obtain ⟨t, ht, ho⟩ := h { s with pstate := .resetting, stepIx := 0, inputs := ins' } ⟨hs.bus, hs.rst, hs.dc⟩ hh rfl
  exact ⟨t, ⟨ht.trace, ht.pstate, ht.stepIx, ht.mem, fun h => ht.held ⟨h.bus, h.rst, h.dc⟩⟩, ho⟩

/-- Settles O39: the sequence that stops at a line write (R237), and the one that completes (R235, R236). -/
theorem resetSequenceRuns : Obligations.ResetSequenceRuns := by
  refine ⟨fun s u ins hb hr hd hh hi => ?_, fun s ins hr hd hh hi => ?_⟩
  · obtain ⟨t, ht, ho⟩ := reset_aborts u ⟨hb, hr, hd⟩ hh hi
    exact ⟨_, ho, rfl, congrArg (· ++ releaseTrace) ht.trace, rfl, rfl, rfl, rfl, ht.pstate, ht.stepIx, rfl, rfl, rfl, ht.mem,
      rfl, rfl⟩
  · have hrun := runOps_reset_ok (k := runAbort) (rest := []) hr hd hh (by rw [calmInputs_resetSequence]; exact hi)
    rw [List.append_nil, runOps_nil] at hrun
    exact hrun

end Sys2Proof.Machine
end

section
/-! The driver's early failures: an image that the dimension check refuses, and an acquisition that is refused. Each raises its
error before everything is held, so the abort path gives back only what was acquired so far (spec/46_display_driver.md R284,
R285, R289; spec/60_exceptions.md R305). -/

namespace Sys2Proof.Machine

variable {s : State} {ins : List Input} {ops : List Op} {f : Failure} {c : ErrClass} {p : Pos} {r : Request} {e : WireEvent}

/-! ### The abort path's last state -/

/-- Whatever was held, the abort path leaves nothing held (R287). -/
theorem nothingHeld_afterAbort (ins : List Input) (s : State) : nothingHeld (afterAbort ins s) := by
  refine ⟨rfl, ?_, ?_⟩
  · cases hr : s.rst.claimed <;> simp [afterAbort, hr, LineState.released]
  · cases hd : s.dc.claimed <;> simp [afterAbort, hd, LineState.released]

/-- With nothing held the abort path emits no event and drives no pin: it only ends the operation with ERR. -/
theorem runAbort_of_nothingHeld (hn : nothingHeld s) (hi : s.inputs = .work :: ins) :
    runAbort s = .next { finishOperation false s with inputs := ins } := by
  obtain ⟨hb, hr, hd⟩ := hn
  have hcount : heldCount s = 0 := by simp [heldCount, hb, hr, hd]
  rw [runAbort_eq (by rw [hcount]; exact hi)]
  simp [afterAbort, finishOperation, heldReleases, hb, hr, hd]

/-! ### An invalid image (R289) -/

/-- A zero dimension fails at micro-operation 0, too many pixels at 1 (spec/40_fit_resample.md R120). -/
theorem dimensionError_of_invalid {words w h : Nat} (hinvalid : w = 0 ∨ h = 0 ∨ words < w * h) :
    dimensionError words w h = some ⟨.invalidImage, ⟨.prepare, 0, if w = 0 ∨ h = 0 then 0 else 1⟩⟩ := by
  unfold dimensionError
  split
  · rfl
  · next hzero => rw [if_pos ((or_assoc.2 hinvalid).resolve_left hzero)]

theorem perform_dimensionCheck_fail (hd : dimensionError s.cfg.srcmemWords (srcW s) (srcH s) = some f) :
    perform .dimensionCheck s = .raise f s := by
  rw [perform, perfDimensionCheck, hd]

/-- A pipeline whose dimension check fails raises its failure before any other part has run. -/
theorem engine_dimensionCheck_fail (hd : dimensionError s.cfg.srcmemWords (srcW s) (srcH s) = some f) (hn : nothingHeld s)
    (hi : s.inputs = .work :: .work :: ins) :
    engine (.gate :: .dimensionCheck :: ops) s = .next { finishOperation false (raiseError f s) with inputs := ins } := by
  have hcheck := perform_dimensionCheck_fail (s := { s with inputs := .work :: ins }) hd
  rw [engine, runOps_gate hi, runOps_raise hcheck]
  exact runAbort_of_nothingHeld hn rfl

theorem prepareSequence_eq_dimensionCheck_cons : prepareSequence = .gate :: .dimensionCheck :: prepareSequence.drop 2 := rfl

theorem renderSequence_eq_dimensionCheck_cons (cfg : Config) :
    renderSequence cfg = .gate :: .dimensionCheck :: (renderSequence cfg).drop 2 := rfl

/-- Settles O20: the dimension check is the first part of both operations, and with nothing held its failure only ends the
operation (R120, R289). -/
theorem invalidImageTouchesNothing : Obligations.InvalidImageTouchesNothing := by
  intro s ins hbusy hn hinvalid hi
  have hd := dimensionError_of_invalid hinvalid
  constructor
  · have hrun : exec .prepare s = engine prepareSequence (acceptOperation s) := by simp [exec, execPrepare, hbusy]
    rw [hrun, prepareSequence_eq_dimensionCheck_cons, engine_dimensionCheck_fail (s := acceptOperation s) hd hn hi]
    rfl
  · have hrun : exec .render s = engine (renderSequence s.cfg) (startRun (acceptOperation s)) := by
      simp [exec, execRender, hbusy]
    rw [hrun, renderSequence_eq_dimensionCheck_cons,
      engine_dimensionCheck_fail (s := startRun (acceptOperation s)) hd hn hi]
    rfl

/-! ### A refused acquisition (R284, R285) -/

/-- A run from `s` emitted `e`, failed with class `c` at `p`, and gave back what was held before it (R305). -/
def RefusedAt (e : WireEvent) (c : ErrClass) (p : Pos) (s : State) (o : StepOutcome) : Prop :=
  ∃ t, o = .next t ∧ t.trace = s.trace ++ e :: heldReleases s ∧ t.error = errorOf ⟨c, p⟩ ∧ t.statusErr = true
    ∧ t.busy = false ∧ nothingHeld t

/-- A micro-operation whose event is answered with a failure that has no effect of its own. -/
theorem microOp_refused (hr : perfRequest r { s with pos := p } = .done (issueEvent e { s with pos := p }))
    (he : ∀ t, effectFail e t = t) (hc : admits e (.fail c) = true) (hh : s.held = none)
    (hi : s.inputs = .answer (.fail c) :: (List.replicate (heldCount s + 1) .work ++ ins)) :
    RefusedAt e c p s (engine (microOp p r) s) := by
  have hheld (ins' : List Input) : (settleEvent e (.fail c) { issueEvent e { s with pos := p } with inputs := ins' }).held
      = some ⟨c, p⟩ := by
    rw [settleEvent_held]
    exact congrArg (Option.or · (some ⟨c, p⟩)) hh
  rw [engine, microOp, runOps_done (t := { s with pos := p }) rfl, runOps_issue_fail hr rfl hi hc (hheld _), settleEvent, he,
    raiseError_noteFailure, runAbort_eq (ins := ins) rfl]
  exact ⟨_, rfl, List.append_assoc s.trace [e] (heldReleases s), rfl, rfl, rfl, nothingHeld_afterAbort ins _⟩

/-- An open that fails leaves the bus as it was (spec/44_serial_bus.md R200). -/
theorem exec_busOpen_refused (hc : c = .deviceUnavailable ∨ c = .configurationFailed) (hh : s.held = none)
    (hi : s.inputs = .answer (.fail c) :: (List.replicate (heldCount s + 1) .work ++ ins)) :
    RefusedAt (.busOpen s.cfg.spiMode s.cfg.spiClockHz) c ⟨.acquire, 0, 0⟩ s (exec .busOpen s) := by
  have hadmits : admits (.busOpen s.cfg.spiMode s.cfg.spiClockHz) (.fail c) = true := by rcases hc with rfl | rfl <;> rfl
  exact microOp_refused (r := .busOpen) rfl (fun _ => rfl) hadmits hh hi

/-- A claim that fails leaves the line unclaimed (spec/43_digital_line.md R185). -/
theorem exec_lineClaim_refused (l : Line) (hc : c = .deviceUnavailable ∨ c = .lineRequestFailed) (hh : s.held = none)
    (hi : s.inputs = .answer (.fail c) :: (List.replicate (heldCount s + 1) .work ++ ins)) :
    RefusedAt (.lineClaim l lineFlags) c ⟨.acquire, claimStep l, 0⟩ s (exec (.lineClaim l) s) := by
  have hadmits : admits (.lineClaim l lineFlags) (.fail c) = true := by rcases hc with rfl | rfl <;> rfl
  exact microOp_refused (r := .lineClaim l) rfl (fun _ => rfl) hadmits hh hi

/-- Settles O32: a refused step leaves nothing behind, so the releases are those of the steps before it (R285). -/
theorem partialAcquisitionReleases : Obligations.PartialAcquisitionReleases := by
  intro s c ins hh hd hi
  refine ⟨fun hb hr hc => ?_, fun hb hr hc => ?_, fun hb hr hc => ?_⟩
  · have hrel : heldReleases s = [] := by simp [heldReleases, hd, hr, hb]
    rw [← hrel]
    exact exec_busOpen_refused hc hh hi
  · have hrel : heldReleases s = [.busClose] := by simp [heldReleases, hd, hr, hb]
    rw [← hrel]
    exact exec_lineClaim_refused .rst hc hh hi
  · have hrel : heldReleases s = [.lineRelease .rst, .busClose] := by simp [heldReleases, hd, hr, hb]
    rw [← hrel]
    exact exec_lineClaim_refused .dc hc hh hi

end Sys2Proof.Machine
end

section
/-! The abort path as a whole: a check that finds a kept failure, and an illegal command (spec/60_exceptions.md R305). -/

namespace Sys2Proof.Machine

variable {s : State} {f : Failure} {ops : List Op} {ins : List Input} {v : Word}

/-- The releases of R305 start from the state in which the raise has written ERROR, and nothing of `ops` runs before or
after them. -/
theorem engine_check_held (hf : s.held = some f) (hi : s.inputs = List.replicate (heldCount s + 1) .work ++ ins) :
    engine (.check :: ops) s = .next (afterAbort ins (raiseError f s)) := by
  rw [engine, runOps_raise (perform_check_some hf)]
  exact runAbort_eq (s := raiseError f s) hi

/-- While idle an illegal command is the decode's clears and the raise of IllegalOperation (spec/46_display_driver.md R280). -/
theorem exec_illegal_of_idle (hb : s.busy = false) : exec (.illegal v) s = .next (raiseIllegal (clearForCommand s)) := by
  simp [exec, execIllegal, hb]

/-- Settles O33: the abort path overwrites the ACT and the rest of the operation that the raise left, and an illegal command
has nothing to release (R305). -/
theorem abortPath : Obligations.AbortPath := by
  refine ⟨fun s f ops ins hf hi => ?_, fun s v hb => ?_⟩
  · rw [engine_check_held hf hi]
    rfl
  · rw [exec_illegal_of_idle hb]
    rfl

end Sys2Proof.Machine
end

section
/-! The encodings undone: a command word by its decoder, for the words and for the instructions (spec/30_encoding.md R90 to R92),
and the wire framing by the DC levels (R97, R98). -/

namespace Sys2Proof

variable {i : Instr} {v : Word}

/-! ### Command words -/

/-- The decoder reads a well-formed instruction back from its word: only ILLEGAL carries one, which is then none of the two
others (R92). -/
theorem decodeCmd_of_encodeCmd (hw : i.wf = true) (he : encodeCmd i = some v) : decodeCmd v = i := by
  cases i with
  | prepare =>
    cases he
    exact decodeCmd_eq_prepare_iff.2 rfl
  | render =>
    cases he
    exact decodeCmd_eq_render_iff.2 rfl
  | illegal w =>
    cases he
    have hne : v ≠ 1 ∧ v ≠ 2 := by simpa [Instr.wf] using hw
    exact decodeCmd_eq_illegal hne.1 hne.2
  | _ => cases he

theorem encodeCmd_decodeCmd (v : Word) : encodeCmd (decodeCmd v) = some v := by
  rcases decodeCmd_cases v with ⟨rfl, hd⟩ | ⟨rfl, hd⟩ | ⟨-, -, hd⟩ <;> rw [hd] <;> rfl

theorem decodeCmd_wf (v : Word) : (decodeCmd v).wf = true := by
  rcases decodeCmd_cases v with ⟨-, hd⟩ | ⟨-, hd⟩ | ⟨h1, h2, hd⟩ <;> rw [hd]
  · rfl
  · rfl
  · simpa [Instr.wf] using And.intro h1 h2

/-- Settles O1: the word of an instruction, its bytes in the order of R64, and the word of every decoded instruction. -/
theorem decodeEncodeAgree : Obligations.DecodeEncodeAgree := by
  refine ⟨fun i v rest hw he => ?_, fun v => ⟨decodeCmd_wf v, encodeCmd_decodeCmd v⟩⟩
  have hd := decodeCmd_of_encodeCmd hw he
  refine ⟨hd, ?_, ?_⟩
  · rw [encode, he, Option.map_some]
  · rw [decode_wordBytes, hd]

/-- Settles O3: each word by evaluating the decoder on its four bytes (R90, R91). -/
theorem sampleWordsDecode : Obligations.SampleWordsDecode := by
  unfold Obligations.SampleWordsDecode
  decide

/-! ### The wire framing -/

/-- Bytes under DC = 1 collect in front of what has been read (R97). -/
theorem foldr_deframeByte_payload (data : List Byte) (acc : List Byte × List WireCommand) :
    (data.map (fun b => (⟨true, b⟩ : BusByte))).foldr deframeByte acc = (data ++ acc.1, acc.2) := by
  induction data with
  | nil => rfl
  | cons b data ih => rw [List.map_cons, List.foldr_cons, ih]; rfl

/-- An opcode takes the bytes collected after it as its payload. -/
theorem foldr_deframeByte_frameCommand (c : WireCommand) (cs : List WireCommand) :
    (frameCommand c).foldr deframeByte ([], cs) = ([], c :: cs) := by
  rw [frameCommand, List.foldr_cons, foldr_deframeByte_payload, List.append_nil]
  rfl

theorem foldr_deframeByte_frameCommands (cs : List WireCommand) :
    (cs.flatMap frameCommand).foldr deframeByte ([], []) = ([], cs) := by
  induction cs with
  | nil => rfl
  | cons c cs ih => rw [List.flatMap_cons, List.foldr_append, ih, foldr_deframeByte_frameCommand]

/-- Settles O4: read from the last byte to the first, each command's framing gives back the command. -/
theorem wireFramingDecodes : Obligations.WireFramingDecodes := by
  intro cs
  rw [deframe, foldr_deframeByte_frameCommands]

end Sys2Proof
end

section
/-! What every step keeps, from what each action of the engine keeps: memory's canonical form, the lines and their pins, the build
parameters and the trace (spec/10_state.md R31, R42, R43; spec/20_memory.md R70, R77; spec/00_scope.md R14). -/

namespace Sys2Proof.Machine

variable {s t : State} {op : Op} {l : Line} {v : Bool} {p : Pin}

/-! ### Host writes -/

/-- All that a host write other than that of CMD does: nothing, the drop while BUSY, or a write of SRC_DIM or of a word of memory
while idle (spec/10_state.md R27, R34; spec/20_memory.md R69). -/
theorem writePlace_keeps {P : State → Prop} (w : Word) (q : Place) (hsame : P s) (hdrop : P (dropWrite s))
    (hdim : s.busy = false → P { s with srcDim := w })
    (hmem : s.busy = false → ∀ n, P { s with mem := memWriteWord s.mem n w }) : P (writePlace w s q) := by
  cases q with
  | srcDim =>
    rw [writePlace]
    split
    · exact hdrop
    · next hb => exact hdim (by simpa using hb)
  | srcmem n =>
    rw [writePlace]
    split
    · exact hdrop
    · next hb => exact hmem (by simpa using hb) n
  | cmd | status | error | fitOrigin | fitSize | reserved | framemem | unmapped => exact hsame

/-! ### Memory -/

theorem effect_mem_wf (he : Effect op s t) (h : s.mem.wf) : t.mem.wf := by
  rcases effect_buffers he with ⟨hmem, -⟩ | ⟨-, hmem, -⟩ | ⟨-, hmem, -⟩ <;> rw [hmem]
  · exact h
  · exact h
  · exact memWrite_wf h _ _

theorem mem_wf_engineKeeps : EngineKeeps (fun s => s.mem.wf) where
  perform _ _ _ h hp := effect_mem_wf (effect_of_perform hp) h
  finish _ _ h := h
  raise _ _ h := h
  todo _ _ h := h

/-- Settles O54: pack and the host's writes are the only writers of memory, and a write keeps the form (`memWrite_wf`). -/
theorem memoryStaysCanonical : Obligations.MemoryStaysCanonical := fun _ _ h hstep =>
  mem_wf_engineKeeps.step (hin := fun _ _ h => h) (hreset := fun _ _ => List.Pairwise.nil)
    (hedge := fun s h => (clockEdge_mem s).symm ▸ h) (hread := fun _ _ h => h)
    (hwrite := fun _ w _ h _ =>
      writePlace_keeps (P := fun s => s.mem.wf) w _ h h (fun _ => h) (fun _ _ => memWrite_wf h _ _))
    (hdrop := fun _ h => h) (hillegal := fun _ h => h)
    (haccept := fun _ h => h) (hstart := fun _ h => h) h hstep

/-! ### Lines -/

/-- The invariant is about the two lines and their pins alone. -/
theorem linesOk_congr (h : linesOk s) (hrst : t.rst = s.rst) (hdc : t.dc = s.dc) (hpinRst : t.pinRst = s.pinRst)
    (hpinDc : t.pinDc = s.pinDc) : linesOk t := by
  rw [linesOk, hrst, hdc, hpinRst, hpinDc]
  exact h

theorem linesOk_line (h : linesOk s) (l : Line) : lineOk (lineOf s l) (pinOf s l) := by
  cases l
  · exact h.1
  · exact h.2

theorem linesOk_setLine (h : linesOk s) {x : LineState} (hx : lineOk x p) : linesOk (setLine l x p s) := by
  cases l
  · exact ⟨hx, h.2⟩
  · exact ⟨h.1, hx⟩

/-- A claimed line whose pin is driven (R185). -/
theorem lineOk_of_driven (level : Bool) (hp : p ≠ .undriven) : lineOk ⟨true, level⟩ p := by
  simp [lineOk, hp]

theorem lineOk_released : lineOk .released .undriven := by
  simp [lineOk, LineState.released]

theorem linesOk_releaseLine (h : linesOk s) : linesOk (releaseLine l s) :=
  linesOk_setLine (s := emitEvent (.lineRelease l) s) h lineOk_released

/-- Only a claimed line is driven (R189), to a pin that is driven then. -/
theorem linesOk_driveLine (h : linesOk s) (hp : (lineOf s l).claimed = true → p ≠ .undriven) : linesOk (driveLine l v p s) := by
  rcases driveLine_cases l v p s with hd | ⟨hc, hd⟩ <;> rw [hd]
  · exact h
  · exact linesOk_setLine h (lineOk_of_driven v (hp hc))

/-- After a failed write the pin of a claimed line is at its old level or at the requested one (R187): driven either way. -/
theorem pinAfterFailedWrite_ne_undriven (draw : Bool) (hp : p ≠ .undriven) : pinAfterFailedWrite draw v p ≠ .undriven := by
  rcases pinAfterFailedWrite_cases draw v p with hd | hd <;> rw [hd]
  · exact hp
  · simp

theorem linesOk_effectOk (e : WireEvent) (h : linesOk s) : linesOk (effectOk e s) := by
  cases e with
  | lineClaim l flags => exact linesOk_setLine h (lineOk_of_driven false (by simp))
  | lineSet l v => exact linesOk_driveLine h fun _ => by simp
  | busOpen | busClose | lineRelease | xfer | delay => exact h

theorem linesOk_effectFail (e : WireEvent) (h : linesOk s) : linesOk (effectFail e s) := by
  cases e with
  | lineSet l v =>
    have hpin : (lineOf s l).claimed = true → pinOf s l ≠ .undriven := by
      intro hc hu
      have hfree := (linesOk_line h l).2.2 hu
      exact absurd (hc.symm.trans hfree) (by decide)
    exact linesOk_driveLine h fun hc => pinAfterFailedWrite_ne_undriven _ (hpin hc)
  | busOpen | busClose | lineClaim | lineRelease | xfer | delay => exact h

theorem linesOk_settleEvent (e : WireEvent) (a : Answer) (h : linesOk s) : linesOk (settleEvent e a s) := by
  cases a with
  | ok => exact linesOk_effectOk e (s := { s with outstanding := none, outcomes := s.outcomes ++ [.ok] }) h
  | fail c =>
    have hfail := linesOk_effectFail e (s := { s with outstanding := none, outcomes := s.outcomes ++ [.fail c] }) h
    exact linesOk_congr hfail (noteFailure_rst _ _) (noteFailure_dc _ _) (noteFailure_pinRst _ _) (noteFailure_pinDc _ _)

theorem effect_linesOk (he : Effect op s t) (h : linesOk s) : linesOk t := by
  cases he with
  | lineRelease l => exact linesOk_releaseLine h
  | answered e a => exact linesOk_settleEvent e a h
  | _ => exact h

theorem linesOk_engineKeeps : EngineKeeps linesOk where
  perform _ _ _ h hp := effect_linesOk (effect_of_perform hp) h
  finish _ _ h := h
  raise _ _ h := h
  todo _ _ h := h

/-- Settles O57: claims, line writes and releases are all that touches a line or its pin (R185 to R188). -/
theorem unclaimedLinesAreLow : Obligations.UnclaimedLinesAreLow := fun _ _ h hstep =>
  linesOk_engineKeeps.step (hin := fun _ _ h => h) (hreset := fun _ _ => ⟨lineOk_released, lineOk_released⟩)
    (hedge := fun _ h => linesOk_congr h (clockEdge_rst _) (clockEdge_dc _) (clockEdge_pinRst _) (clockEdge_pinDc _))
    (hread := fun _ _ h => h)
    (hwrite := fun _ w _ h _ => writePlace_keeps (P := linesOk) w _ h h (fun _ => h) (fun _ _ => h))
    (hdrop := fun _ h => h) (hillegal := fun _ h => h) (haccept := fun _ h => h) (hstart := fun _ h => h) h hstep

end Sys2Proof.Machine
end

section
/-! The release invariant. Every action leaves held and asked for at most what `holdAfter` and `askedAfter` say, and a sequence that
gives back more than is held gives back what is held; the abort path gives back whatever a state holds
(spec/46_display_driver.md R287; spec/60_exceptions.md R305). -/

namespace Sys2Proof.Machine

variable {s t u : State} {op : Op} {ops rest : List Op} {h h' asked asked' : Holdings} {k : State → StepOutcome} {f : Failure}

/-! ### Holding less -/

/-- What is held in the first is held in the second. -/
structure Holdings.Within (h h' : Holdings) : Prop where
  bus : h.bus = true → h'.bus = true
  rst : h.rst = true → h'.rst = true
  dc : h.dc = true → h'.dc = true

theorem Holdings.Within.refl (h : Holdings) : h.Within h := ⟨id, id, id⟩

/-- Nothing is held in the first. -/
theorem Holdings.none_within (h : Holdings) : Holdings.Within ⟨false, false, false⟩ h := by
  constructor <;> simp

theorem holdAfter_within (hh : h.Within h') (ha : asked.Within asked') (op : Op) :
    (holdAfter h asked op).Within (holdAfter h' asked' op) := by
  obtain ⟨hb, hr, hd⟩ := hh
  obtain ⟨ab, ar, ad⟩ := ha
  cases op with
  | await =>
    constructor <;> simp only [holdAfter, Bool.or_eq_true]
    · exact Or.imp hb ab
    · exact Or.imp hr ar
    · exact Or.imp hd ad
  | request r =>
    cases r with
    | busClose => exact ⟨id, hr, hd⟩
    | lineRelease l =>
      cases l
      · exact ⟨hb, id, hd⟩
      · exact ⟨hb, hr, id⟩
    | busOpen | lineClaim | lineSet | xfer | delay => exact ⟨hb, hr, hd⟩
  | _ => exact ⟨hb, hr, hd⟩

theorem askedAfter_within (ha : asked.Within asked') (op : Op) : (askedAfter asked op).Within (askedAfter asked' op) := by
  cases op with
  | request r =>
    cases r with
    | lineClaim l => cases l <;> exact .refl _
    | busOpen | lineSet | xfer => exact .refl _
    | busClose | lineRelease | delay => exact ha
  | await => exact .refl _
  | _ => exact ha

theorem endsClean_cons (hop : ∀ b, op ≠ .finish b) :
    endsClean (op :: rest) h asked = endsClean rest (holdAfter h asked op) (askedAfter asked op) := by
  cases op with
  | finish b => exact absurd rfl (hop b)
  | _ => rfl

/-- A sequence that gives back what is held and asked for gives back less than that, too. -/
theorem endsClean_of_within (ops : List Op) : ∀ {h h' asked asked' : Holdings}, h.Within h' → asked.Within asked' →
    endsClean ops h' asked' = true → endsClean ops h asked = true := by
  induction ops with
  | nil => exact fun _ _ _ => rfl
  | cons op rest ih =>
    intro h h' asked asked' hh ha hclean
    by_cases hfinish : ∃ b, op = .finish b
    · obtain ⟨b, rfl⟩ := hfinish
      obtain ⟨hb, hr, hd⟩ := hh
      simp only [endsClean, Bool.and_eq_true, Bool.not_eq_true'] at hclean ⊢
      obtain ⟨⟨cb, cr⟩, cd⟩ := hclean
      simp only [cb, cr, cd, Bool.false_eq_true, imp_false, Bool.not_eq_true] at hb hr hd
      exact ⟨⟨hb, hr⟩, hd⟩
    · rw [endsClean_cons fun b hb => hfinish ⟨b, hb⟩] at hclean ⊢
      exact ih (holdAfter_within hh ha op) (askedAfter_within ha op) hclean

/-! ### What an action leaves held -/

theorem heldBy_congr (hb : t.bus = s.bus) (hr : t.rst.claimed = s.rst.claimed) (hd : t.dc.claimed = s.dc.claimed) :
    heldBy t = heldBy s := by
  rw [heldBy, heldBy, hb, hr, hd]

theorem within_holdAfter_await (h asked : Holdings) : h.Within (holdAfter h asked .await) := by
  constructor <;> simp only [holdAfter, Bool.or_eq_true] <;> exact Or.inl

/-- An outcome gives at most what its event asks for (R185, spec/44_serial_bus.md R200). -/
theorem heldBy_settleEvent (e : WireEvent) (a : Answer) (s : State) :
    (heldBy (settleEvent e a s)).Within (holdAfter (heldBy s) (askedFor (some e)) .await) := by
  have hsame : ∀ u : State, u.bus = s.bus → u.rst.claimed = s.rst.claimed → u.dc.claimed = s.dc.claimed →
      (heldBy u).Within (holdAfter (heldBy s) (askedFor (some e)) .await) := by
    intro u hb hr hd
    rw [heldBy_congr hb hr hd]
    exact within_holdAfter_await _ _
  cases a with
  | ok =>
    cases e with
    | busOpen mode hz => constructor <;> simp [settleEvent, effectOk, heldBy, holdAfter, askedFor]
    | lineClaim l flags => cases l <;> constructor <;> simp [settleEvent, effectOk, heldBy, holdAfter, askedFor, setLine]
    | lineSet l v =>
      have hclaims := driveLine_claims l v (.driven v) { s with outstanding := none, outcomes := s.outcomes ++ [.ok] }
      exact hsame _ (by simp [settleEvent, effectOk]) hclaims.1 hclaims.2
    | busClose | lineRelease | xfer | delay => exact hsame _ rfl rfl rfl
  | fail c =>
    cases e with
    | lineSet l v =>
      have hclaims := driveLine_claims l (lineOf s l).level (pinAfterFailedWrite (Config.drawBit s.draws) v (pinOf s l))
        { s with outstanding := none, outcomes := s.outcomes ++ [.fail c] }
      refine hsame _ (by simp [settleEvent, effectFail]) ?_ ?_
      · rw [settleEvent, noteFailure_rst]
        exact hclaims.1
      · rw [settleEvent, noteFailure_dc]
        exact hclaims.2
    | busOpen | busClose | lineClaim | lineRelease | xfer | delay =>
      exact hsame _ (by simp [settleEvent, effectFail]) (by simp [settleEvent, effectFail]) (by simp [settleEvent, effectFail])

/-- The wait for an outcome is over: none was waited for, or one has come that the event can have. -/
theorem perform_await_done (hp : perform .await s = .done t) : (s.outstanding = none ∧ t = s)
    ∨ ∃ e a ins, s.outstanding = some e ∧ s.inputs = .answer a :: ins ∧ admits e a = true
      ∧ t = settleEvent e a { s with inputs := ins } := by
  simp only [perform, perfAwait] at hp
  split at hp
  · next _ ho =>
    cases hp
    exact .inl ⟨ho, rfl⟩
  · next e a ins ho hi =>
    split at hp <;> cases hp
    next ha => exact .inr ⟨e, a, ins, ho, hi, ha, rfl⟩
  · cases hp

/-- What a request leaves held and asked for. -/
theorem request_holdings {r : Request} (hp : perform (.request r) s = .done t) :
    heldBy t = holdAfter (heldBy s) (askedFor s.outstanding) (.request r)
      ∧ askedFor t.outstanding = askedAfter (askedFor s.outstanding) (.request r) := by
  cases r with
  | lineSet l v =>
    simp only [perform, perfRequest] at hp
    split at hp <;> cases hp
    exact ⟨rfl, rfl⟩
  | xfer pl =>
    simp only [perform, perfRequest] at hp
    split at hp <;> cases hp
    exact ⟨rfl, rfl⟩
  | lineClaim l =>
    cases hp
    cases l <;> exact ⟨rfl, rfl⟩
  | lineRelease l =>
    cases hp
    cases l <;> exact ⟨rfl, rfl⟩
  | busOpen | busClose | delay =>
    cases hp
    exact ⟨rfl, rfl⟩

/-- An action that goes on leaves held and asked for at most what `holdAfter` and `askedAfter` say. -/
theorem perform_holdings (hp : perform op s = .done t) :
    (heldBy t).Within (holdAfter (heldBy s) (askedFor s.outstanding) op)
      ∧ (askedFor t.outstanding).Within (askedAfter (askedFor s.outstanding) op) := by
  cases op with
  | await =>
    rcases perform_await_done hp with ⟨ho, rfl⟩ | ⟨e, a, ins, ho, -, -, rfl⟩
    · rw [ho]
      exact ⟨within_holdAfter_await _ _, .refl _⟩
    · rw [(settleEvent_progress e a _).2, ho]
      exact ⟨heldBy_settleEvent e a { s with inputs := ins }, .refl _⟩
  | request r =>
    obtain ⟨hheld, hasked⟩ := request_holdings hp
    rw [hheld, hasked]
    exact ⟨.refl _, .refl _⟩
  | _ => cases effect_of_perform (.inl hp) <;> exact ⟨.refl _, .refl _⟩

/-! ### The invariant -/

/-- An operation is in progress, and these actions, all that remains of it, give back what it may hold. -/
structure GivesBack (ops : List Op) (s : State) : Prop where
  busy : s.busy = true
  todo : s.todo = []
  clean : endsClean ops (heldBy s) (askedFor s.outstanding) = true

/-- With nothing left to do there is nothing left to give back. -/
theorem releasesAll_of_busy (hb : s.busy = true) (ht : s.todo = []) : releasesAll s := by
  refine ⟨fun hidle => absurd (hb.symm.trans hidle) (by decide), ?_⟩
  rw [ht]
  rfl

theorem GivesBack.done (hg : GivesBack (op :: rest) s) (hp : perform op s = .done t) : GivesBack rest t := by
  obtain ⟨hheld, hasked⟩ := perform_holdings hp
  have hsteady := perform_steady (.inl hp)
  refine ⟨hsteady.busy.trans hg.busy, hsteady.todo.trans hg.todo, endsClean_of_within rest hheld hasked ?_⟩
  have hclean := hg.clean
  rwa [endsClean_cons] at hclean
  rintro b rfl
  cases hp

theorem GivesBack.waits (hg : GivesBack ops s) (hp : perform op s = .wait t) :
    releasesAll { t with todo := ops ++ t.todo } := by
  have ht := perform_wait hp
  have htodo : ops ++ t.todo = ops := by rw [ht]; simp [hg.todo]
  refine ⟨fun hidle => absurd hidle ?_, ?_⟩
  · rw [ht]
    simp [hg.busy]
  · rw [htodo, ht]
    exact hg.clean

/-- The end of an operation comes when nothing is held (R287). -/
theorem GivesBack.ended (hg : GivesBack (op :: rest) s) (hp : perform op s = .ended t) : releasesAll t := by
  obtain ⟨b, rfl, rfl⟩ := perform_ended hp
  have hclean := hg.clean
  simp only [endsClean, heldBy, Bool.and_eq_true, Bool.not_eq_true', Option.isSome_eq_false_iff, Option.isNone_iff_eq_none]
    at hclean
  obtain ⟨⟨hb, hr⟩, hd⟩ := hclean
  exact ⟨fun _ => ⟨⟨hb, hr, hd⟩, rfl⟩, rfl⟩

/-- A sequence that gives everything back keeps the invariant if what handles its errors does. -/
theorem GivesBack.runOps (hraise : ∀ f t u, t.busy = true → k (raiseError f t) = .next u → releasesAll u)
    (hg : GivesBack ops s) (hrun : runOps k ops s = .next u) : releasesAll u :=
  runOps_keeps (Q := GivesBack) (R := releasesAll) (fun _ hg => releasesAll_of_busy hg.busy hg.todo)
    (fun _ _ _ _ hg hp => hg.done hp) (fun _ _ _ _ hg hp => hg.waits hp) (fun _ _ _ _ hg hp => hg.ended hp)
    (fun _ _ _ t f u hg hp hk => hraise f t u ((perform_steady (.inr (.inr ⟨f, hp⟩))).busy.trans hg.busy) hk) ops s hg u hrun

/-- The abort path gives back whatever is held (R305). -/
theorem abortSequence_endsClean (s : State) : endsClean (abortSequence s) (heldBy s) ⟨false, false, false⟩ = true := by
  unfold abortSequence heldBy
  cases s.dc.claimed <;> cases s.rst.claimed <;> cases s.bus.isSome <;> rfl

/-- An error leads to the abort path, on which nothing is raised that is not over already. -/
theorem runAbort_releasesAll (hb : t.busy = true) (hrun : runAbort (raiseError f t) = .next u) : releasesAll u := by
  have hg : GivesBack (abortSequence (raiseError f t)) (raiseError f t) := ⟨hb, rfl, abortSequence_endsClean _⟩
  refine hg.runOps ?_ hrun
  intro f' t' u' hb' hu
  cases hu
  exact releasesAll_of_busy hb' rfl

theorem engine_releasesAll (hg : GivesBack ops s) (hrun : engine ops s = .next u) : releasesAll u :=
  hg.runOps (fun _ _ _ => runAbort_releasesAll) hrun

theorem prepareSequence_endsClean : endsClean prepareSequence ⟨false, false, false⟩ ⟨false, false, false⟩ = true := rfl

set_option maxRecDepth 20000 in
theorem renderSequence_endsClean (cfg : Config) :
    endsClean (renderSequence cfg) ⟨false, false, false⟩ ⟨false, false, false⟩ = true := rfl

/-- An operation is accepted while nothing is held. -/
theorem heldBy_of_nothingHeld (hn : nothingHeld s) : heldBy s = ⟨false, false, false⟩ := by
  obtain ⟨hb, hr, hd⟩ := hn
  rw [heldBy, hb, hr, hd]
  rfl

/-- The invariant is about BUSY, what is held, the event in progress and what remains to be done. -/
theorem releasesAll_congr (hinv : releasesAll s) (hbusy : t.busy = s.busy) (hb : t.bus = s.bus) (hr : t.rst = s.rst)
    (hd : t.dc = s.dc) (ho : t.outstanding = s.outstanding) (ht : t.todo = s.todo) : releasesAll t := by
  rw [releasesAll, nothingHeld, heldBy, hbusy, hb, hr, hd, ho, ht]
  exact hinv

theorem exec_command_releasesAll (w : Word) (hinv : releasesAll s) (he : exec (decodeCmd w) s = .next t) : releasesAll t := by
  rcases exec_command_cases w s with ⟨-, hc⟩ | ⟨-, hc⟩ | ⟨hb, hc⟩ | ⟨hb, hc⟩ <;> rw [hc] at he
  · cases he
    exact hinv
  · cases he
    exact hinv
  · have hheld : heldBy (acceptOperation s) = ⟨false, false, false⟩ := heldBy_of_nothingHeld (hinv.1 hb).1
    refine engine_releasesAll ⟨rfl, rfl, ?_⟩ he
    rw [hheld]
    exact prepareSequence_endsClean
  · have hheld : heldBy (startRun (acceptOperation s)) = ⟨false, false, false⟩ := heldBy_of_nothingHeld (hinv.1 hb).1
    refine engine_releasesAll ⟨rfl, rfl, ?_⟩ he
    rw [hheld]
    exact renderSequence_endsClean _

/-- What the engine waits for is what remains of an operation, so it takes nothing while there is none. -/
theorem todo_ne_nil_of_engineTakes {x : Input} (hx : engineTakes s x = true) : s.todo ≠ [] := by
  intro ht
  simp [engineTakes, ht] at hx

theorem resume_releasesAll (hinv : releasesAll s) (ht : s.todo ≠ []) (hr : resume s = .next t) : releasesAll t := by
  have hb : s.busy = true := by
    by_contra hb
    exact ht (hinv.1 (by simpa using hb)).2
  exact engine_releasesAll (s := { s with todo := [] }) ⟨hb, rfl, hinv.2⟩ hr

theorem clockEdge_releasesAll (hinv : releasesAll s) : releasesAll (clockEdge s) :=
  releasesAll_congr hinv (clockEdge_busy s) (clockEdge_bus s) (clockEdge_rst s) (clockEdge_dc s) (clockEdge_outstanding s)
    (clockEdge_todo s)

theorem blockReset_releasesAll (s : State) : releasesAll (blockReset s) := ⟨fun _ => ⟨⟨rfl, rfl, rfl⟩, rfl⟩, rfl⟩

/-- Settles O55: an operation starts with nothing held and gives everything back, by `engine_releasesAll`; the other inputs
leave what is held alone, and block reset leaves nothing held. -/
theorem resourcesAreReleased : Obligations.ResourcesAreReleased := by
  intro s t hinv hstep
  rcases step_cases hstep with ⟨-, rfl⟩ | ⟨_, -, rfl⟩ | ⟨rest, -, rfl⟩ | ⟨_, _, _, -, rfl⟩ | ⟨a, _, w, rest, -, -, -, rfl⟩ |
    ⟨_, _, w, rest, -, -, -, he⟩ | ⟨x, _, -, hx, hr⟩ | ⟨_, _, -, -, rfl⟩
  · exact hinv
  · exact blockReset_releasesAll _
  · exact clockEdge_releasesAll (s := { s with inputs := rest }) hinv
  · exact hinv
  · exact writePlace_keeps (s := { s with inputs := rest }) (P := releasesAll) w _ hinv hinv (fun _ => hinv) (fun _ _ => hinv)
  · exact exec_command_releasesAll w (s := { s with inputs := rest }) hinv he
  · exact resume_releasesAll hinv (todo_ne_nil_of_engineTakes hx) hr
  · exact hinv

end Sys2Proof.Machine
end

section
/-! The flags of STATUS, ERROR.WRAPPED, and the order of ACT, PSTATE and STEP. Each is an invariant of the engine's sequences: the
flags stand from the acceptance of an operation to its end, and each action takes the position that `keepsOrder` allowed
(spec/10_state.md R26, R28, R29, R32; spec/45_command_protocol.md R230; spec/60_exceptions.md R301). -/

namespace Sys2Proof.Machine

variable {s t u : State} {op : Op} {ops rest : List Op} {k : State → StepOutcome} {f : Failure}

/-! ### The flags -/

/-- An operation is in progress, with these actions remaining of it: neither DONE nor ERR, ACT is not IDLE, and no action but
the end writes ACT IDLE. -/
structure InProgress (ops : List Op) (s : State) : Prop where
  busy : s.busy = true
  statusDone : s.statusDone = false
  statusErr : s.statusErr = false
  act : s.act ≠ .idle
  todo : s.todo = []
  noIdle : Op.setAct .idle ∉ ops

/-- What an operation in progress leaves remaining does not matter to the flags, as long as it writes no ACT IDLE. -/
theorem InProgress.suspended (h : InProgress rest s) (ho : Op.setAct .idle ∉ ops) : flagsOk { s with todo := ops } := by
  have hbusy : s.busy ≠ false := by simp [h.busy]
  exact ⟨by simp [h.statusDone], fun _ => ⟨h.statusDone, h.statusErr⟩, iff_of_false hbusy h.act,
    fun hb => absurd hb hbusy, ho⟩

theorem InProgress.over (h : InProgress rest s) : flagsOk s := by
  have hflags := h.suspended (ops := []) List.not_mem_nil
  rwa [← h.todo] at hflags

theorem InProgress.of_effect (h : InProgress (op :: rest) s) (hs : Steady s t) (he : Effect op s t) : InProgress rest t := by
  obtain ⟨hop, hrest⟩ : Op.setAct .idle ≠ op ∧ Op.setAct .idle ∉ rest := by simpa using h.noIdle
  refine ⟨hs.busy.trans h.busy, hs.statusDone.trans h.statusDone, hs.statusErr.trans h.statusErr, fun hact => ?_,
    hs.todo.trans h.todo, hrest⟩
  rcases effect_act he with hsame | hset
  · exact h.act (hsame ▸ hact)
  · rw [hact] at hset
    exact hop hset.symm

theorem InProgress.done (h : InProgress (op :: rest) s) (hp : perform op s = .done t) : InProgress rest t :=
  h.of_effect (perform_steady (.inl hp)) (effect_of_perform (.inl hp))

theorem InProgress.waits (h : InProgress (op :: rest) s) (hp : perform op s = .wait t) :
    flagsOk { t with todo := op :: rest ++ t.todo } := by
  have ht := h.of_effect (perform_steady (.inr (.inl hp))) (effect_of_perform (.inr (.inl hp)))
  rw [ht.todo, List.append_nil]
  exact ht.suspended h.noIdle

/-- The end of an operation sets exactly one of DONE and ERR (R26). -/
theorem flagsOk_finishOperation (b : Bool) (s : State) : flagsOk (finishOperation b s) :=
  ⟨by simp, by simp, by simp, by simp, by simp⟩

theorem InProgress.raised (h : InProgress (op :: rest) s) (hp : perform op s = .raise f t)
    (ho : Op.setAct .idle ∉ ops) : InProgress ops (raiseError f t) := by
  have ht := h.of_effect (perform_steady (.inr (.inr ⟨f, hp⟩))) (effect_of_perform (.inr (.inr ⟨f, hp⟩)))
  exact ⟨ht.busy, ht.statusDone, ht.statusErr, by simp, rfl, ho⟩

theorem InProgress.runOps (hraise : ∀ t u, InProgress [] t → k t = .next u → flagsOk u)
    (h : InProgress ops s) (hrun : runOps k ops s = .next u) : flagsOk u := by
  refine runOps_keeps (Q := InProgress) (fun _ h => h.over) (fun _ _ _ _ h hp => h.done hp)
    (fun _ _ _ _ h hp => h.waits hp) (fun _ _ _ _ _ hp => ?_)
    (fun _ _ _ t f u h hp hk => hraise _ u (h.raised hp List.not_mem_nil) hk) ops s h u hrun
  obtain ⟨b, -, rfl⟩ := perform_ended hp
  exact flagsOk_finishOperation b _

theorem setAct_not_mem_abortSequence (a : Act) (s : State) : Op.setAct a ∉ abortSequence s := by
  unfold abortSequence
  cases s.dc.claimed <;> cases s.rst.claimed <;> cases s.bus.isSome <;> simp

theorem runAbort_flagsOk (h : InProgress [] t) (hrun : runAbort t = .next u) : flagsOk u := by
  have hstart : InProgress (abortSequence t) t := { h with noIdle := setAct_not_mem_abortSequence _ _ }
  refine hstart.runOps (fun t u ht hu => ?_) hrun
  cases hu
  exact ht.over

theorem engine_flagsOk (h : InProgress ops s) (hrun : engine ops s = .next u) : flagsOk u :=
  h.runOps (fun _ _ => runAbort_flagsOk) hrun

/-- No activity is followed by IDLE, so a sequence in its order writes ACT IDLE nowhere. -/
theorem setAct_idle_not_mem_of_keepsOrder {p : Progress} (h : keepsOrder ops p = true) : Op.setAct .idle ∉ ops := by
  induction ops generalizing p with
  | nil => exact List.not_mem_nil
  | cons op rest ih =>
    simp only [keepsOrder, Bool.and_eq_true] at h
    obtain ⟨⟨hallowed, -⟩, hrest⟩ := h
    refine List.not_mem_cons_of_ne_of_not_mem ?_ (ih hrest)
    rintro rfl
    have hnext : nextAct p.act ≠ some .idle := by cases p.act <;> decide
    exact hnext (of_decide_eq_true hallowed).1

/-- At its acceptance an operation is in progress (R25, R32). -/
theorem inProgress_acceptOperation {p : Progress} (h : keepsOrder ops p = true) (s : State) :
    InProgress ops (acceptOperation s) :=
  ⟨rfl, rfl, rfl, by simp, rfl, setAct_idle_not_mem_of_keepsOrder h⟩

theorem InProgress.startRun (h : InProgress ops s) : InProgress ops (startRun s) :=
  ⟨h.busy, h.statusDone, h.statusErr, h.act, h.todo, h.noIdle⟩

theorem exec_command_flagsOk (w : Word) (hinv : flagsOk s) (he : exec (decodeCmd w) s = .next t) : flagsOk t := by
  rcases exec_command_cases w s with ⟨-, hc⟩ | ⟨hb, hc⟩ | ⟨-, hc⟩ | ⟨-, hc⟩ <;> rw [hc] at he
  · cases he
    exact hinv
  · obtain ⟨-, -, hact, htodo, hidle⟩ := hinv
    cases he
    exact ⟨rfl, fun hb' => absurd (hb'.symm.trans hb) (by decide), hact, htodo, hidle⟩
  · exact engine_flagsOk (inProgress_acceptOperation (prepareSequence_keepsOrder .unpowered 0) s) he
  · exact engine_flagsOk (inProgress_acceptOperation (renderSequence_keepsOrder _) s).startRun he

theorem resume_flagsOk (hinv : flagsOk s) (ht : s.todo ≠ []) (hr : resume s = .next t) : flagsOk t := by
  obtain ⟨-, hbusy, hact, htodo, hidle⟩ := hinv
  have hb : s.busy = true := by
    by_contra hb
    exact ht (htodo (by simpa using hb))
  obtain ⟨hdone, herr⟩ := hbusy hb
  have hne : s.act ≠ .idle := fun h => absurd (hb.symm.trans (hact.2 h)) (by decide)
  exact engine_flagsOk (s := { s with todo := [] }) ⟨hb, hdone, herr, hne, rfl, hidle⟩ hr

/-- The invariant is about BUSY, DONE, ERR, ACT and what remains to be done. -/
theorem flagsOk_congr (h : flagsOk s) (hb : t.busy = s.busy) (hd : t.statusDone = s.statusDone)
    (he : t.statusErr = s.statusErr) (ha : t.act = s.act) (ht : t.todo = s.todo) : flagsOk t := by
  rw [flagsOk, hb, hd, he, ha, ht]
  exact h

theorem step_flagsOk (hstep : step s = .next t) (hinv : flagsOk s) : flagsOk t := by
  rcases step_cases hstep with ⟨-, rfl⟩ | ⟨_, -, rfl⟩ | ⟨rest, -, rfl⟩ | ⟨_, _, _, -, rfl⟩ | ⟨a, _, w, rest, -, -, -, rfl⟩ |
    ⟨_, _, w, rest, -, -, -, he⟩ | ⟨x, _, -, hx, hr⟩ | ⟨_, _, -, -, rfl⟩
  · exact hinv
  · simp [flagsOk, blockReset, State.resetOf]
  · exact flagsOk_congr (s := { s with inputs := rest }) hinv (clockEdge_busy _) (clockEdge_statusDone _)
      (clockEdge_statusErr _) (clockEdge_act _) (clockEdge_todo _)
  · exact hinv
  · exact writePlace_keeps (s := { s with inputs := rest }) (P := flagsOk) w _ hinv hinv (fun _ => hinv) (fun _ _ => hinv)
  · exact exec_command_flagsOk w (s := { s with inputs := rest }) hinv he
  · exact resume_flagsOk hinv (todo_ne_nil_of_engineTakes hx) hr
  · exact hinv

/-! ### ERROR.WRAPPED -/

/-- ERROR is written where an error is raised, with WRAPPED by its phase (R305), and cleared. -/
theorem errorOk_engineKeeps : EngineKeeps errorOk where
  perform s t u h hp := by
    rw [errorOk, (perform_steady hp).error]
    exact h
  finish _ _ h := h
  raise _ _ _ := rfl
  todo _ _ h := h

theorem step_errorOk (hstep : step s = .next t) (hinv : errorOk s) : errorOk t :=
  errorOk_engineKeeps.step (hin := fun _ _ h => h) (hreset := fun _ _ => rfl)
    (hedge := fun s h => by rw [errorOk, clockEdge_error]; exact h) (hread := fun _ _ h => h)
    (hwrite := fun _ w _ h _ => writePlace_keeps (P := errorOk) w _ h h (fun _ => h) (fun _ _ => h))
    (hdrop := fun _ h => h) (hillegal := fun _ _ => rfl) (haccept := fun _ _ => rfl) (hstart := fun _ h => h) hinv hstep

/-! ### The order of ACT, PSTATE and STEP -/

/-- The engine stands at a position from which these actions, all that remains of an operation, keep to the order, and the event in
progress belongs to that position. -/
structure InOrder (ops : List Op) (s : State) : Prop where
  step : s.stepIx ≤ lastStep s.pstate
  order : keepsOrder ops (progressOf s) = true
  event : ∀ e ∈ s.outstanding, asksFor (progressOf s) (requestOf e) = true ∧ ops.head? = some .await
  todo : s.todo = []

theorem InOrder.suspended (h : InOrder ops s) : progressOk { s with todo := ops } := ⟨h.step, h.order, h.event⟩

/-- Only the wait for its outcome comes while an event is in progress. -/
theorem InOrder.outstanding (h : InOrder ops s) (ho : ops.head? ≠ some .await) : s.outstanding = none := by
  cases he : s.outstanding with
  | none => rfl
  | some e => exact absurd (h.event e he).2 ho

theorem InOrder.over (h : InOrder [] s) : progressOk s := by
  have hs := h.suspended
  rwa [← h.todo] at hs

theorem keepsOrder_cons {p : Progress} (h : keepsOrder (op :: rest) p = true) : allowedAt p op = true
    ∧ (thenAwaits op = true → rest.head? = some .await) ∧ keepsOrder rest (progressAfter p op) = true := by
  simp only [keepsOrder, Bool.and_eq_true, Bool.or_eq_true, Bool.not_eq_true', decide_eq_true_eq] at h
  obtain ⟨⟨hallowed, hawait⟩, hrest⟩ := h
  exact ⟨hallowed, fun ht => hawait.resolve_left (by simp [ht]), hrest⟩

/-- STEP stays within its protocol state: it becomes 0 with PSTATE, and is written only up to the last step (R29). -/
theorem stepIx_le_lastStep (hallowed : allowedAt (progressOf s) op = true) (h : s.stepIx ≤ lastStep s.pstate)
    (hp : progressOf t = progressAfter (progressOf s) op) : t.stepIx ≤ lastStep t.pstate := by
  have hpstate : t.pstate = (progressAfter (progressOf s) op).pstate := congrArg Progress.pstate hp
  have hstep : t.stepIx = (progressAfter (progressOf s) op).step := congrArg Progress.step hp
  rw [hpstate, hstep]
  cases op with
  | setPState q =>
    have hzero : (0 : BitVec 8) ≤ lastStep q := by cases q <;> decide
    exact hzero
  | setStep n => exact (of_decide_eq_true hallowed).2.2.1
  | _ => exact h

/-- An action other than the wait for an outcome leaves the event in progress, or starts the one that it asks for. -/
theorem effect_outstanding (he : Effect op s t) (hop : op ≠ .await) : t.outstanding = s.outstanding
    ∨ ∃ r e, op = .request r ∧ t.outstanding = some e ∧ r.awaited = true ∧ ∀ p, asksFor p (requestOf e) = asksFor p r := by
  cases he with
  | busOpen => exact .inr ⟨.busOpen, _, rfl, rfl, rfl, fun _ => rfl⟩
  | lineClaim l => exact .inr ⟨.lineClaim l, _, rfl, rfl, rfl, fun _ => rfl⟩
  | lineSet l v => exact .inr ⟨.lineSet l v, _, rfl, rfl, rfl, fun _ => rfl⟩
  | xfer pl => exact .inr ⟨.xfer pl, _, rfl, rfl, rfl, fun _ => rfl⟩
  | answered => exact absurd rfl hop
  | _ => exact .inl (by simp)

theorem InOrder.done (h : InOrder (op :: rest) s) (hp : perform op s = .done t) : InOrder rest t := by
  obtain ⟨hallowed, hawait, hrest⟩ := keepsOrder_cons h.order
  have hprogress := perform_progress hp
  have hnone : op ≠ .await → s.outstanding = none := fun hop => h.outstanding (by simpa using hop)
  refine ⟨stepIx_le_lastStep hallowed h.step hprogress, hprogress ▸ hrest, fun e he => ?_,
    (perform_steady (.inl hp)).todo.trans h.todo⟩
  by_cases hop : op = .await
  · subst hop
    rcases perform_await_done hp with ⟨ho, rfl⟩ | ⟨_, _, _, -, -, -, rfl⟩
    · simp [ho] at he
    · simp [(settleEvent_progress _ _ _).2] at he
  · rcases effect_outstanding (effect_of_perform (.inl hp)) hop with hsame | ⟨r, e', rfl, hissued, hr, hasks⟩
    · simp [hsame, hnone hop] at he
    · obtain rfl : e' = e := by simpa [hissued] using he
      rw [hasks, hprogress]
      exact ⟨hallowed, hawait hr⟩

theorem InOrder.waits (h : InOrder ops s) (hp : perform op s = .wait t) :
    progressOk { t with todo := ops ++ t.todo } := by
  have htodo : t.todo = [] := (perform_steady (.inr (.inl hp))).todo.trans h.todo
  rw [htodo, List.append_nil, perform_wait hp]
  exact ⟨h.step, h.order, h.event⟩

theorem InOrder.ended (h : InOrder (op :: rest) s) (hp : perform op s = .ended t) : progressOk t := by
  obtain ⟨b, rfl, rfl⟩ := perform_ended hp
  have hnone : s.outstanding = none := h.outstanding (by simp)
  exact ⟨h.step, rfl, by simp [hnone]⟩

/-- An action that raises changes nothing. -/
theorem perform_raise (hp : perform op s = .raise f t) : (op = .check ∨ op = .dimensionCheck) ∧ t = s := by
  cases op with
  | check =>
    simp only [perform, perfCheck] at hp
    split at hp <;> cases hp
    exact ⟨.inl rfl, rfl⟩
  | dimensionCheck =>
    simp only [perform, perfDimensionCheck] at hp
    split at hp <;> cases hp
    exact ⟨.inr rfl, rfl⟩
  | request r =>
    cases r <;> simp only [perform, perfRequest] at hp
    case lineSet | xfer => split at hp <;> cases hp
    all_goals cases hp
  | gate | await | timer | resample =>
    simp only [perform, perfGate, perfAwait, perfTimer, perfResample] at hp
    split at hp <;> (try split at hp) <;> cases hp
  | setAct | setPState | setStep | setPos | fit | background | dither | pack | finish => cases hp

/-- The abort path keeps to the order, whatever is held and wherever the run was (R305). -/
theorem abortSequence_keepsOrder (s : State) (p : PState) (n : BitVec 8) :
    keepsOrder (abortSequence s) ⟨.release, p, n⟩ = true := by
  unfold abortSequence
  cases s.dc.claimed <;> cases s.rst.claimed <;> cases s.bus.isSome <;> rfl

theorem InOrder.runOps (hraise : ∀ f t u, t.stepIx ≤ lastStep t.pstate → k (raiseError f t) = .next u →
    progressOk u) (h : InOrder ops s) (hrun : runOps k ops s = .next u) : progressOk u := by
  refine runOps_keeps (Q := InOrder) (fun _ h => h.over) (fun _ _ _ _ h hp => h.done hp)
    (fun _ _ _ _ h hp => h.waits hp) (fun _ _ _ _ h hp => h.ended hp) (fun _ _ s t f u h hp hk => ?_) ops s h u hrun
  obtain ⟨-, rfl⟩ := perform_raise hp
  exact hraise f t u h.step hk

theorem runAbort_progressOk (h : t.stepIx ≤ lastStep t.pstate) (hrun : runAbort (raiseError f t) = .next u) : progressOk u := by
  have hstart : InOrder (abortSequence (raiseError f t)) (raiseError f t) :=
    ⟨h, abortSequence_keepsOrder _ _ _, by simp, rfl⟩
  refine hstart.runOps (fun f' t' u' h' hu => ?_) hrun
  cases hu
  exact ⟨h', rfl, by simp⟩

theorem engine_progressOk (h : InOrder ops s) (hrun : engine ops s = .next u) : progressOk u :=
  h.runOps (fun _ _ _ => runAbort_progressOk) hrun

theorem exec_command_progressOk (w : Word) (hinv : progressOk s) (he : exec (decodeCmd w) s = .next t) : progressOk t := by
  rcases exec_command_cases w s with ⟨-, hc⟩ | ⟨-, hc⟩ | ⟨-, hc⟩ | ⟨-, hc⟩ <;> rw [hc] at he
  · cases he
    exact hinv
  · cases he
    exact hinv
  · exact engine_progressOk (s := acceptOperation s) ⟨hinv.1, prepareSequence_keepsOrder _ _, by simp, rfl⟩ he
  · exact engine_progressOk (s := startRun (acceptOperation s))
      ⟨BitVec.le_refl 0, renderSequence_keepsOrder _, by simp, rfl⟩ he

/-- The invariant is about the position, the event in progress and what remains to be done. -/
theorem progressOk_congr (h : progressOk s) (hp : t.pstate = s.pstate) (hn : t.stepIx = s.stepIx) (ha : t.act = s.act)
    (ho : t.outstanding = s.outstanding) (ht : t.todo = s.todo) : progressOk t := by
  rw [progressOk, progressOf, hp, hn, ha, ho, ht]
  exact h

theorem step_progressOk (hstep : step s = .next t) (hinv : progressOk s) : progressOk t := by
  rcases step_cases hstep with ⟨-, rfl⟩ | ⟨_, -, rfl⟩ | ⟨rest, -, rfl⟩ | ⟨_, _, _, -, rfl⟩ | ⟨a, _, w, rest, -, -, -, rfl⟩ |
    ⟨_, _, w, rest, -, -, -, he⟩ | ⟨x, _, -, -, hr⟩ | ⟨_, _, -, -, rfl⟩
  · exact hinv
  · exact ⟨BitVec.le_refl 0, rfl, by simp [blockReset, State.resetOf]⟩
  · exact progressOk_congr (s := { s with inputs := rest }) hinv (clockEdge_pstate _) (clockEdge_stepIx _) (clockEdge_act _)
      (clockEdge_outstanding _) (clockEdge_todo _)
  · exact hinv
  · exact writePlace_keeps (s := { s with inputs := rest }) (P := progressOk) w _ hinv hinv (fun _ => hinv) (fun _ _ => hinv)
  · exact exec_command_progressOk w (s := { s with inputs := rest }) hinv he
  · exact engine_progressOk (s := { s with todo := [] }) ⟨hinv.1, hinv.2.1, hinv.2.2, rfl⟩ hr
  · exact hinv

/-- Settles O56: the flags, ERROR.WRAPPED and the order are invariants each by itself. -/
theorem flagsStayConsistent : Obligations.FlagsStayConsistent :=
  fun _ _ hstep => ⟨step_flagsOk hstep, step_errorOk hstep, step_progressOk hstep⟩

end Sys2Proof.Machine
end

section
/-! Steps at the host port: commands, register reads, SRCMEM, reads without a side effect; the fields of STATUS and ERROR; block
reset and the reset state (spec/10_state.md R22 to R36, R50; spec/20_memory.md R61, R64, R69, R71; spec/70_reset_and_hazards.md
R330). -/

namespace Sys2Proof.Machine

variable {s t : State} {a : HostAddr} {v w : Word} {rest : List Input}

/-! ### Commands -/

/-- A step after the fetch of a word, which is a host write of it to CMD. -/
theorem step_withFetchWord (s : State) (w : Nat) : step (s.withFetchWord 32 w) = exec (decodeCmd (BitVec.ofNat 32 w)) s := by
  have hword : BitVec.ofNat 32 (w % 2 ^ 32) = BitVec.ofNat 32 w := BitVec.eq_of_toNat_eq (by simp)
  rw [State.withFetchWord, hword]
  exact step_hostWrite_cmd rfl

/-- Settles O5: a CMD write is fetched as the command it decodes to, and `step` is `exec` of that (R23). -/
theorem stepRunsCommand : Obligations.StepRunsCommand :=
  ⟨fun _ _ _ hi => step_hostWrite_cmd hi, step_withFetchWord⟩

/-! ### Register reads -/

/-- A read of a register is the value of the place at its offset (R22). -/
theorem step_readRegister (hi : s.inputs = .host (.read a 4) :: rest) (ha : a.toNat % 4 = 0) (hreg : a.toNat < 0x100) :
    step s = .next (afterRead a (readPlace { s with inputs := rest } (registerAt a.toNat)) rest s) :=
  step_hostRead hi ha (placeAt_register _ hreg)

/-- Offsets 0x18 to 0xFC are reserved (R36). -/
theorem registerAt_reserved {n : Nat} (h : 0x18 ≤ n) : registerAt n = .reserved := by
  unfold registerAt
  rw [if_neg (by omega), if_neg (by omega), if_neg (by omega), if_neg (by omega), if_neg (by omega), if_neg (by omega)]

/-- Settles O8: the register at each offset, and what it reads as (R22, R36). -/
theorem registerReads : Obligations.RegisterReads := by
  intro s a rest hi
  refine ⟨?_, ?_, ?_, ?_, ?_, ?_, fun hlow hhigh ha => ?_⟩
  case refine_7 =>
    have hread := step_readRegister hi ha (by omega)
    rwa [registerAt_reserved hlow] at hread
  all_goals
    rintro rfl
    exact step_readRegister hi (by decide) (by decide)

/-! ### SRCMEM -/

theorem writePlace_srcmem_idle {n : Nat} (hb : s.busy = false) :
    writePlace v s (.srcmem n) = { s with mem := memWriteWord s.mem n v } := by
  rw [writePlace, hb]
  rfl

section

variable {k : Nat} (hk : k < s.cfg.srcmemWords.val) (ha : a.toNat = 0x100000 + 4 * k)

include hk ha

theorem placeAt_srcmemWord : placeAt s.cfg a.toNat = .srcmem a.toNat := by
  rw [ha]
  exact placeAt_srcmem s.cfg hk

/-- A word written to SRCMEM while idle is stored (R69). -/
theorem step_writeSrcmem_idle (hb : s.busy = false) (hi : s.inputs = .host (.write a 4 v) :: rest) :
    step s = .next { s with inputs := rest, mem := memWriteWord s.mem a.toNat v } :=
  (step_hostWrite hi (by omega) (placeAt_srcmemWord hk ha) (by simp)).trans
    (congrArg _ (writePlace_srcmem_idle (s := { s with inputs := rest }) hb))

/-- A read of an SRCMEM word, BUSY or not. -/
theorem step_readSrcmem (hi : s.inputs = .host (.read a 4) :: rest) :
    step s = .next (afterRead a (wordOrDraw s.mem s.draws a.toNat) rest s) :=
  step_hostRead hi (by omega) (placeAt_srcmemWord hk ha)

end

/-- A word is stored little-endian: its byte `j` at the address `j` above (R64). -/
theorem memRead_memWriteWord (m : Memory) (n : Nat) (v : Word) {j : Nat} (hj : j < 4) :
    memRead (memWriteWord m n v) (n + j) = (wordBytes v)[j]? := by
  rw [memWriteWord, memRead_memWrite, wordBytes_length, if_pos (by omega), Nat.add_sub_cancel_left]

theorem memRead_memWriteWord_of_not_mem (m : Memory) (v : Word) {n x : Nat} (hx : ¬ (n ≤ x ∧ x < n + 4)) :
    memRead (memWriteWord m n v) x = memRead m x :=
  memRead_memWrite_of_not_mem hx

/-- Settles O12: the stored word, its bytes and its read back; a dropped write; and a read of a word stored or not (R69, R64,
R48). -/
theorem srcmemAccess : Obligations.SrcmemAccess := by
  intro s k a v rest hk ha
  refine ⟨fun hb hi => ?_, fun hb hi => ?_, fun hi => ⟨fun w hw => ?_, fun hnone => ?_⟩⟩
  · refine ⟨memWriteWord s.mem a.toNat v, step_writeSrcmem_idle hk ha hb hi, ?_, fun j => memRead_memWriteWord _ _ _,
      fun x => memRead_memWriteWord_of_not_mem _ _⟩
    have hread := step_readSrcmem (s := { s with inputs := .host (.read a 4) :: rest, mem := memWriteWord s.mem a.toNat v })
      hk ha rfl
    rwa [wordOrDraw_of_memReadWord _ (memReadWord_memWriteWord _ _ _)] at hread
  · exact step_hostWrite_busy hb hi (.inr (.inr ⟨k, hk, ha⟩))
  · rw [step_readSrcmem hk ha hi, wordOrDraw_of_memReadWord _ hw]
  · rw [step_readSrcmem hk ha hi, wordOrDraw_of_unwritten _ hnone]

/-! ### Reads -/

theorem step_hostRead_eq {size : Nat} (hi : s.inputs = .host (.read a size) :: rest) : step s =
    if accessDefined a size then .next (hostRead a { s with inputs := rest }) else .refused (.hostAccess a size) := by
  simp only [step, fetch, hi, fetchHost]
  cases accessDefined a size <;> rfl

/-- Settles O15: a read that is not refused writes the log of reads and the draw counter alone (R71). -/
theorem hostReadsHaveNoSideEffect : Obligations.HostReadsHaveNoSideEffect := by
  intro s t a size rest hi hstep
  rw [step_hostRead_eq hi] at hstep
  split at hstep <;> cases hstep
  exact ⟨rfl, rfl, _, rfl⟩

/-! ### The words of STATUS and ERROR -/

/-- The single bits of STATUS, each by its place among the parts that `statusWord` puts together (R24). -/
theorem statusWord_bits (s : State) :
    (statusWord s).getLsbD 0 = s.busy ∧ (statusWord s).getLsbD 1 = s.statusDone ∧ (statusWord s).getLsbD 2 = s.statusErr
      ∧ (statusWord s).getLsbD 3 = s.overrun ∧ (statusWord s).getLsbD 7 = false
      ∧ (statusWord s).getLsbD 16 = s.bus.isSome ∧ (statusWord s).getLsbD 17 = s.rst.claimed
      ∧ (statusWord s).getLsbD 18 = s.dc.claimed ∧ (statusWord s).getLsbD 19 = s.rst.level
      ∧ (statusWord s).getLsbD 20 = s.dc.level := by
  simp only [statusWord, BitVec.getLsbD_append, BitVec.getLsbD_ofBool]
  simp

/-- The wider fields of STATUS (R24, R28, R29, R32). -/
theorem statusWord_fields (s : State) :
    (statusWord s).extractLsb' 4 3 = pstateCode s.pstate ∧ (statusWord s).extractLsb' 8 8 = s.stepIx
      ∧ (statusWord s).extractLsb' 21 3 = actCode s.act ∧ (statusWord s).extractLsb' 24 8 = 0 := by
  simp (disch := decide) only [statusWord, BitVec.extractLsb'_append_eq_of_le, BitVec.extractLsb'_append_eq_right,
    BitVec.extractLsb'_eq_self, Nat.reduceSub, and_self]

/-- The fields of ERROR (R33). -/
theorem errorWord_fields (e : ErrorReg) :
    (errorWord e).extractLsb' 0 4 = classCode e.cls ∧ (errorWord e).getLsbD 4 = e.wrapped
      ∧ (errorWord e).extractLsb' 5 3 = phaseCode e.phase ∧ (errorWord e).extractLsb' 8 8 = e.step
      ∧ (errorWord e).extractLsb' 16 4 = e.uop ∧ (errorWord e).extractLsb' 20 12 = 0 := by
  simp (disch := decide) only [errorWord, BitVec.extractLsb'_append_eq_of_le, BitVec.extractLsb'_append_eq_right,
    BitVec.extractLsb'_eq_self, Nat.reduceSub, BitVec.getLsbD_append, BitVec.getLsbD_ofBool]
  simp

/-- Settles O16: each field by its place in the word (R24, R33), and the codes in the spec's order. -/
theorem statusAndErrorFields : Obligations.StatusAndErrorFields := by
  refine ⟨fun s => ?_, rfl, rfl, errorWord_fields, rfl, rfl⟩
  obtain ⟨hbusy, hdone, herr, hover, h7, hbus, hrst, hdc, hrstLevel, hdcLevel⟩ := statusWord_bits s
  obtain ⟨hpstate, hstep, hact, hhigh⟩ := statusWord_fields s
  exact ⟨hbusy, hdone, herr, hover, hpstate, h7, hstep, hbus, hrst, hdc, hrstLevel, hdcLevel, hact, hhigh⟩

/-! ### Reset -/

/-- Settles O52: block reset is the reset of the block's own parameters, at once (R330, R333). -/
theorem blockResetTakesEffectAtOnce : Obligations.BlockResetTakesEffectAtOnce := by
  intro s rest hi
  rw [step, fetch, hi]
  rfl

/-- Settles O53: nothing is written, held or in progress at reset (R50). -/
theorem invariantsHoldAtReset : Obligations.InvariantsHoldAtReset := by
  have hmem : State.reset.mem.wf := List.Pairwise.nil
  have hheld : releasesAll State.reset := blockReset_releasesAll State.reset
  have hflags : flagsOk State.reset := by simp [flagsOk, State.reset, State.resetOf]
  have horder : progressOk State.reset := ⟨BitVec.le_refl 0, rfl, by simp [State.reset, State.resetOf]⟩
  exact ⟨hmem, hheld, hflags, rfl, horder, ⟨lineOk_released, lineOk_released⟩, blockReset_indicesOk State.reset⟩

end Sys2Proof.Machine
end

section
/-! Steps while an operation waits: what lets it go on, that it goes on where it stood, what passes it by, and what no step changes
(spec/10_state.md R20, R21; spec/00_scope.md R14; spec/20_memory.md R77, R79; spec/70_reset_and_hazards.md R351). -/

namespace Sys2Proof.Machine

variable {s t : State} {op : Op} {ops rest : List Op} {x : Input} {ins more : List Input} {k : State → StepOutcome} {f : Failure}

/-! ### What no step changes -/

/-- The build parameters stand and the trace only grows, from `s` to `t`. -/
structure Extends (s t : State) : Prop where
  cfg : t.cfg = s.cfg
  trace : s.trace <+: t.trace

theorem Extends.refl (s : State) : Extends s s := ⟨rfl, List.prefix_refl _⟩

theorem extends_engineKeeps (s : State) : EngineKeeps (Extends s) where
  perform _ _ _ h hp :=
    have ⟨es, hes⟩ := effect_trace (effect_of_perform hp)
    ⟨(perform_steady hp).cfg.trans h.cfg, h.trace.trans ⟨es, hes.symm⟩⟩
  finish _ _ h := ⟨h.cfg, h.trace⟩
  raise _ _ h := ⟨h.cfg, h.trace⟩
  todo _ _ h := ⟨h.cfg, h.trace⟩

/-- Every step but block reset. -/
theorem step_extends (hstep : step s = .next t) (hr : s.inputs.head? ≠ some .reset) : Extends s t := by
  have htake : ∀ ins, Extends s { s with inputs := ins } := fun _ => ⟨rfl, List.prefix_refl _⟩
  rcases step_cases hstep with ⟨-, rfl⟩ | ⟨_, hi, -⟩ | ⟨ins, -, rfl⟩ | ⟨_, _, _, -, rfl⟩ | ⟨a, _, w, ins, -, -, -, rfl⟩ |
    ⟨_, _, w, ins, -, -, -, he⟩ | ⟨_, _, -, -, hres⟩ | ⟨_, _, -, -, rfl⟩
  · exact .refl _
  · exact absurd (by rw [hi]; rfl) hr
  · exact ⟨clockEdge_cfg _, by rw [clockEdge_trace]⟩
  · exact ⟨rfl, List.prefix_refl _⟩
  · exact writePlace_keeps (P := Extends s) w _ (htake ins) ⟨rfl, List.prefix_refl _⟩ (fun _ => ⟨rfl, List.prefix_refl _⟩)
      (fun _ _ => ⟨rfl, List.prefix_refl _⟩)
  · rcases exec_command_cases w { s with inputs := ins } with ⟨-, hc⟩ | ⟨-, hc⟩ | ⟨-, hc⟩ | ⟨-, hc⟩ <;> rw [hc] at he
    · cases he
      exact ⟨rfl, List.prefix_refl _⟩
    · cases he
      exact ⟨rfl, List.prefix_refl _⟩
    · exact (extends_engineKeeps s).engine _ (acceptOperation { s with inputs := ins }) t ⟨rfl, List.prefix_refl _⟩ he
    · exact (extends_engineKeeps s).engine _ (startRun (acceptOperation { s with inputs := ins })) t
        ⟨rfl, List.prefix_refl _⟩ he
  · exact (extends_engineKeeps s).engine _ { s with todo := [] } t ⟨rfl, List.prefix_refl _⟩ hres
  · exact htake _

/-- Block reset keeps the build parameters, too (spec/70_reset_and_hazards.md R333). -/
theorem step_cfg (hstep : step s = .next t) : t.cfg = s.cfg := by
  by_cases hr : s.inputs.head? = some .reset
  · obtain ⟨ins, hi⟩ := List.head?_eq_some_iff.1 hr
    rw [blockResetTakesEffectAtOnce s ins hi] at hstep
    cases hstep
    rfl
  · exact (step_extends hstep hr).cfg

/-- Settles O60: no action writes the parameters, and each only appends to the trace. -/
theorem parametersAndTraceStand : Obligations.ParametersAndTraceStand :=
  fun _ _ hstep => ⟨step_cfg hstep, fun hr => (step_extends hstep hr).trace⟩

/-! ### What an operation waits for -/

/-- An input lets the operation in progress go on: work at a gate, a TICK at the timer, an outcome that the event can have. -/
def GoesOn (s : State) (x : Input) : Prop :=
  (∃ ops, s.todo = .gate :: ops ∧ x = .work) ∨ (∃ ops, s.todo = .timer :: ops ∧ x = .tick)
    ∨ ∃ ops a, s.todo = .await :: ops ∧ x = .answer a ∧ ∀ e, s.outstanding = some e → admits e a = true

theorem engineTakes_iff (s : State) (x : Input) : engineTakes s x = true ↔ GoesOn s x := by
  constructor
  · intro h
    unfold engineTakes at h
    split at h
    · next ops a ht =>
      refine .inr (.inr ⟨ops, a, ht, rfl, fun e he => ?_⟩)
      rwa [he] at h
    · next ops ht => exact .inl ⟨ops, ht, rfl⟩
    · next ops ht => exact .inr (.inl ⟨ops, ht, rfl⟩)
    · cases h
  · rintro (⟨ops, ht, rfl⟩ | ⟨ops, ht, rfl⟩ | ⟨ops, a, ht, rfl, ha⟩) <;> simp only [engineTakes, ht]
    cases ho : s.outstanding with
    | none => rfl
    | some e => exact ha e ho

/-- An input other than a host transaction, a change of level and block reset. -/
theorem step_other (hi : s.inputs = x :: ins) (hhost : ∀ q, x ≠ .host q) (hreset : x ≠ .reset) (hedge : x ≠ .edge) :
    step s = if engineTakes s x then resume s else .next { s with inputs := ins } := by
  cases x with
  | host q => exact absurd rfl (hhost q)
  | reset => exact absurd rfl hreset
  | edge => exact absurd rfl hedge
  | answer | work | tick =>
    simp only [step, fetch, hi]
    cases engineTakes s _ <;> rfl

/-- The failures that an event can be answered with (R14). -/
theorem admits_fail_iff (e : WireEvent) (c : ErrClass) : admits e (.fail c) = true ↔
    ((∃ mode hz, e = .busOpen mode hz) ∧ (c = .deviceUnavailable ∨ c = .configurationFailed))
      ∨ ((∃ l flags, e = .lineClaim l flags) ∧ (c = .deviceUnavailable ∨ c = .lineRequestFailed))
      ∨ ((∃ l v, e = .lineSet l v) ∧ c = .lineWriteFailed) ∨ ((∃ dc bytes, e = .xfer dc bytes) ∧ c = .transferFailed) := by
  cases e <;> simp [admits, failureClasses]

/-! ### Going on where it stood -/

/-- The state with other inputs to come. -/
def State.withInputs (ins : List Input) (s : State) : State := { s with inputs := ins }

/-- The state with more inputs after those to come. -/
def State.withMore (more : List Input) (s : State) : State := s.withInputs (s.inputs ++ more)

@[simp] theorem withInputs_inputs (ins : List Input) (s : State) : (s.withInputs ins).inputs = ins := rfl
@[simp] theorem withMore_inputs (more : List Input) (s : State) : (s.withMore more).inputs = s.inputs ++ more := rfl

section

variable (ins : List Input) (s : State)

theorem setLine_withInputs (l : Line) (v : LineState) (p : Pin) :
    setLine l v p (s.withInputs ins) = (setLine l v p s).withInputs ins := by
  cases l <;> rfl

theorem driveLine_withInputs (l : Line) (v : Bool) (p : Pin) :
    driveLine l v p (s.withInputs ins) = (driveLine l v p s).withInputs ins := by
  have hline : lineOf (s.withInputs ins) l = lineOf s l := by cases l <;> rfl
  rw [driveLine, driveLine, hline, setLine_withInputs]
  split <;> rfl

theorem effectOk_withInputs (e : WireEvent) : effectOk e (s.withInputs ins) = (effectOk e s).withInputs ins := by
  cases e with
  | lineClaim l flags => exact setLine_withInputs ins s l _ _
  | lineSet l v => exact driveLine_withInputs ins s l v _
  | busOpen | busClose | lineRelease | xfer | delay => rfl

theorem effectFail_withInputs (e : WireEvent) : effectFail e (s.withInputs ins) = (effectFail e s).withInputs ins := by
  cases e with
  | lineSet l v =>
    have hdrive := driveLine_withInputs ins s l (lineOf s l).level
      (pinAfterFailedWrite (Config.drawBit s.draws) v (pinOf s l))
    cases l <;> exact congrArg (fun u : State => { u with draws := s.draws + 1 }) hdrive
  | busOpen | busClose | lineClaim | lineRelease | xfer | delay => rfl

theorem noteFailure_withInputs (c : ErrClass) : noteFailure c (s.withInputs ins) = (noteFailure c s).withInputs ins := by
  have hheld : (s.withInputs ins).held = s.held := rfl
  rw [noteFailure, noteFailure, hheld]
  cases s.held <;> rfl

/-- What an outcome does does not depend on what comes after it. -/
theorem settleEvent_withInputs (e : WireEvent) (a : Answer) :
    settleEvent e a (s.withInputs ins) = (settleEvent e a s).withInputs ins := by
  cases a with
  | ok => exact effectOk_withInputs ins { s with outstanding := none, outcomes := s.outcomes ++ [.ok] } e
  | fail c =>
    have hfail := effectFail_withInputs ins { s with outstanding := none, outcomes := s.outcomes ++ [.fail c] } e
    exact (congrArg (noteFailure c) hfail).trans (noteFailure_withInputs ins _ c)

theorem settleEvent_withMore (e : WireEvent) (a : Answer) :
    settleEvent e a (s.withMore ins) = (settleEvent e a s).withMore ins := by
  rw [State.withMore, settleEvent_withInputs, State.withMore, settleEvent_inputs]

end

theorem countDown_zero (ins : List Input) : countDown ins 0 = (ins, 0) := by
  rcases ins with _ | ⟨x, ins⟩
  · rfl
  · cases x <;> rfl

theorem countDown_tick (ins : List Input) {d : BitVec 16} (hd : d ≠ 0) :
    countDown (.tick :: ins) d = countDown ins (d - 1) := if_neg hd

theorem countDown_other (ins : List Input) (d : BitVec 16) (hx : x ≠ .tick) : countDown (x :: ins) d = (x :: ins, d) := by
  cases x with
  | tick => exact absurd rfl hx
  | _ => rfl

/-- A count that has ended takes nothing of what comes after. -/
theorem countDown_append_of_ended (ins more : List Input) (d : BitVec 16) (h : (countDown ins d).2 = 0) :
    countDown (ins ++ more) d = ((countDown ins d).1 ++ more, 0) := by
  induction ins generalizing d with
  | nil =>
    obtain rfl : d = 0 := h
    exact countDown_zero more
  | cons x ins ih =>
    by_cases hd : d = 0
    · rw [hd, countDown_zero, countDown_zero]
    · by_cases hx : x = .tick
      · rw [hx, countDown_tick _ hd] at h
        rw [hx, List.cons_append, countDown_tick _ hd, countDown_tick _ hd, ih _ h]
      · rw [countDown_other _ _ hx] at h
        exact absurd h hd

/-- A count that has used up its inputs goes on with what comes after. -/
theorem countDown_append_of_dry (ins more : List Input) (d : BitVec 16) (h : (countDown ins d).1 = []) :
    countDown (ins ++ more) d = countDown more (countDown ins d).2 := by
  induction ins generalizing d with
  | nil => rfl
  | cons x ins ih =>
    by_cases hd : d = 0
    · rw [hd, countDown_zero] at h
      cases h
    · by_cases hx : x = .tick
      · rw [hx, countDown_tick _ hd] at h
        rw [hx, List.cons_append, countDown_tick _ hd, countDown_tick _ hd, ih _ h]
      · rw [countDown_other _ _ hx] at h
        cases h

/-- A request's event does not depend on what comes after it. -/
theorem perform_request_withMore {r : Request} (hp : perform (.request r) s = .done t) (more : List Input) :
    perform (.request r) (s.withMore more) = .done (t.withMore more) := by
  cases r with
  | lineSet l v =>
    have hline : lineOf (s.withMore more) l = lineOf s l := by cases l <;> rfl
    simp only [perform, perfRequest] at hp ⊢
    rw [hline]
    split at hp <;> cases hp
    next hc => rw [if_pos hc]; rfl
  | xfer pl =>
    have hbytes : payloadBytes (s.withMore more) pl = payloadBytes s pl := by cases pl <;> rfl
    simp only [perform, perfRequest] at hp ⊢
    rw [hbytes]
    split at hp <;> cases hp
    next hb => exact if_pos hb
  | lineRelease l =>
    cases hp
    cases l <;> rfl
  | busOpen | busClose | lineClaim | delay =>
    cases hp
    rfl

/-- An action that ends does the same with more inputs after those it took. -/
theorem perform_done_withMore (hp : perform op s = .done t) (more : List Input) :
    perform op (s.withMore more) = .done (t.withMore more) := by
  cases op with
  | gate =>
    simp only [perform, perfGate] at hp
    split at hp <;> cases hp
    next ins hi => exact perform_gate (ins := ins ++ more) (by rw [withMore_inputs, hi, List.cons_append])
  | await =>
    rcases perform_await_done hp with ⟨ho, rfl⟩ | ⟨e, a, ins, ho, hi, ha, rfl⟩
    · exact perform_await_none ho
    · have hi' : (s.withMore more).inputs = .answer a :: (ins ++ more) := by rw [withMore_inputs, hi, List.cons_append]
      exact (perform_await_answer (s := s.withMore more) ho hi' ha).trans
        (congrArg _ (settleEvent_withMore more { s with inputs := ins } e a))
  | request r => exact perform_request_withMore hp more
  | timer =>
    simp only [perform, perfTimer] at hp
    split at hp <;> cases hp
    next hd =>
      have hcount := countDown_append_of_ended s.inputs more s.dly hd
      simp only [perform, perfTimer, State.withMore, State.withInputs, hcount, hd, if_true]
  | check =>
    simp only [perform, perfCheck] at hp
    split at hp <;> cases hp
    next hh => exact perform_check_none hh
  | dimensionCheck =>
    simp only [perform, perfDimensionCheck] at hp
    split at hp <;> cases hp
    next hd =>
      have hd' : dimensionError (s.withMore more).cfg.srcmemWords (srcW (s.withMore more)) (srcH (s.withMore more)) = none := hd
      rw [perform, perfDimensionCheck, hd']
  | resample =>
    simp only [perform, perfResample] at hp
    split at hp <;> cases hp
    next hu =>
      have hu' : unwrittenWord (s.withMore more).mem (srcW (s.withMore more) * srcH (s.withMore more)) = none := hu
      rw [perform, perfResample, hu']
      rfl
  | setAct | setPState | setStep | setPos | fit | background | dither | pack => cases hp; rfl
  | finish => cases hp

/-- A raise does not look at the inputs. -/
theorem perform_raise_withMore (hp : perform op s = .raise f t) (more : List Input) :
    perform op (s.withMore more) = .raise f (t.withMore more) := by
  obtain ⟨rfl | rfl, rfl⟩ := perform_raise hp
  · simp only [perform, perfCheck] at hp
    split at hp <;> cases hp
    next hh => exact perform_check_some hh
  · simp only [perform, perfDimensionCheck] at hp
    split at hp <;> cases hp
    next hd => exact perform_dimensionCheck_fail (s := t.withMore more) hd

/-- An action that waits with its inputs used up goes on, with more of them, where it stood. -/
theorem perform_wait_withMore (hp : perform op s = .wait t) (hi : t.inputs = []) (more : List Input) :
    perform op (s.withMore more) = perform op (t.withInputs more) := by
  have hstay : t = s → s.withMore more = t.withInputs more := by
    rintro rfl
    rw [State.withMore, hi, List.nil_append]
  cases op with
  | gate =>
    simp only [perform, perfGate] at hp
    split at hp <;> cases hp
    rw [hstay rfl]
  | await =>
    simp only [perform, perfAwait] at hp
    split at hp
    · cases hp
    · split at hp <;> cases hp
      rw [hstay rfl]
    · cases hp
      rw [hstay rfl]
  | timer =>
    simp only [perform, perfTimer] at hp
    split at hp <;> cases hp
    have hcount := countDown_append_of_dry s.inputs more s.dly hi
    simp only [perform, perfTimer, State.withMore, State.withInputs, hcount]
    rfl
  | request r =>
    cases r <;> simp only [perform, perfRequest] at hp
    case lineSet | xfer => split at hp <;> cases hp
    all_goals cases hp
  | check | dimensionCheck | resample =>
    simp only [perform, perfCheck, perfDimensionCheck, perfResample] at hp
    split at hp <;> cases hp
  | setAct | setPState | setStep | setPos | fit | background | dither | pack | finish => cases hp

/-- None of these actions raises an error. -/
def Quiet (ops : List Op) : Prop := ∀ op ∈ ops, op ≠ .check ∧ op ≠ .dimensionCheck

theorem Quiet.of_cons (h : Quiet (op :: rest)) : Quiet rest := fun _ ho => h _ (List.mem_cons_of_mem _ ho)

/-- What handles errors does not matter to a sequence that raises none. -/
theorem runOps_of_quiet (h : Quiet ops) (k : State → StepOutcome) (s : State) : runOps k ops s = engine ops s := by
  induction ops generalizing s with
  | nil => rfl
  | cons op rest ih =>
    cases hp : perform op s with
    | done t => rw [engine, runOps_done hp, runOps_done hp, ih h.of_cons, engine]
    | wait t => rw [engine, runOps_wait hp, runOps_wait hp]
    | raise f t =>
      obtain ⟨hcheck, hdim⟩ := h op List.mem_cons_self
      rcases (perform_raise hp).1 with ho | ho
      · exact absurd ho hcheck
      · exact absurd ho hdim
    | ended t => rw [engine, runOps_ended hp, runOps_ended hp]
    | fault e => rw [engine, runOps_fault hp, runOps_fault hp]

theorem abortSequence_quiet (s : State) : Quiet (abortSequence s) := by
  unfold abortSequence Quiet
  cases s.dc.claimed <;> cases s.rst.claimed <;> cases s.bus.isSome <;> simp

/-- A run that stops in the middle with its inputs used up goes on, with more inputs, as if they had been there at first. -/
def Continues (run : State → StepOutcome) (s : State) : Prop :=
  ∀ t more, run s = .next t → t.todo ≠ [] → t.inputs = [] →
    run (s.withMore more) = engine t.todo { t with todo := [], inputs := more }

/-- A sequence goes on where it stood if it raises no error, or if what handles its errors goes on. -/
theorem engine_continues (hraise : Quiet ops ∨ ∀ f u, Continues runAbort (raiseError f u)) (ht : s.todo = []) :
    Continues (engine ops) s := by
  induction ops generalizing s with
  | nil =>
    intro t more hrun hne
    cases hrun
    exact absurd ht hne
  | cons op rest ih =>
    intro t more hrun hne hi
    cases hp : perform op s with
    | done u =>
      rw [engine, runOps_done hp] at hrun
      rw [engine, runOps_done (perform_done_withMore hp more)]
      exact ih (hraise.imp_left Quiet.of_cons) ((perform_steady (.inl hp)).todo.trans ht) t more hrun hne hi
    | wait u =>
      have hu : u.todo = [] := (perform_steady (.inr (.inl hp))).todo.trans ht
      rw [engine, runOps_wait hp, hu, List.append_nil] at hrun
      cases hrun
      have hstart : { u with todo := [], inputs := more } = u.withInputs more := by rw [← hu]; rfl
      rw [hstart, engine, engine, runOps, runOps, perform_wait_withMore hp hi more]
    | raise f u =>
      rw [engine, runOps_raise hp] at hrun
      rw [engine, runOps_raise (perform_raise_withMore hp more)]
      rcases hraise with hquiet | hraise
      · obtain ⟨hcheck, hdim⟩ := hquiet op List.mem_cons_self
        rcases (perform_raise hp).1 with ho | ho
        · exact absurd ho hcheck
        · exact absurd ho hdim
      · exact hraise f u t more hrun hne hi
    | ended u =>
      rw [engine, runOps_ended hp] at hrun
      cases hrun
      obtain ⟨b, -, rfl⟩ := perform_ended hp
      exact absurd rfl hne
    | fault e =>
      rw [engine, runOps_fault hp] at hrun
      cases hrun

theorem runAbort_eq_engine (s : State) : runAbort s = engine (abortSequence s) s :=
  runOps_of_quiet (abortSequence_quiet s) _ s

/-- The abort path raises nothing, so it goes on where it stood. -/
theorem runAbort_continues (ht : s.todo = []) : Continues runAbort s := by
  intro t more hrun
  have hsame : abortSequence (s.withMore more) = abortSequence s := rfl
  rw [runAbort_eq_engine] at hrun
  rw [runAbort_eq_engine, hsame]
  exact engine_continues (.inl (abortSequence_quiet s)) ht t more hrun

/-! ### A change of level -/

/-- A change of level with one left to make: its pin takes it and the record has it (spec/44_serial_bus.md R210 to R212). -/
theorem step_edge {m : PinMove} {moves : List PinMove} (hi : s.inputs = .edge :: ins) (hb : s.bus.isSome = true)
    (hm : s.moves = m :: moves) :
    step s = .next { movePin m { s with inputs := ins } with moves := moves, wave := s.wave ++ [m] } := by
  obtain ⟨b, hb⟩ := Option.isSome_iff_exists.1 hb
  simp only [step, fetch, hi, clockEdge, hb, hm]

/-- Settles O6: what lets an operation go on (`engineTakes_iff`), which failures an event can have, that it goes on where it stood
(`engine_continues`), and a change of level with and without one left to make. -/
theorem stepContinuesOperation : Obligations.StepContinuesOperation := by
  refine ⟨fun s x rest hi hhost hreset hedge => ?_, fun e c => ⟨rfl, admits_fail_iff e c⟩, fun ops s t more ht hrun hne hi => ?_,
    fun s rest hi => ⟨fun hnone => ?_, fun m more hb hm => ?_⟩⟩
  · have hstep := step_other hi hhost hreset hedge
    refine ⟨fun h => ?_, fun h => ?_⟩
    · rw [hstep, if_pos ((engineTakes_iff s x).2 h), resume]
    · rw [hstep, if_neg (mt (engineTakes_iff s x).1 h)]
  · exact engine_continues (.inr fun f u => runAbort_continues rfl) ht t more hrun hne hi
  · rcases hnone with hb | hm
    · simp only [step, fetch, hi, clockEdge_closed (s := { s with inputs := rest }) hb]
    · simp only [step, fetch, hi, clockEdge_idle (s := { s with inputs := rest }) hm]
  · rw [step_edge hi hb hm]
    cases m <;> rfl

/-! ### Waiting without an outcome -/

/-- From `s` to `t` the engine has stayed in its event, and no error has been raised for it (R351). -/
structure StaysIn (s t : State) : Prop where
  busy : t.busy = s.busy
  outstanding : t.outstanding = s.outstanding
  todo : t.todo = s.todo
  error : t.error = s.error
  statusErr : t.statusErr = s.statusErr
  trace : t.trace = s.trace

theorem StaysIn.inputs (ins : List Input) (s : State) : StaysIn s { s with inputs := ins } := ⟨rfl, rfl, rfl, rfl, rfl, rfl⟩

/-- A step of an engine that stands in an event, with neither block reset nor an outcome of it next: a CMD write is dropped, and the
engine takes nothing. -/
theorem step_staysIn {e : WireEvent} (hb : s.busy = true) (ho : s.outstanding = some e) (ht : s.todo = .await :: ops)
    (hreset : s.inputs.head? ≠ some .reset) (ha : ∀ a, admits e a = true → s.inputs.head? ≠ some (.answer a))
    (hstep : step s = .next t) : StaysIn s t := by
  rcases step_cases hstep with ⟨-, rfl⟩ | ⟨_, hi, -⟩ | ⟨ins, -, rfl⟩ | ⟨_, _, _, -, rfl⟩ | ⟨a, _, w, ins, -, -, -, rfl⟩ |
    ⟨_, _, w, ins, -, -, -, he⟩ | ⟨x, ins, hi, hx, -⟩ | ⟨_, ins, -, -, rfl⟩
  · exact .inputs _ _
  · exact absurd (by rw [hi]; rfl) hreset
  · exact ⟨clockEdge_busy _, clockEdge_outstanding _, clockEdge_todo _, clockEdge_error _, clockEdge_statusErr _,
      clockEdge_trace _⟩
  · exact ⟨rfl, rfl, rfl, rfl, rfl, rfl⟩
  · exact writePlace_keeps (P := StaysIn s) w _ (.inputs ins s) ⟨rfl, rfl, rfl, rfl, rfl, rfl⟩
      (fun _ => ⟨rfl, rfl, rfl, rfl, rfl, rfl⟩) (fun _ _ => ⟨rfl, rfl, rfl, rfl, rfl, rfl⟩)
  · rw [exec_command_busy (s := { s with inputs := ins }) w hb] at he
    cases he
    exact ⟨rfl, rfl, rfl, rfl, rfl, rfl⟩
  · rcases (engineTakes_iff s x).1 hx with ⟨_, hg, -⟩ | ⟨_, hg, -⟩ | ⟨_, a, -, rfl, hadm⟩
    · rw [ht] at hg
      cases hg
    · rw [ht] at hg
      cases hg
    · exact absurd (by rw [hi]; rfl) (ha a (hadm e ho))
  · exact .inputs ins s

/-- Settles O7: with no input a step answers the state itself, and every other step leaves the engine in its event. -/
theorem stuckWithoutOutcome : Obligations.StuckWithoutOutcome := by
  intro s e ops hb ho ht hreset ha
  refine ⟨fun hi => by simp only [step, fetch, hi], fun t hstep => ?_⟩
  have h := step_staysIn hb ho ht hreset ha hstep
  exact ⟨h.busy.trans hb, h.outstanding.trans ho, h.todo.trans ht, h.error, h.statusErr, h.trace⟩

end Sys2Proof.Machine
end

section
/-! O18, O23, O24, O26 to O29 and O34 to O37: what one micro-operation and one protocol step come to. -/

namespace Sys2Proof.Machine

variable {s : State} {ins : List Input} {ops : List Op}

/-! ### Micro-operations -/

/-- Settles O18: `exec_illegal_of_idle` gives the state, and the word is its fields' (R280). -/
theorem illegalOperation : Obligations.IllegalOperation :=
  fun s _ hb => ⟨exec_illegal_of_idle (s := s) hb, by decide⟩

/-- A micro-operation starts by naming its position. -/
theorem engine_microOp (p : Pos) (r : Request) (s : State) :
    engine (microOp p r) s = runOps runAbort [.request r, .await, .check] { s with pos := p } := rfl

theorem exec_busOpen_ok (hh : s.held = none) (hi : s.inputs = .answer .ok :: ins) :
    exec .busOpen s = .next (busPinsIdle { answered (.busOpen s.cfg.spiMode s.cfg.spiClockHz) ins s with
      bus := some ⟨s.cfg.spiMode, s.cfg.spiClockHz⟩, pos := ⟨.acquire, 0, 0⟩ }) := by
  rw [exec, execBusOpen, engine_microOp, runOps_busOpen_ok (ins := ins) (by exact hi) (by exact hh)]
  rfl

/-- Settles O23: `exec_busOpen_ok`, with the next draw for MOSI's level. -/
theorem busOpenCompletes : Obligations.BusOpenCompletes :=
  fun s _ hh hi => ⟨Config.drawBit s.draws, exec_busOpen_ok hh hi⟩

theorem exec_lineClaim_ok (l : Line) (hh : s.held = none) (hi : s.inputs = .answer .ok :: ins) :
    exec (.lineClaim l) s = .next (setLine l ⟨true, false⟩ (.driven false)
      (answered (.lineClaim l lineFlags) ins { s with pos := ⟨.acquire, claimStep l, 0⟩ })) := by
  rw [exec, execLineClaim, engine_microOp, runOps_lineClaim_ok (ins := ins) (by exact hi) (by exact hh)]
  rfl

/-- Settles O24: `exec_lineClaim_ok` at each line. -/
theorem lineClaimCompletes : Obligations.LineClaimCompletes :=
  fun _ _ hh hi => ⟨exec_lineClaim_ok .rst hh hi, exec_lineClaim_ok .dc hh hi⟩

/-- Settles O26: a release is one action that waits for nothing, whatever is held. -/
theorem releasesComplete : Obligations.ReleasesComplete := fun _ => ⟨rfl, rfl, rfl⟩

/-- Settles O27: with no input the event waits for its outcome, and with the outcome ok the state is `afterXfer`. -/
theorem xferCompletes : Obligations.XferCompletes := by
  intro s bytes hb hh
  have hstart : perform (.request (.xfer (.const bytes))) s = .done (startXfer bytes { s with draws := s.draws + 1 }) := by
    simp [perform, perfRequest, hb, payloadBytes]
  refine ⟨fun hi => ?_, fun rest hi => ⟨Config.drawBit (s.draws + 1), ?_⟩⟩
  · have hwait : perform .await (startXfer bytes { s with draws := s.draws + 1 })
        = .wait (startXfer bytes { s with draws := s.draws + 1 }) := by
      simp [perform, perfAwait, startXfer, issueEvent, emitEvent, hi]
    exact (runOps_done hstart).trans (runOps_wait hwait)
  · exact (runOps_xfer_ok (p := .const bytes) (rest := [.check]) hb hi).trans
      (runOps_done (perform_check_none (s := afterXfer bytes rest s) hh))

/-- Settles O28: all the TICKs of the count end it, and fewer leave the rest of it in the counter. -/
theorem delayCounts : Obligations.DelayCounts := by
  intro s ms
  refine ⟨fun rest hi => runOps_waitFor (rest := []) hi, fun n hn hi => ?_⟩
  have hleft : ms - BitVec.ofNat 16 n ≠ 0 := by bv_omega
  have hcount : countDown s.inputs ms = ([], ms - BitVec.ofNat 16 n) := by rw [hi, countDown_short n ms hn.le]
  have hwait : perform .timer (startDelay ms s)
      = .wait { startDelay ms s with inputs := [], dly := ms - BitVec.ofNat 16 n } := by
    have hin : (startDelay ms s).inputs = s.inputs := rfl
    have hdly : (startDelay ms s).dly = ms := rfl
    rw [perform, perfTimer, hin, hdly, hcount]
    exact if_neg hleft
  rw [exec, execDelay, engine, waitFor, runOps_done (t := startDelay ms s) rfl, runOps_wait hwait]
  rfl

/-- Settles O29: each request looks at what it needs before it does anything (R189, R207). -/
theorem unownedUseFaults : Obligations.UnownedUseFaults := by
  refine ⟨fun s l v hc => runOps_fault ?_, fun s bytes hb => runOps_fault ?_⟩
  · simp [perform, perfRequest, hc]
  · simp [perform, perfRequest, hb]

/-! ### Protocol steps -/

/-- The changes of level of a command: those of its two transfers, for a DC write makes none. -/
theorem traceWave_command (cfg : Config) (level : Bool) (op : Byte) (data : List Byte) :
    traceWave cfg (.xfer level [op] :: payloadTrace data)
      = transferMoves cfg.spiMode cfg.csPulsed [op] ++ transferMoves cfg.spiMode cfg.csPulsed data := by
  simp [payloadTrace, traceWave, eventWave]

/-- Settles O34: the step's own run to its end, `runOps_initStep_ok`, with nothing after it. -/
theorem initStepsComplete : Obligations.InitStepsComplete := by
  intro k s rest hb hc hh hi
  refine ⟨Config.drawBit (s.draws + 3), ?_⟩
  have h := runOps_initStep_ok (k := runAbort) (rest := []) (n := k) hb hc hh hi
  rw [List.append_nil] at h
  rw [exec_initInstr]
  refine h.trans ?_
  rw [runOps_nil, afterInitStep, afterCommand, traceWave_command]
  rfl

/-- Settles O35: the step's own run to its end, `runOps_paintStep_ok`, with nothing after it. -/
theorem paintPayloadStepsComplete : Obligations.PaintPayloadStepsComplete := by
  intro k s rest hk hb hc hh hi
  refine ⟨Config.drawBit (s.draws + 3), ?_⟩
  have h := runOps_paintStep_ok (k := runAbort) (rest := []) hk hb hc hh hi
  have hwave : traceWave s.cfg (.xfer s.dc.level [paintOp s.cfg k] :: payloadTrace (paintData s k) ++ [.delay (paintDelay k)])
      = transferMoves s.cfg.spiMode s.cfg.csPulsed [paintOp s.cfg k]
        ++ transferMoves s.cfg.spiMode s.cfg.csPulsed (paintData s k) := by
    simp [payloadTrace, traceWave, eventWave]
  rw [List.append_nil] at h
  rw [exec_paintInstr]
  refine h.trans ?_
  rw [runOps_nil, afterPaintStep, hwave]
  rfl

/-- Settles O36: the step's own run to its end, `runOps_paint1_ok`, with nothing after it. -/
theorem powerOnStepCompletes : Obligations.PowerOnStepCompletes := by
  intro s rest hb hh hi
  refine ⟨Config.drawBit (s.draws + 1), ?_⟩
  have h := runOps_paint1_ok (k := runAbort) (rest := []) (s := s) (ins := rest) hb hh hi
  rw [List.append_nil] at h
  exact h

/-- A byte that has been written is read as it is: no draw is used. -/
theorem bytesOrDraw_getElem?_of_written {m : Memory} {a n : Nat} {b : Byte} (d len : Nat) (hn : n < len)
    (hb : memRead m (a + n) = some b) : (bytesOrDraw m d a len)[n]? = some b := by
  simp [bytesOrDraw, byteOrDraw, hn, hb]

/-- Settles O37: the payload of PAINT[0] is FRAMEMEM's bytes, each drawn only where nothing has written it. -/
theorem frameDataAreFramemem : Obligations.FrameDataAreFramemem :=
  fun s => ⟨bytesOrDraw_length s.mem _ _ _, fun _ _ hn hb => bytesOrDraw_getElem?_of_written _ _ hn hb⟩

end Sys2Proof.Machine
end

section
/-! O41, O42 and O48: the axis map, bilinear resampling, and what of the source it reads (spec/40_fit_resample.md R122 to R125,
spec/20_memory.md R66, spec/30_encoding.md R93). -/

namespace Sys2Proof.Machine

open Sys2Proof.Laws.Pipeline

/-! ### The axis map -/

section

variable {i len fitted : Nat}

/-- Left of the first sample's centre the first sample alone counts. -/
theorem axis_of_nonpos (hn : axisNumerator i len fitted ≤ 0) : (axis i len fitted).lo = 0 ∧ (axis i len fitted).whi = 0 :=
  ⟨if_pos hn, if_pos hn⟩

/-- Right of the last sample's centre the last sample alone counts. -/
theorem axis_of_beyond (hn : 0 < axisNumerator i len fitted)
    (hend : ((len : Int) - 1) * (2 * fitted) ≤ axisNumerator i len fitted) :
    (axis i len fitted).lo = len - 1 ∧ (axis i len fitted).whi = 0 := by
  simp only [axis, if_neg (not_le.2 hn), Nat.cast_mul, Nat.cast_ofNat, if_pos hend, and_self]

/-- Between the two the coordinate is the quotient and the weight the remainder. -/
theorem axis_between (hn : 0 < axisNumerator i len fitted)
    (hend : axisNumerator i len fitted < ((len : Int) - 1) * (2 * fitted)) :
    (axis i len fitted).lo = (axisNumerator i len fitted / (2 * fitted)).toNat
      ∧ (axis i len fitted).whi = (axisNumerator i len fitted % (2 * fitted)).toNat := by
  simp only [axis, if_neg (not_le.2 hn), Nat.cast_mul, Nat.cast_ofNat, if_neg (not_le.2 hend), and_self]

/-- Between the two ends the map stands for the coordinate exactly, its weight below the denominator and its coordinate below the
last. -/
theorem axis_between_exact (hf : 0 < fitted) (hn : 0 < axisNumerator i len fitted)
    (hend : axisNumerator i len fitted < ((len : Int) - 1) * (2 * fitted)) :
    ((axis i len fitted).lo : Int) * (2 * fitted) + (axis i len fitted).whi = axisNumerator i len fitted
      ∧ (axis i len fitted).whi < 2 * fitted ∧ (axis i len fitted).lo ≤ len - 1 := by
  obtain ⟨hlo, hwhi⟩ := axis_between hn hend
  have hden : (0 : Int) < 2 * fitted := by omega
  have hquot := Int.ediv_nonneg hn.le hden.le
  have hrem := Int.emod_nonneg (axisNumerator i len fitted) hden.ne'
  have hremlt := Int.emod_lt_of_pos (axisNumerator i len fitted) hden
  have hquotlt := Int.ediv_lt_of_lt_mul hden hend
  rw [hlo, hwhi, Int.toNat_of_nonneg hquot, Int.toNat_of_nonneg hrem]
  exact ⟨Int.ediv_mul_add_emod _ _, by omega, by omega⟩

theorem axis_whi_lt (hf : 0 < fitted) : (axis i len fitted).whi < 2 * fitted := by
  rcases le_or_gt (axisNumerator i len fitted) 0 with hn | hn
  · rw [(axis_of_nonpos hn).2]
    omega
  · rcases le_or_gt (((len : Int) - 1) * (2 * fitted)) (axisNumerator i len fitted) with hend | hend
    · rw [(axis_of_beyond hn hend).2]
      omega
    · exact (axis_between_exact hf hn hend).2.1

theorem axis_lo_le (hf : 0 < fitted) : (axis i len fitted).lo ≤ len - 1 := by
  rcases le_or_gt (axisNumerator i len fitted) 0 with hn | hn
  · rw [(axis_of_nonpos hn).1]
    exact Nat.zero_le _
  · rcases le_or_gt (((len : Int) - 1) * (2 * fitted)) (axisNumerator i len fitted) with hend | hend
    · rw [(axis_of_beyond hn hend).1]
    · exact (axis_between_exact hf hn hend).2.2

theorem axis_hi_le : (axis i len fitted).hi ≤ len - 1 := Nat.min_le_right _ _

theorem axis_wlo_add_whi (hf : 0 < fitted) : (axis i len fitted).wlo + (axis i len fitted).whi = 2 * fitted :=
  Nat.sub_add_cancel (axis_whi_lt hf).le

/-- Settles O41: the ends clamp (`axis_of_nonpos`, `axis_of_beyond`), and between them quotient and remainder are exact. -/
theorem axisMapIsExact : Obligations.AxisMapIsExact := by
  intro i S F hi _
  have hf : 0 < F := Nat.zero_lt_of_lt hi
  exact ⟨rfl, axis_wlo_add_whi hf, axis_whi_lt hf, axis_lo_le hf, rfl, axis_of_nonpos, axis_of_beyond,
    fun hn hend => (axis_between_exact hf hn hend).1⟩

/-- An axis fitted at its own size maps every position to itself, whole. -/
theorem axis_self (hi : i < fitted) : (axis i fitted fitted).lo = i ∧ (axis i fitted fitted).whi = 0 := by
  have hf : 0 < fitted := Nat.zero_lt_of_lt hi
  have hden : (0 : Int) < 2 * fitted := by omega
  have hnum : axisNumerator i fitted fitted = i * (2 * fitted) := by
    rw [axisNumerator]
    ring
  rcases Nat.eq_zero_or_pos i with rfl | hpos
  · exact axis_of_nonpos (by rw [hnum]; simp)
  · have hn : 0 < axisNumerator i fitted fitted := by
      rw [hnum]
      exact mul_pos (by omega) hden
    rcases le_or_gt (((fitted : Int) - 1) * (2 * fitted)) (axisNumerator i fitted fitted) with hend | hend
    · have hlast : (fitted : Int) - 1 ≤ i := by
        rw [hnum] at hend
        exact le_of_mul_le_mul_right hend hden
      obtain ⟨hlo, hwhi⟩ := axis_of_beyond hn hend
      exact ⟨by omega, hwhi⟩
    · obtain ⟨hlo, hwhi⟩ := axis_between hn hend
      rw [hnum, Int.mul_ediv_cancel _ hden.ne'] at hlo
      rw [hnum, Int.mul_emod_left] at hwhi
      exact ⟨hlo, hwhi⟩

end

/-! ### Blending -/

/-- Four weighted samples are at most 255 times the product of the two denominators. -/
theorem weightedSum_le {ax ay : AxisMap} (sample : Nat → Nat → Byte) {dx dy : Nat} (hx : ax.wlo + ax.whi = dx)
    (hy : ay.wlo + ay.whi = dy) : weightedSum ax ay sample ≤ 255 * (dx * dy) := by
  have hbyte (w : Nat) (b : Byte) : w * b.toNat ≤ w * 255 := Nat.mul_le_mul_left w (by omega)
  calc weightedSum ax ay sample
      ≤ ax.wlo * ay.wlo * 255 + ax.whi * ay.wlo * 255 + ax.wlo * ay.whi * 255 + ax.whi * ay.whi * 255 :=
        Nat.add_le_add (Nat.add_le_add (Nat.add_le_add (hbyte _ _) (hbyte _ _)) (hbyte _ _)) (hbyte _ _)
    _ = 255 * ((ax.wlo + ax.whi) * (ay.wlo + ay.whi)) := by ring
    _ = 255 * (dx * dy) := by rw [hx, hy]

/-- A quotient rounded half up of at most 255 wholes is at most 255. -/
theorem roundHalfUp_lt {sum den : Nat} (hden : 0 < den) (hsum : sum ≤ 255 * den) : (2 * sum + den) / (2 * den) < 256 :=
  (Nat.div_lt_iff_lt_mul (by omega)).2 (by omega)

/-- A blended channel is the weighted sum rounded half up: nothing is cut off by its 8 bits (R123). -/
theorem blendChannel_toNat {ax ay : AxisMap} (sample : Nat → Nat → Byte) (hx : ax.wlo + ax.whi = ax.den)
    (hy : ay.wlo + ay.whi = ay.den) (hden : 0 < ax.den * ay.den) :
    (blendChannel ax ay (sample ax.lo ay.lo) (sample ax.hi ay.lo) (sample ax.lo ay.hi) (sample ax.hi ay.hi)).toNat
      = (2 * weightedSum ax ay sample + ax.den * ay.den) / (2 * (ax.den * ay.den)) := by
  have hlt := roundHalfUp_lt hden (weightedSum_le sample hx hy)
  rw [weightedSum] at hlt ⊢
  rw [blendChannel, BitVec.toNat_ofNat]
  exact Nat.mod_eq_of_lt hlt

/-- With both weights on the lower coordinates a blend is that sample. -/
theorem blendChannel_of_whole {ax ay : AxisMap} (p00 p10 p01 p11 : Byte) (hx : ax.wlo + ax.whi = ax.den)
    (hy : ay.wlo + ay.whi = ay.den) (hden : 0 < ax.den * ay.den) (hax : ax.whi = 0) (hay : ay.whi = 0) :
    blendChannel ax ay p00 p10 p01 p11 = p00 := by
  have hxlo : ax.wlo = ax.den := by omega
  have hylo : ay.wlo = ay.den := by omega
  have hround : (2 * (ax.den * ay.den * p00.toNat) + ax.den * ay.den) / (2 * (ax.den * ay.den)) = p00.toNat := by
    have hsum : 2 * (ax.den * ay.den * p00.toNat) + ax.den * ay.den
        = ax.den * ay.den + 2 * (ax.den * ay.den) * p00.toNat := by ring
    rw [hsum, Nat.add_mul_div_left _ _ (by omega), Nat.div_eq_of_lt (by omega), Nat.zero_add]
  apply BitVec.eq_of_toNat_eq
  simp only [blendChannel, hax, hay, hxlo, hylo, Nat.zero_mul, Nat.mul_zero, Nat.add_zero, hround, BitVec.toNat_ofNat,
    Nat.mod_eq_of_lt p00.isLt]

/-! ### Resampling -/

/-- Canvas pixel (x, y) after resampling. -/
theorem resampleCanvas_pixel (src : Nat → Nat → Rgb) (w h : Nat) (r : Region) {ct : Array Rgb} {x y : Nat} {old : Rgb}
    (hx : x < 800) (hold : ct[800 * y + x]? = some old) :
    (resampleCanvas src w h r ct)[800 * y + x]?
      = some (if inRegion r x y then resamplePixel src w h r (x - r.x0) (y - r.y0) else old) := by
  have hcol : (800 * y + x) % 800 = x := by omega
  have hrow : (800 * y + x) / 800 = y := by omega
  rw [resampleCanvas_getElem, hold, hcol, hrow, Option.map_some]

/-- Each channel of a resampled pixel is a blend of that channel. -/
theorem resamplePixel_channel {channel : Rgb → Byte} (hc : channel ∈ [Rgb.r, Rgb.g, Rgb.b]) (src : Nat → Nat → Rgb) (w h : Nat)
    (r : Region) (i j : Nat) :
    let ax := axis i w r.fw
    let ay := axis j h r.fh
    channel (resamplePixel src w h r i j) = blendChannel ax ay (channel (src ax.lo ay.lo)) (channel (src ax.hi ay.lo))
      (channel (src ax.lo ay.hi)) (channel (src ax.hi ay.hi)) := by
  simp only [List.mem_cons, List.not_mem_nil, or_false] at hc
  rcases hc with rfl | rfl | rfl <;> rfl

/-- A source fitted at its own size is copied. -/
theorem resamplePixel_self (src : Nat → Nat → Rgb) {r : Region} {i j : Nat} (hi : i < r.fw) (hj : j < r.fh) :
    resamplePixel src r.fw r.fh r i j = src i j := by
  have hfw : 0 < r.fw := Nat.zero_lt_of_lt hi
  have hfh : 0 < r.fh := Nat.zero_lt_of_lt hj
  have hden : 0 < (2 * r.fw) * (2 * r.fh) := by positivity
  obtain ⟨hxlo, hxwhi⟩ := axis_self hi
  obtain ⟨hylo, hywhi⟩ := axis_self hj
  simp only [resamplePixel, blendChannel_of_whole _ _ _ _ (axis_wlo_add_whi hfw) (axis_wlo_add_whi hfh) hden hxwhi hywhi, hxlo,
    hylo]

/-- Settles O42: `blendChannel_toNat` for a pixel of the region, and `resamplePixel_self` for a source of the canvas' size. -/
theorem fullSizeSourceIsCopied : Obligations.FullSizeSourceIsCopied := by
  refine ⟨fun cfg p => Array.getElem?_replicate, fun src w h r ct x y old _ _ hx hold => ?_, fun src ct x y hsize hx hy => ?_⟩
  · refine ⟨_, resampleCanvas_pixel src w h r hx hold, fun hout => ?_, fun hin channel hc => ?_⟩
    · rw [hout]
      rfl
    · obtain ⟨hx0, hx1, hy0, hy1⟩ := (inRegion_iff _ _ _).1 hin
      have hfw : 0 < r.fw := by omega
      have hfh : 0 < r.fh := by omega
      have hden : 0 < (2 * r.fw) * (2 * r.fh) := by positivity
      rw [if_pos hin, resamplePixel_channel hc]
      exact ⟨blendChannel_toNat (fun a b => channel (src a b)) (axis_wlo_add_whi hfw) (axis_wlo_add_whi hfh) hden,
        weightedSum_le _ (axis_wlo_add_whi hfw) (axis_wlo_add_whi hfh)⟩
  · have hregion : fitRegion 800 480 = ⟨0, 0, 800, 480⟩ := rfl
    have hin : inRegion ⟨0, 0, 800, 480⟩ x y = true := (inRegion_iff _ _ _).2 (by simp [hx, hy])
    have hpixel : 800 * y + x < ct.size := by omega
    rw [hregion, resampleCanvas_pixel src 800 480 _ hx (Array.getElem?_eq_getElem hpixel), if_pos hin]
    exact congrArg some (resamplePixel_self src (r := ⟨0, 0, 800, 480⟩) hx hy)

/-! ### What resampling reads of the source -/

/-- Resampling reads only pixels of the source image. -/
theorem resampleCanvas_congr {src src' : Nat → Nat → Rgb} {w h : Nat} (hw : 1 ≤ w) (hh : 1 ≤ h)
    (hsrc : ∀ x y, x < w → y < h → src x y = src' x y) (r : Region) (ct : Array Rgb) :
    resampleCanvas src w h r ct = resampleCanvas src' w h r ct := by
  apply Array.ext_getElem?
  intro p
  rw [resampleCanvas_getElem, resampleCanvas_getElem]
  congr 1
  funext old
  split
  next hin =>
    obtain ⟨hx0, hx1, hy0, hy1⟩ := (inRegion_iff _ _ _).1 hin
    have hxlo := axis_lo_le (i := p % 800 - r.x0) (len := w) (fitted := r.fw) (by omega)
    have hxhi := axis_hi_le (i := p % 800 - r.x0) (len := w) (fitted := r.fw)
    have hylo := axis_lo_le (i := p / 800 - r.y0) (len := h) (fitted := r.fh) (by omega)
    have hyhi := axis_hi_le (i := p / 800 - r.y0) (len := h) (fitted := r.fh)
    rw [resamplePixel, resamplePixel, hsrc _ _ (by omega) (by omega), hsrc _ _ (by omega) (by omega),
      hsrc _ _ (by omega) (by omega), hsrc _ _ (by omega) (by omega)]
  next => rfl

/-- The raster index of a pixel of the source is below its number of pixels. -/
theorem raster_lt {x y w h : Nat} (hx : x < w) (hy : y < h) : y * w + x < w * h := by
  calc y * w + x < y * w + w := by omega
    _ = (y + 1) * w := by ring
    _ ≤ h * w := Nat.mul_le_mul_right w hy
    _ = w * h := Nat.mul_comm h w

/-- The samples are bits 23:0 of the word. -/
theorem pixelRgb_congr {v w : Word} (h : v.extractLsb' 0 24 = w.extractLsb' 0 24) : pixelRgb v = pixelRgb w := by
  have hsamples (u : Word) : pixelRgb u = ⟨(u.extractLsb' 0 24).extractLsb' 0 8, (u.extractLsb' 0 24).extractLsb' 8 8,
      (u.extractLsb' 0 24).extractLsb' 16 8⟩ := by
    rw [pixelRgb]
    congr 1 <;> ext k hk <;> simp
  rw [hsamples, hsamples, h]

/-- Words that agree in bits 23:0 wherever they are stored stand for the same pixel. -/
theorem pixelRgb_getD_congr {v w : Option Word}
    (h : v.map (fun u => u.extractLsb' 0 24) = w.map (fun u => u.extractLsb' 0 24)) : pixelRgb (v.getD 0) = pixelRgb (w.getD 0) := by
  cases v with
  | none =>
    cases w with
    | none => rfl
    | some w => cases h
  | some v =>
    cases w with
    | none => cases h
    | some w => exact pixelRgb_congr (Option.some.inj h)

/-- Two states that agree in palette, SRC_DIM and every pixel of the source are prepared to the same frame. -/
theorem preparedFrame_congr {s t : State} (hp : s.cfg.palette = t.cfg.palette) (hd : s.srcDim = t.srcDim) (hw : 1 ≤ srcW s)
    (hh : 1 ≤ srcH s) (hsrc : ∀ x y, x < srcW s → y < srcH s → sourcePixel s.mem (srcW s) x y = sourcePixel t.mem (srcW s) x y) :
    preparedFrame s = preparedFrame t := by
  have hwt : srcW t = srcW s := by rw [srcW, srcW, hd]
  have hht : srcH t = srcH s := by rw [srcH, srcH, hd]
  have hbg : backgroundCanvas s.cfg = backgroundCanvas t.cfg := by rw [backgroundCanvas, backgroundCanvas, hp]
  rw [preparedFrame, preparedFrame, preparedBuffers, preparedBuffers, preparedCanvas, preparedCanvas, hwt, hht, hp, hbg,
    resampleCanvas_congr hw hh hsrc]

/-- Settles O48: a pixel is bits 23:0 of its word, and the frame reads the pixels of the source alone. -/
theorem frameIgnoresAlpha : Obligations.FrameIgnoresAlpha := by
  refine ⟨fun s x y w hword => ?_, fun s t hp hd hw hh hwords => ?_⟩
  · have hword' : memReadWord s.mem (srcAddr (y * srcW s + x)) = some w := hword
    rw [sourcePixel, hword', Option.getD_some, pixelRgb]
  · exact preparedFrame_congr hp hd hw hh fun x y hx hy => pixelRgb_getD_congr (hwords _ (raster_lt hx hy))

end Sys2Proof.Machine
end

section
/-! O45 and O47: the dither pass visit by visit, and what it leaves outside the region (spec/41_dither.md R151 to R156,
spec/42_pack.md R173). -/

namespace Sys2Proof.Machine

open Sys2Proof.Laws.Pipeline

variable {palette : Vector Rgb 7} {r : Region} {ct : Array Rgb} {b : DitherBuffers} {i j p q n : Nat}

/-! ### Outside the region -/

/-- The visit of a region pixel writes the index of no pixel outside the region. -/
theorem rasterPos_ne_of_outside {x y : Nat} (hw : r.x0 + r.fw ≤ 800) (hi : i < r.fw) (hj : j < r.fh) (hx : x < 800)
    (hout : inRegion r x y = false) : rasterPos (r.x0 + i) (r.y0 + j) ≠ 800 * y + x := by
  intro heq
  rw [rasterPos, canvasW] at heq
  have hin : inRegion r x y = true := (inRegion_iff _ _ _).2 (by omega)
  rw [hin] at hout
  cases hout

/-- A canvas pixel outside the region keeps index 1 (R151). -/
theorem ditherPass_idx_outside (hw : r.x0 + r.fw ≤ 800) {x y : Nat} (hx : x < 800) (hy : y < 480)
    (hout : inRegion r x y = false) : (ditherPass palette r ct).idx[800 * y + x]? = some 1 := by
  refine ditherPass_induction (P := fun b => b.idx[800 * y + x]? = some 1) ?_ fun b i j hi hj hb => ?_
  · rw [ditherStart, Array.getElem?_replicate, if_pos (by rw [pixels]; omega)]
  · rw [quantizePixel_idx_of_ne _ _ _ _ _ _ _ (rasterPos_ne_of_outside hw hi hj hx hout)]
    exact hb

/-- Settles O47: both pixels of such a byte have index 1 (`ditherPass_idx_outside`), and an empty region has no pixel. -/
theorem marginBytesAreWhite : Obligations.MarginBytesAreWhite := by
  intro palette r ct hw _
  have hwhite : packPair 1 1 = 0x11 := by decide
  refine ⟨fun n hn heven hodd => ?_, fun hempty => ?_⟩
  · have h0 := ditherPass_idx_outside (palette := palette) (ct := ct) hw (by omega) (by omega) heven
    have h1 := ditherPass_idx_outside (palette := palette) (ct := ct) hw (by omega) (by omega) hodd
    rw [show 800 * (2 * n / 800) + 2 * n % 800 = 2 * n by omega] at h0
    rw [show 800 * (2 * n / 800) + (2 * n % 800 + 1) = 2 * n + 1 by omega] at h1
    rw [packFrame_getElem _ n hn, packedByte_eq_packPair, getD_of_getElem? h0, getD_of_getElem? h1, hwhite]
  · rw [← hwhite]
    refine packFrame_of_constant fun x y hx hy => ditherPass_idx_outside hw hx hy ?_
    rw [← Bool.not_eq_true, inRegion_iff]
    omega

/-! ### Where a visit's error goes -/

/-- A raster index names one row and one column. -/
theorem raster_inj {w : Nat} (hi : i < w) (hp : p < w) (h : j * w + i = q * w + p) : j = q ∧ i = p := by
  have hrow : ∀ a c, c < w → (a * w + c) / w = a := fun a c hc => by
    rw [Nat.mul_comm, Nat.mul_add_div (Nat.zero_lt_of_lt hc), Nat.div_eq_of_lt hc, Nat.add_zero]
  have hjq : j = q := by rw [← hrow j i hi, h, hrow q p hp]
  subst hjq
  exact ⟨rfl, by omega⟩

/-- A share reaches the accumulator it is for. -/
theorem diffuse_at (hp : p < r.fw) (hq : q < r.fh) (u v weight : Int) (d : Diff) (err : Array ErrTriple) :
    (diffuse r u v weight d err)[q * r.fw + p]?
      = if u = p ∧ v = q then err[q * r.fw + p]?.map (addShare weight d) else err[q * r.fw + p]? := by
  rw [diffuse_getElem]
  refine if_congr ⟨?_, ?_⟩ rfl rfl
  · rintro ⟨⟨hu, hufw, hv, -⟩, hpos⟩
    obtain ⟨hrow, hcol⟩ := raster_inj (by omega) hp hpos
    omega
  · rintro ⟨rfl, rfl⟩
    exact ⟨by omega, rfl⟩

theorem addShare_weight_zero (d : Diff) (e : ErrTriple) : addShare 0 d e = e := by
  simp [addShare]

/-- A visit adds to each accumulator the share its place gives it (R156). -/
theorem diffuseAll_at (hp : p < r.fw) (hq : q < r.fh) (i j : Nat) (d : Diff) (err : Array ErrTriple) :
    (diffuseAll r i j d err)[q * r.fw + p]? = err[q * r.fw + p]?.map (addShare (shareWeight i j p q) d) := by
  have hright : ((i : Int) + 1 = p ∧ (j : Int) = q) ↔ (q = j ∧ p = i + 1) := by omega
  have hbelowLeft : ((i : Int) - 1 = p ∧ (j : Int) + 1 = q) ↔ (q = j + 1 ∧ p + 1 = i) := by omega
  have hbelow : ((i : Int) = p ∧ (j : Int) + 1 = q) ↔ (q = j + 1 ∧ p = i) := by omega
  have hbelowRight : ((i : Int) + 1 = p ∧ (j : Int) + 1 = q) ↔ (q = j + 1 ∧ p = i + 1) := by omega
  simp only [diffuseAll, diffuse_at hp hq, hright, hbelowLeft, hbelow, hbelowRight, shareWeight]
  by_cases h7 : q = j ∧ p = i + 1
  · rw [if_neg (by omega), if_neg (by omega), if_neg (by omega), if_pos h7, if_pos h7]
  · by_cases h3 : q = j + 1 ∧ p + 1 = i
    · rw [if_neg (by omega), if_neg (by omega), if_pos h3, if_neg h7, if_neg h7, if_pos h3]
    · by_cases h5 : q = j + 1 ∧ p = i
      · rw [if_neg (by omega), if_pos h5, if_neg h3, if_neg h7, if_neg h7, if_neg h3, if_pos h5]
      · by_cases h1 : q = j + 1 ∧ p = i + 1
        · rw [if_pos h1, if_neg h5, if_neg h3, if_neg h7, if_neg h7, if_neg h3, if_neg h5, if_pos h1]
        · rw [if_neg h1, if_neg h5, if_neg h3, if_neg h7, if_neg h7, if_neg h3, if_neg h5, if_neg h1,
            funext (addShare_weight_zero d), Option.map_id']

/-! ### How much error an accumulator can get -/

/-- The weight with which the first `n` visits have added to the accumulator at (p, q). -/
def weightSoFar (w : Nat) (n p q : Nat) : Int := ∑ v ∈ Finset.range n, shareWeight (v % w) (v / w) p q

theorem weightSoFar_succ (w n p q : Nat) :
    weightSoFar w (n + 1) p q = weightSoFar w n p q + shareWeight (n % w) (n / w) p q := Finset.sum_range_succ _ n

/-- A weight that at most one visit has counts at most once. -/
theorem sum_ite_le_of_unique {P : Nat → Prop} [DecidablePred P] (hP : ∀ u v, P u → P v → u = v) (c n : Nat) :
    ∑ v ∈ Finset.range n, (if P v then (c : Int) else 0) ≤ c := by
  have hcard : ((Finset.range n).filter P).card ≤ 1 :=
    Finset.card_le_one.2 fun u hu v hv => hP u v (Finset.mem_filter.1 hu).2 (Finset.mem_filter.1 hv).2
  have hcard' : (((Finset.range n).filter P).card : Int) ≤ 1 := by exact_mod_cast hcard
  rw [← Finset.sum_filter, Finset.sum_const, nsmul_eq_mul]
  exact (mul_le_mul_of_nonneg_right hcard' (Int.natCast_nonneg c)).trans_eq (one_mul _)

/-- The four shares go to four different places. -/
theorem shareWeight_eq_add (i j p q : Nat) : shareWeight i j p q = (if q = j ∧ p = i + 1 then ((7 : Nat) : Int) else 0)
    + (if q = j + 1 ∧ p + 1 = i then ((3 : Nat) : Int) else 0) + (if q = j + 1 ∧ p = i then ((5 : Nat) : Int) else 0)
    + (if q = j + 1 ∧ p = i + 1 then ((1 : Nat) : Int) else 0) := by
  unfold shareWeight
  split_ifs <;> omega

theorem shareWeight_nonneg (i j p q : Nat) : 0 ≤ shareWeight i j p q := by
  unfold shareWeight
  split_ifs <;> decide

/-- An accumulator gets at most 7, 3, 5 and 1, each once, however far the pass has come: a visit's place names the visit. -/
theorem weightSoFar_le (w n p q : Nat) : weightSoFar w n p q ≤ 16 := by
  have hvisit (u v : Nat) (hcol : u % w = v % w) (hrow : u / w = v / w) : u = v := by
    rw [← Nat.div_add_mod u w, ← Nat.div_add_mod v w, hcol, hrow]
  have hright := sum_ite_le_of_unique (P := fun v => q = v / w ∧ p = v % w + 1)
    (fun u v hu hv => hvisit u v (by omega) (by omega)) 7 n
  have hbelowLeft := sum_ite_le_of_unique (P := fun v => q = v / w + 1 ∧ p + 1 = v % w)
    (fun u v hu hv => hvisit u v (by omega) (by omega)) 3 n
  have hbelow := sum_ite_le_of_unique (P := fun v => q = v / w + 1 ∧ p = v % w)
    (fun u v hu hv => hvisit u v (by omega) (by omega)) 5 n
  have hbelowRight := sum_ite_le_of_unique (P := fun v => q = v / w + 1 ∧ p = v % w + 1)
    (fun u v hu hv => hvisit u v (by omega) (by omega)) 1 n
  simp only [weightSoFar, shareWeight_eq_add, Finset.sum_add_distrib]
  omega

/-! ### Accumulators -/

/-- Each channel of an accumulator is within `bound` of zero. -/
structure ErrTriple.Within (bound : Int) (e : ErrTriple) : Prop where
  r : -bound ≤ e.r.toInt ∧ e.r.toInt ≤ bound
  g : -bound ≤ e.g.toInt ∧ e.g.toInt ≤ bound
  b : -bound ≤ e.b.toInt ∧ e.b.toInt ≤ bound

/-- Each channel of an error is within 255 of zero. -/
structure Diff.IsByteDiff (d : Diff) : Prop where
  r : -255 ≤ d.r ∧ d.r ≤ 255
  g : -255 ≤ d.g ∧ d.g ≤ 255
  b : -255 ≤ d.b ∧ d.b ≤ 255

theorem channelDiff_bounds (v q : Byte) : -255 ≤ channelDiff v q ∧ channelDiff v q ≤ 255 := by
  have hv := v.isLt
  have hq := q.isLt
  rw [channelDiff]
  omega

theorem quantError_isByteDiff (v q : Rgb) : (quantError v q).IsByteDiff :=
  ⟨channelDiff_bounds _ _, channelDiff_bounds _ _, channelDiff_bounds _ _⟩

/-- `new` is `old` with exactly `weight` times the error `d` added in each channel. -/
structure SharesExactly (weight : Int) (d : Diff) (old new : ErrTriple) : Prop where
  r : new.r.toInt = old.r.toInt + weight * d.r
  g : new.g.toInt = old.g.toInt + weight * d.g
  b : new.b.toInt = old.b.toInt + weight * d.b

/-- A weighted difference of bytes stays within 255 times the weight. -/
theorem weighted_bounds {weight x : Int} (hw : 0 ≤ weight) (hx : -255 ≤ x ∧ x ≤ 255) :
    -(255 * weight) ≤ weight * x ∧ weight * x ≤ 255 * weight := by
  constructor <;> nlinarith

/-- 13 bits hold what a channel is after a share, as long as the weights so far are at most 16. -/
theorem toInt_ofInt_share {bound weight x : Int} {e : BitVec 13} (he : -bound ≤ e.toInt ∧ e.toInt ≤ bound)
    (hw : 0 ≤ weight) (hx : -255 ≤ x ∧ x ≤ 255) (hb : bound + 255 * weight ≤ 4080) :
    (BitVec.ofInt 13 (e.toInt + weight * x)).toInt = e.toInt + weight * x := by
  obtain ⟨hlo, hhi⟩ := weighted_bounds hw hx
  exact BitVec.toInt_ofInt_eq_self (by decide) (by norm_num; omega) (by norm_num; omega)

theorem addShare_exact {bound weight : Int} {d : Diff} {e : ErrTriple} (he : e.Within bound) (hd : d.IsByteDiff)
    (hw : 0 ≤ weight) (hb : bound + 255 * weight ≤ 4080) : SharesExactly weight d e (addShare weight d e) :=
  ⟨toInt_ofInt_share he.r hw hd.r hb, toInt_ofInt_share he.g hw hd.g hb, toInt_ofInt_share he.b hw hd.b hb⟩

theorem SharesExactly.within {bound weight : Int} {d : Diff} {old new : ErrTriple} (h : SharesExactly weight d old new)
    (hold : old.Within bound) (hd : d.IsByteDiff) (hw : 0 ≤ weight) : new.Within (bound + 255 * weight) := by
  have hchannel {x y z : Int} (hz : z = x + weight * y) (hx : -bound ≤ x ∧ x ≤ bound) (hy : -255 ≤ y ∧ y ≤ 255) :
      -(bound + 255 * weight) ≤ z ∧ z ≤ bound + 255 * weight := by
    have := weighted_bounds hw hy
    omega
  exact ⟨hchannel h.r hold.r hd.r, hchannel h.g hold.g hd.g, hchannel h.b hold.b hd.b⟩

/-- After `n` visits each accumulator is within 255 times the weight it has got. -/
def errBounded (r : Region) (n : Nat) (err : Array ErrTriple) : Prop :=
  ∀ p q, p < r.fw → q < r.fh → ∃ e, err[q * r.fw + p]? = some e ∧ e.Within (255 * weightSoFar r.fw n p q)

/-- One more visit adds its shares exactly: 13 bits never overflow. -/
theorem errBounded.visit {d : Diff} {err : Array ErrTriple} (h : errBounded r n err) (hd : d.IsByteDiff) (hp : p < r.fw)
    (hq : q < r.fh) : ∃ old new, err[q * r.fw + p]? = some old
      ∧ (diffuseAll r (n % r.fw) (n / r.fw) d err)[q * r.fw + p]? = some new
      ∧ SharesExactly (shareWeight (n % r.fw) (n / r.fw) p q) d old new
      ∧ new.Within (255 * weightSoFar r.fw (n + 1) p q) := by
  obtain ⟨old, hold, hwithin⟩ := h p q hp hq
  have hweight := shareWeight_nonneg (n % r.fw) (n / r.fw) p q
  have hsum := weightSoFar_succ r.fw n p q
  have hle := weightSoFar_le r.fw (n + 1) p q
  have hexact := addShare_exact hwithin hd hweight (by omega)
  refine ⟨old, _, hold, by rw [diffuseAll_at hp hq, hold]; rfl, hexact, ?_⟩
  rw [hsum, mul_add]
  exact hexact.within hwithin hd hweight

theorem ditherPrefix_errBounded (palette : Vector Rgb 7) (r : Region) (ct : Array Rgb) (n : Nat) :
    errBounded r n (ditherPrefix palette r ct n).err := by
  induction n with
  | zero =>
    intro p q hp hq
    have hpos : q * r.fw + p < r.fw * r.fh := raster_lt hp hq
    refine ⟨⟨0, 0, 0⟩, ?_, ?_⟩
    · rw [ditherPrefix_zero, ditherStart, Array.getElem?_replicate, if_pos hpos]
    · rw [weightSoFar, Finset.sum_range_zero]
      exact ⟨by decide, by decide, by decide⟩
  | succ n ih =>
    intro p q hp hq
    obtain ⟨_, new, -, hnew, -, hwithin⟩ := ih.visit (quantError_isByteDiff _ _) hp hq
    rw [ditherPrefix_succ]
    exact ⟨new, hnew, hwithin⟩

/-- Every accumulator of the region is one of a column and a row. -/
theorem exists_raster (hn : n < r.fw * r.fh) : ∃ p q, p < r.fw ∧ q < r.fh ∧ n = q * r.fw + p := by
  obtain ⟨hp, hq⟩ := visit_lt hn
  exact ⟨n % r.fw, n / r.fw, hp, hq, by rw [Nat.mul_comm]; exact (Nat.div_add_mod n r.fw).symm⟩

theorem ErrTriple.Within.mono {bound bound' : Int} {e : ErrTriple} (h : e.Within bound) (hle : bound ≤ bound') :
    e.Within bound' := by
  obtain ⟨hr, hg, hb⟩ := h
  exact ⟨by omega, by omega, by omega⟩

/-- No accumulator ever leaves -4080 to 4080 (R156, spec/10_state.md R39). -/
theorem ditherPrefix_err_within (hn : n ≤ r.fw * r.fh) {e : ErrTriple} (he : e ∈ (ditherPrefix palette r ct n).err.toList) :
    e.Within 4080 := by
  obtain ⟨m, hget⟩ := List.mem_iff_getElem?.1 he
  obtain ⟨hm, -⟩ := List.getElem?_eq_some_iff.1 hget
  rw [Array.length_toList, (ditherPrefix_sizes palette r ct n hn).1] at hm
  rw [Array.getElem?_toList] at hget
  obtain ⟨p, q, hp, hq, rfl⟩ := exists_raster hm
  obtain ⟨e', he', hwithin⟩ := ditherPrefix_errBounded palette r ct n p q hp hq
  obtain rfl : e' = e := Option.some.inj (he'.symm.trans hget)
  have hle := weightSoFar_le r.fw n p q
  exact hwithin.mono (by omega)

/-! ### One visit -/

/-- The working value of a channel is its sum clamped to a byte (R152). -/
theorem workingChannel_toNat (c : Byte) (e : BitVec 13) :
    ((workingChannel c e).toNat : Int) = max 0 (min 255 (c.toNat + Int.tdiv e.toInt 16)) := by
  have hclamp : ∀ x : Int, clamp x 0 255 = max 0 (min 255 x) := fun x => by
    unfold clamp
    split_ifs <;> omega
  rw [workingChannel, hclamp, BitVec.toNat_ofInt]
  omega

theorem visitValue_eq_workingValue {c : Rgb} {acc : ErrTriple} (hc : ct[800 * (r.y0 + j) + (r.x0 + i)]? = some c)
    (hacc : b.err[j * r.fw + i]? = some acc) : visitValue r ct b i j = workingValue c acc := by
  rw [visitValue, rasterPos, canvasW, Array.getD_eq_getD_getElem?, Array.getD_eq_getD_getElem?, hc, hacc, Option.getD_some,
    Option.getD_some]

/-- The index a visit emits is stored at its pixel (R154). -/
theorem quantizePixel_idx_self (palette : Vector Rgb 7) (r : Region) (ct : Array Rgb) (b : DitherBuffers) (i j : Nat)
    (hsize : 800 * (r.y0 + j) + (r.x0 + i) < b.idx.size) :
    (quantizePixel palette r ct b i j).idx[800 * (r.y0 + j) + (r.x0 + i)]?
      = some (BitVec.ofNat 3 (nearest palette (visitValue r ct b i j))) :=
  Array.getElem?_setIfInBounds_self_of_lt hsize

/-- Settles O45: an accumulator gets shares of total weight at most 16 (`weightSoFar_le`) of errors of at most 255. -/
theorem errorNeverOverflows : Obligations.ErrorNeverOverflows := by
  intro palette r ct n hw hh
  refine ⟨fun hn e he channel hchannel => ?_, fun hn => ?_⟩
  · obtain ⟨hr, hg, hb⟩ := ditherPrefix_err_within hn he
    simp only [List.mem_cons, List.not_mem_nil, or_false] at hchannel
    rcases hchannel with rfl | rfl | rfl
    · exact hr
    · exact hg
    · exact hb
  · obtain ⟨hi, hj⟩ := visit_lt hn
    have hidx := (ditherPrefix_sizes palette r ct n hn.le).2
    have hdiff : (visitError palette r ct (ditherPrefix palette r ct n) (n % r.fw) (n / r.fw)).IsByteDiff :=
      quantError_isByteDiff _ _
    refine ⟨fun c acc hc hacc => ?_, ?_, rfl, rfl, rfl, ?_, fun p q hp hq => ?_⟩
    · rw [visitValue_eq_workingValue hc hacc]
      exact ⟨workingChannel_toNat _ _, workingChannel_toNat _ _, workingChannel_toNat _ _⟩
    · rw [ditherPrefix_succ]
      exact quantizePixel_idx_self _ _ _ _ _ _ (by omega)
    · intro d hd
      simp only [List.mem_cons, List.not_mem_nil, or_false] at hd
      rcases hd with rfl | rfl | rfl
      · exact hdiff.r
      · exact hdiff.g
      · exact hdiff.b
    · obtain ⟨old, new, hold, hnew, hexact, -⟩ := (ditherPrefix_errBounded palette r ct n).visit hdiff hp hq
      rw [ditherPrefix_succ]
      exact ⟨old, new, hold, hnew, hexact.r, hexact.g, hexact.b⟩

end Sys2Proof.Machine
end

section
/-! O59: the source image that a command computes from stands as it was when the command was accepted (spec/20_memory.md R74). -/

namespace Sys2Proof.Machine

variable {s t : State} {ins : List Input}

/-- The build parameters, SRC_DIM and every byte below FRAMEMEM, SRCMEM with them, are in `t` what they were in `s`. -/
structure SourceKept (s t : State) : Prop where
  cfg : t.cfg = s.cfg
  srcDim : t.srcDim = s.srcDim
  below : ∀ a, a < 0x800000 → memRead t.mem a = memRead s.mem a

theorem SourceKept.of_eq (hcfg : t.cfg = s.cfg) (hdim : t.srcDim = s.srcDim) (hmem : t.mem = s.mem) : SourceKept s t :=
  ⟨hcfg, hdim, fun _ _ => by rw [hmem]⟩

theorem SourceKept.trans {u : State} (h : SourceKept s t) (g : SourceKept t u) : SourceKept s u :=
  ⟨g.cfg.trans h.cfg, g.srcDim.trans h.srcDim, fun a ha => (g.below a ha).trans (h.below a ha)⟩

theorem SourceKept.of_inputs (h : SourceKept { s with inputs := ins } t) : SourceKept s t := ⟨h.cfg, h.srcDim, h.below⟩

/-- Of the engine's actions only packing writes memory, and it writes FRAMEMEM. -/
theorem effect_sourceKept {op : Op} (he : Effect op s t) (hs : Steady s t) : SourceKept s t := by
  rcases effect_buffers he with ⟨hmem, -⟩ | ⟨-, hmem, -⟩ | ⟨-, hmem, -⟩
  · exact .of_eq hs.cfg hs.srcDim hmem
  · exact .of_eq hs.cfg hs.srcDim hmem
  · refine ⟨hs.cfg, hs.srcDim, fun a ha => ?_⟩
    rw [hmem]
    exact memRead_memWrite_of_not_mem (by rw [frameBase]; omega)

theorem sourceKept_engineKeeps (s : State) : EngineKeeps (SourceKept s) where
  perform _ _ _ h hp := h.trans (effect_sourceKept (effect_of_perform hp) (perform_steady hp))
  finish _ _ h := h.trans (.of_eq rfl rfl rfl)
  raise _ _ h := h.trans (.of_eq rfl rfl rfl)
  todo _ _ h := h.trans (.of_eq rfl rfl rfl)

/-- A command, accepted, dropped or illegal, keeps the source. -/
theorem exec_command_sourceKept (w : Word) (he : exec (decodeCmd w) s = .next t) : SourceKept s t := by
  rcases exec_command_cases w s with ⟨-, hc⟩ | ⟨-, hc⟩ | ⟨-, hc⟩ | ⟨-, hc⟩ <;> rw [hc] at he
  · cases he
    exact .of_eq rfl rfl rfl
  · cases he
    exact .of_eq rfl rfl rfl
  · exact (sourceKept_engineKeeps s).engine _ (acceptOperation s) t (.of_eq rfl rfl rfl) he
  · exact (sourceKept_engineKeeps s).engine _ (startRun (acceptOperation s)) t (.of_eq rfl rfl rfl) he

/-- A step while BUSY: what the host writes is dropped. -/
theorem step_sourceKept_of_busy (hb : s.busy = true) (hr : s.inputs.head? ≠ some .reset) (hstep : step s = .next t) :
    SourceKept s t := by
  rcases step_cases hstep with ⟨-, rfl⟩ | ⟨_, hi, -⟩ | ⟨ins, -, rfl⟩ | ⟨_, _, _, -, rfl⟩ | ⟨a, _, w, ins, -, -, -, rfl⟩ |
    ⟨_, _, w, ins, -, -, -, he⟩ | ⟨_, _, -, -, hres⟩ | ⟨_, _, -, -, rfl⟩
  · exact .of_eq rfl rfl rfl
  · exact absurd (by rw [hi]; rfl) hr
  · exact .of_eq (clockEdge_cfg _) (clockEdge_srcDim _) (clockEdge_mem _)
  · exact .of_eq rfl rfl rfl
  · have hidle (h : s.busy = false) : False := absurd (hb.symm.trans h) (by decide)
    exact writePlace_keeps (P := SourceKept s) w _ (.of_eq rfl rfl rfl) (.of_eq rfl rfl rfl) (fun h => (hidle h).elim)
      (fun h => (hidle h).elim)
  · exact SourceKept.of_inputs (exec_command_sourceKept (s := { s with inputs := ins }) w he)
  · exact (sourceKept_engineKeeps s).engine _ { s with todo := [] } t (.of_eq rfl rfl rfl) hres
  · exact .of_eq rfl rfl rfl

theorem step_sourceKept_of_command {v : Word} (hi : s.inputs = commandWrite v :: ins) (hstep : step s = .next t) :
    SourceKept s t := by
  rw [stepRunsCommand.1 s v ins hi] at hstep
  exact SourceKept.of_inputs (exec_command_sourceKept (s := { s with inputs := ins }) v hstep)

/-! ### The frame of a kept source -/

theorem memReadWord_congr {m m' : Memory} {a : Nat} (h : ∀ j, j < 4 → memRead m (a + j) = memRead m' (a + j)) :
    memReadWord m a = memReadWord m' a := by
  have h0 : memRead m a = memRead m' a := h 0 (by decide)
  rw [memReadWord, memReadWord, h0, h 1 (by decide), h 2 (by decide), h 3 (by decide)]

section

variable (h : SourceKept s t)

include h

theorem SourceKept.srcW_eq : srcW t = srcW s := by rw [srcW, srcW, h.srcDim]

theorem SourceKept.srcH_eq : srcH t = srcH s := by rw [srcH, srcH, h.srcDim]

/-- Every word of SRCMEM lies below FRAMEMEM (spec/20_memory.md R61, R62). -/
theorem SourceKept.memReadWord_eq {k : Nat} (hk : k < s.cfg.srcmemWords.val) :
    memReadWord t.mem (srcAddr k) = memReadWord s.mem (srcAddr k) := by
  have hend := srcmem_end_le_frameBase s.cfg
  rw [srcBase, frameBase] at hend
  exact memReadWord_congr fun j hj => h.below _ (by rw [srcAddr, srcBase]; omega)

theorem SourceKept.sourceReady (hs : sourceReady s) : sourceReady t := by
  obtain ⟨⟨hw, hh, hwords⟩, hwritten⟩ := hs
  refine ⟨⟨by rwa [h.srcW_eq], by rwa [h.srcH_eq], by rwa [h.srcW_eq, h.srcH_eq, h.cfg]⟩, fun k hk => ?_⟩
  rw [h.srcW_eq, h.srcH_eq] at hk
  rw [show 0x100000 + 4 * k = srcAddr k from rfl, h.memReadWord_eq (by omega)]
  exact hwritten k hk

theorem SourceKept.preparedFrame_eq (hs : Machine.sourceReady s) : preparedFrame t = preparedFrame s := by
  obtain ⟨⟨hw, hh, hwords⟩, -⟩ := hs
  refine (preparedFrame_congr (by rw [h.cfg]) h.srcDim.symm hw hh fun x y hx hy => ?_).symm
  have hpixel := raster_lt hx hy
  rw [sourcePixel, sourcePixel, h.memReadWord_eq (by omega)]

end

/-- Settles O59: the source is kept (`SourceKept`) whether the step is one while BUSY or a command, and the frame with it. -/
theorem sourceIsASnapshot : Obligations.SourceIsASnapshot := by
  intro s t hcase hstep
  have h : SourceKept s t := by
    rcases hcase with ⟨hb, hr⟩ | ⟨v, ins, hi⟩
    · exact step_sourceKept_of_busy hb hr hstep
    · exact step_sourceKept_of_command hi hstep
  exact ⟨h.srcDim, h.below, fun hs => ⟨h.sourceReady hs, h.preparedFrame_eq hs⟩⟩

end Sys2Proof.Machine
end

section
/-! O31, O49 and O50: what a transfer puts on the bus pins, whole and when it fails (spec/44_serial_bus.md R203, R204, R210 to
R212). -/

namespace Sys2Proof.Machine

open Sys2Proof.Laws.Wire

/-! ### Sub-transfers -/

theorem subTransfers_flatten (bytes : List Byte) : (subTransfers bytes).flatten = bytes := by
  have hchunks (k : Nat) : ((List.range k).map fun c => (bytes.drop (c * chunkMax)).take chunkMax).flatten
      = bytes.take (k * chunkMax) := by
    induction k with
    | zero => simp
    | succ k ih => simp [List.range_succ, ih, Nat.succ_mul, List.take_add]
  rw [subTransfers, hchunks]
  exact List.take_of_length_le (by rw [chunkMax]; omega)

theorem subTransfers_length (bytes : List Byte) : (subTransfers bytes).length = (bytes.length + 4095) / 4096 := by
  simp [subTransfers, chunkMax]

/-- Sub-transfer `c` is what `c` times 4096 bytes leave, up to 4096. -/
theorem subTransfers_getElem_length (bytes : List Byte) {c : Nat} (hc : c < (subTransfers bytes).length) :
    (subTransfers bytes)[c].length = min 4096 (bytes.length - c * 4096) := by
  simp [subTransfers, chunkMax]

/-- Settles O49: the chunks are consecutive (`subTransfers_flatten`), and each but the last lies within the bytes. -/
theorem subTransfersAreTheTransfer : Obligations.SubTransfersAreTheTransfer := by
  intro bytes
  have hlen := subTransfers_length bytes
  refine ⟨subTransfers_flatten bytes, hlen, fun chunk hchunk => ?_, fun chunk hchunk => ?_⟩
  · obtain ⟨c, hc, rfl⟩ := List.mem_iff_getElem.1 hchunk
    rw [List.length_dropLast] at hc
    rw [List.getElem_dropLast, subTransfers_getElem_length]
    omega
  · obtain ⟨c, hc, rfl⟩ := List.mem_iff_getElem.1 hchunk
    rw [subTransfers_getElem_length]
    omega

/-! ### The order of the changes -/

theorem sclkEdges_cons_mosi (level : Bool) (rest : List PinMove) : sclkEdges (.mosi level :: rest) = sclkEdges rest := by
  simp [sclkEdges, PinMove.sclkLevel]

theorem sclkEdges_cons_csN (level : Bool) (rest : List PinMove) : sclkEdges (.csN level :: rest) = sclkEdges rest := by
  simp [sclkEdges, PinMove.sclkLevel]

theorem sclkEdges_cons_sclk (level : Bool) (rest : List PinMove) : sclkEdges (.sclk level :: rest) = sclkEdges rest + 1 := by
  simp [sclkEdges, PinMove.sclkLevel]

/-- From these levels of CS_N and SCLK on, every change of SCLK is one, under CS_N low, and every change of CS_N comes while SCLK is
idle. -/
def clocked (idle : Bool) : Bool → Bool → List PinMove → Prop
  | _, _, [] => True
  | csN, sclk, .mosi _ :: rest => clocked idle csN sclk rest
  | csN, sclk, .sclk level :: rest => csN = false ∧ level = !sclk ∧ clocked idle csN level rest
  | _, sclk, .csN level :: rest => sclk = idle ∧ clocked idle level sclk rest

theorem clocked_append {idle : Bool} (csN sclk : Bool) (a b : List PinMove) :
    clocked idle csN sclk (a ++ b) ↔ clocked idle csN sclk a
      ∧ clocked idle (levelAfter PinMove.csNLevel csN a) (levelAfter PinMove.sclkLevel sclk a) b := by
  induction a generalizing csN sclk with
  | nil => simp [clocked]
  | cons m rest ih => cases m <;> simp [clocked, ih, PinMove.csNLevel, PinMove.sclkLevel, and_assoc]

/-- CS_N is low at a change of SCLK. -/
theorem clocked.csN_at_sclk {idle csN sclk level : Bool} {before after : List PinMove}
    (h : clocked idle csN sclk (before ++ .sclk level :: after)) : levelAfter PinMove.csNLevel csN before = false :=
  ((clocked_append _ _ _ _).1 h).2.1

/-- SCLK is idle at a change of CS_N. -/
theorem clocked.sclk_at_csN {idle csN sclk level : Bool} {before after : List PinMove}
    (h : clocked idle csN sclk (before ++ .csN level :: after)) : levelAfter PinMove.sclkLevel sclk before = idle :=
  ((clocked_append _ _ _ _).1 h).2.1

/-- SCLK stands where it stood after an even number of changes, and at the other level after an odd one. -/
theorem clocked.sclk_after {idle csN sclk : Bool} {moves : List PinMove} (h : clocked idle csN sclk moves) :
    levelAfter PinMove.sclkLevel sclk moves = (sclk ^^ decide (sclkEdges moves % 2 = 1)) := by
  induction moves generalizing csN sclk with
  | nil => simp
  | cons m rest ih =>
    cases m with
    | mosi level =>
      rw [sclkEdges_cons_mosi]
      exact ih h
    | csN level =>
      rw [sclkEdges_cons_csN]
      exact ih h.2
    | sclk level =>
      obtain ⟨-, rfl, hrest⟩ := h
      rw [levelAfter_cons, sclkEdges_cons_sclk]
      refine (ih hrest).trans ?_
      rcases Nat.mod_two_eq_zero_or_one (sclkEdges rest) with hpar | hpar <;>
        cases sclk <;> simp [hpar, Nat.add_mod]

/-! ### What a receiver samples -/

/-- The level that a change writes to MOSI, if it does. -/
def PinMove.mosiLevel : PinMove → Option Bool
  | .mosi level => some level
  | .sclk _ => none
  | .csN _ => none

theorem sampledBits_append (mode : BitVec 2) (mosi : Bool) (a b : List PinMove) :
    sampledBits mode mosi (a ++ b)
      = sampledBits mode mosi a ++ sampledBits mode (levelAfter PinMove.mosiLevel mosi a) b := by
  induction a generalizing mosi with
  | nil => rfl
  | cons m rest ih =>
    cases m with
    | mosi level => exact ih level
    | csN level => exact ih mosi
    | sclk level =>
      simp only [List.cons_append, sampledBits, levelAfter_cons, PinMove.mosiLevel, Option.getD_none, ih]
      split <;> rfl

/-- Of the changes of SCLK every second one is sampled: twice the bits are the changes, but for a level sampled at one end. -/
theorem clocked.sampledBits_length {mode : BitVec 2} {idle csN sclk : Bool} {moves : List PinMove}
    (h : clocked idle csN sclk moves) (mosi : Bool) :
    2 * (sampledBits mode mosi moves).length + (sclk == (cpol mode == cpha mode)).toNat
      = sclkEdges moves + (levelAfter PinMove.sclkLevel sclk moves == (cpol mode == cpha mode)).toNat := by
  induction moves generalizing csN sclk mosi with
  | nil => simp [sampledBits]
  | cons m rest ih =>
    cases m with
    | mosi level =>
      rw [sclkEdges_cons_mosi]
      exact ih h level
    | csN level =>
      rw [sclkEdges_cons_csN]
      exact ih h.2 mosi
    | sclk level =>
      obtain ⟨-, rfl, hrest⟩ := h
      have hrec := ih hrest mosi
      rw [levelAfter_cons, sclkEdges_cons_sclk, sampledBits]
      change _ = _ + (levelAfter PinMove.sclkLevel (!sclk) rest == _).toNat
      generalize (cpol mode == cpha mode) = sampling at hrec ⊢
      cases sclk <;> cases sampling <;> simp at hrec ⊢ <;> omega

/-! ### Bits, sub-transfers and their gaps -/

/-- From chip select low and SCLK idle these changes clock out these bits, and lead back there. -/
structure Carries (mode : BitVec 2) (moves : List PinMove) (bits : List Bool) : Prop where
  sampled : ∀ mosi, sampledBits mode mosi moves = bits
  clocked : clocked (cpol mode) false (cpol mode) moves
  csN : levelAfter PinMove.csNLevel false moves = false
  sclk : levelAfter PinMove.sclkLevel (cpol mode) moves = cpol mode

theorem Carries.nil (mode : BitVec 2) : Carries mode [] [] := ⟨fun _ => rfl, trivial, rfl, rfl⟩

theorem Carries.append {mode : BitVec 2} {a b : List PinMove} {u v : List Bool} (ha : Carries mode a u) (hb : Carries mode b v) :
    Carries mode (a ++ b) (u ++ v) where
  sampled mosi := by rw [sampledBits_append, ha.sampled, hb.sampled]
  clocked := (clocked_append _ _ _ _).2 ⟨ha.clocked, by rw [ha.csN, ha.sclk]; exact hb.clocked⟩
  csN := by rw [levelAfter_append, ha.csN, hb.csN]
  sclk := by rw [levelAfter_append, ha.sclk, hb.sclk]

/-- One bit, in each clock mode (R210). -/
theorem carries_bitMoves (mode : BitVec 2) (b : Bool) : Carries mode (bitMoves mode b) [b] where
  sampled mosi := by
    unfold bitMoves
    cases hpha : cpha mode <;> cases hpol : cpol mode <;> simp [sampledBits, hpha, hpol]
  clocked := by
    unfold bitMoves
    split <;> simp [Machine.clocked]
  csN := bitMoves_csN mode b false
  sclk := bitMoves_sclk mode b (cpol mode)

theorem carries_bits (mode : BitVec 2) (bits : List Bool) : Carries mode (bits.flatMap (bitMoves mode)) bits := by
  induction bits with
  | nil => exact .nil mode
  | cons b bits ih => exact (carries_bitMoves mode b).append ih

theorem carries_chunkMoves (mode : BitVec 2) (chunk : List Byte) : Carries mode (chunkMoves mode chunk) (chunk.flatMap byteBits) :=
  carries_bits mode _

/-- Chip select held or pulsed between two sub-transfers carries nothing (R212). -/
theorem carries_chunkGap (mode : BitVec 2) (pulsed : Bool) : Carries mode (chunkGap pulsed) [] := by
  cases pulsed with
  | false => exact .nil mode
  | true => exact ⟨fun _ => rfl, ⟨rfl, rfl, trivial⟩, rfl, rfl⟩

theorem carries_chunks (mode : BitVec 2) (pulsed : Bool) (chunks : List (List Byte)) :
    Carries mode ((chunks.map (chunkMoves mode)).intersperse (chunkGap pulsed)).flatten (chunks.flatten.flatMap byteBits) := by
  induction chunks with
  | nil => exact .nil mode
  | cons chunk chunks ih =>
    cases chunks with
    | nil =>
      simpa only [List.map_cons, List.map_nil, List.intersperse, List.flatten_cons, List.flatten_nil, List.append_nil]
        using carries_chunkMoves mode chunk
    | cons next chunks =>
      have hcons := (carries_chunkMoves mode chunk).append ((carries_chunkGap mode pulsed).append ih)
      simpa only [List.map_cons, List.intersperse, List.flatten_cons, List.flatMap_append, List.nil_append] using hcons

/-! ### A whole transfer -/

/-- The body of a transfer, between the two changes of chip select. -/
theorem exists_transferMoves_body (mode : BitVec 2) (pulsed : Bool) {bytes : List Byte} (hne : bytes ≠ []) :
    ∃ body, transferMoves mode pulsed bytes = [.csN false] ++ body ++ [.csN true]
      ∧ Carries mode body (bytes.flatMap byteBits) := by
  have hbody := carries_chunks mode pulsed (subTransfers bytes)
  rw [subTransfers_flatten] at hbody
  exact ⟨_, by rw [transferMoves, List.isEmpty_eq_false_iff.2 hne]; rfl, hbody⟩

/-- A transfer starts and ends with chip select high and SCLK idle, and carries its bytes. -/
structure CarriesTransfer (mode : BitVec 2) (moves : List PinMove) (bits : List Bool) : Prop where
  sampled : ∀ mosi, sampledBits mode mosi moves = bits
  clocked : clocked (cpol mode) true (cpol mode) moves
  csN : levelAfter PinMove.csNLevel true moves = true
  sclk : levelAfter PinMove.sclkLevel (cpol mode) moves = cpol mode

theorem transferMoves_carries (mode : BitVec 2) (pulsed : Bool) (bytes : List Byte) :
    CarriesTransfer mode (transferMoves mode pulsed bytes) (bytes.flatMap byteBits) := by
  by_cases hne : bytes = []
  · subst hne
    exact ⟨fun _ => rfl, trivial, rfl, rfl⟩
  · obtain ⟨body, hmoves, hbody⟩ := exists_transferMoves_body mode pulsed hne
    have hlow : levelAfter PinMove.sclkLevel (cpol mode) ([.csN false] ++ body) = cpol mode := by
      rw [levelAfter_append]
      exact hbody.sclk
    rw [hmoves]
    refine ⟨fun mosi => ?_, ?_, ?_, ?_⟩
    · rw [sampledBits_append, sampledBits_append, hbody.sampled]
      simp [sampledBits]
    · rw [clocked_append, clocked_append, hlow]
      exact ⟨⟨⟨rfl, trivial⟩, hbody.clocked⟩, rfl, trivial⟩
    · rw [levelAfter_append]
      rfl
    · rw [levelAfter_append, hlow]
      rfl

theorem byteBits_length (b : Byte) : (byteBits b).length = 8 := by simp [byteBits]

theorem flatMap_byteBits_length (bytes : List Byte) : (bytes.flatMap byteBits).length = 8 * bytes.length := by
  induction bytes with
  | nil => rfl
  | cons b bytes ih => rw [List.flatMap_cons, List.length_append, byteBits_length, ih, List.length_cons]; omega

/-- SCLK changes 16 times for each byte: it comes back to its level, and every second change is sampled. -/
theorem sclkEdges_transferMoves (mode : BitVec 2) (pulsed : Bool) (bytes : List Byte) :
    sclkEdges (transferMoves mode pulsed bytes) = 16 * bytes.length := by
  have h := transferMoves_carries mode pulsed bytes
  have hlen := h.clocked.sampledBits_length (mode := mode) false
  rw [h.sampled, h.sclk, flatMap_byteBits_length] at hlen
  omega

/-- Settles O50: `transferMoves_carries` says it of every transfer, put together from its bits, sub-transfers and gaps. -/
theorem waveformCarriesTheBytes : Obligations.WaveformCarriesTheBytes := by
  intro mode pulsed mosi bytes
  have h := transferMoves_carries mode pulsed bytes
  refine ⟨h.sampled mosi, sclkEdges_transferMoves mode pulsed bytes, fun b n hn => ?_, fun before level after heq => ?_,
    fun before level after heq => ?_, h.csN, h.sclk⟩
  · simp [byteBits, hn]
  · exact clocked.csN_at_sclk (heq ▸ h.clocked)
  · exact clocked.sclk_at_csN (heq ▸ h.clocked)

/-! ### A transfer that fails -/

theorem sclkEdges_takeEdges (n : Nat) (moves : List PinMove) : sclkEdges (takeEdges n moves) = min n (sclkEdges moves) := by
  induction moves generalizing n with
  | nil => cases n <;> rfl
  | cons m rest ih =>
    cases n with
    | zero => simp [takeEdges]
    | succ n =>
      cases m with
      | mosi level => rw [takeEdges, sclkEdges_cons_mosi, sclkEdges_cons_mosi, ih]
      | csN level => rw [takeEdges, sclkEdges_cons_csN, sclkEdges_cons_csN, ih]
      | sclk level => rw [takeEdges, sclkEdges_cons_sclk, sclkEdges_cons_sclk, ih, Nat.succ_min_succ]

/-- A failed transfer that had a whole number of bytes to make has made a whole number of bytes (R203). -/
theorem sclkEdges_failedMoves {all : List PinMove} (hall : sclkEdges all % 16 = 0) (made more : Nat) :
    sclkEdges (failedMoves all made more) % 16 = 0 := by
  have hsplit : sclkEdges (all.take (made + more)) + sclkEdges (all.drop (made + more)) = sclkEdges all := by
    rw [← sclkEdges_append, List.take_append_drop]
  simp only [failedMoves, sclkEdges_append, sclkEdges_takeEdges]
  omega

/-- Eight bits for each byte. -/
theorem take_flatMap_byteBits (bytes : List Byte) (m : Nat) :
    (bytes.flatMap byteBits).take (8 * m) = (bytes.take m).flatMap byteBits := by
  induction bytes generalizing m with
  | nil => simp
  | cons b bytes ih =>
    cases m with
    | zero => simp
    | succ m =>
      have hbits : 8 * (m + 1) = (byteBits b).length + 8 * m := by rw [byteBits_length]; omega
      rw [List.flatMap_cons, hbits, List.take_length_add_append, ih, List.take_succ_cons, List.flatMap_cons]

/-- The first changes of a transfer with 16 times `m` changes of SCLK among them carry the first `m` bytes and leave SCLK idle. -/
theorem prefix_carries {mode : BitVec 2} {pulsed : Bool} {bytes : List Byte} {sent : List PinMove} {m : Nat}
    (hsent : sent <+: transferMoves mode pulsed bytes) (hedges : sclkEdges sent = 16 * m) (mosi : Bool) :
    sampledBits mode mosi sent = (bytes.take m).flatMap byteBits ∧ levelAfter PinMove.sclkLevel (cpol mode) sent = cpol mode := by
  have h := transferMoves_carries mode pulsed bytes
  obtain ⟨rest, hrest⟩ := hsent
  have hclocked : clocked (cpol mode) true (cpol mode) sent := ((clocked_append _ _ _ _).1 (hrest ▸ h.clocked)).1
  have hidle : levelAfter PinMove.sclkLevel (cpol mode) sent = cpol mode := by
    rw [hclocked.sclk_after, hedges, decide_eq_false (by omega), Bool.xor_false]
  have hlen := hclocked.sampledBits_length (mode := mode) mosi
  rw [hidle, hedges] at hlen
  have hbits : sampledBits mode mosi sent <+: bytes.flatMap byteBits := by
    rw [← h.sampled mosi, ← hrest, sampledBits_append]
    exact List.prefix_append _ _
  refine ⟨?_, hidle⟩
  rw [List.prefix_iff_eq_take.1 hbits, ← take_flatMap_byteBits]
  congr 1
  omega

/-- Chip select is high again after what a failed transfer has sent (R212). -/
theorem levelAfter_raiseCsN (sent : List PinMove) : levelAfter PinMove.csNLevel true (sent ++ raiseCsN sent) = true := by
  rw [levelAfter_append, raiseCsN]
  cases h : levelAfter PinMove.csNLevel true sent <;> simp [PinMove.csNLevel]

/-- Raising chip select clocks nothing. -/
theorem raiseCsN_carries_nothing (mode : BitVec 2) (mosi before : Bool) (sent : List PinMove) :
    sampledBits mode mosi (raiseCsN sent) = [] ∧ levelAfter PinMove.sclkLevel before (raiseCsN sent) = before := by
  unfold raiseCsN
  split <;> exact ⟨rfl, rfl⟩

/-- What a transfer of `bytes` that fails sends in all, by the draw that stands, and chip select high again. -/
def failedSent (cfg : Config) (draws : Nat) (bytes : List Byte) : List PinMove :=
  failedMoves (transferMoves cfg.spiMode cfg.csPulsed bytes) 0 (Config.drawCount draws)

/-- A failed transfer of which no change had been made records what it sends. -/
theorem failXfer_records (dc : Bool) (bytes : List Byte) {s : State}
    (hmoves : s.moves = transferMoves s.cfg.spiMode s.cfg.csPulsed bytes) :
    let sent := failedSent s.cfg s.draws bytes
    (failXfer dc bytes s).wave = s.wave ++ (sent ++ raiseCsN sent)
      ∧ (failXfer dc bytes s).shifted = s.shifted ++ (bytes.take (sclkEdges sent / 16)).map (fun b => ⟨dc, b⟩) := by
  simp only [failXfer, hmoves, Nat.sub_self, List.drop_zero, failedSent, List.append_assoc, busPinsIdle, and_self]

/-- What it sends is the beginning of the transfer, a whole number of bytes, after which the pins are idle. -/
theorem failedSent_carries (cfg : Config) (draws : Nat) (bytes : List Byte) (mosi : Bool) :
    let sent := failedSent cfg draws bytes
    let m := sclkEdges sent / 16
    m ≤ bytes.length
      ∧ sampledBits cfg.spiMode mosi (sent ++ raiseCsN sent) = (bytes.take m).flatMap byteBits
      ∧ levelAfter PinMove.csNLevel true (sent ++ raiseCsN sent) = true
      ∧ levelAfter PinMove.sclkLevel (cpol cfg.spiMode) (sent ++ raiseCsN sent) = cpol cfg.spiMode := by
  intro sent m
  have hall := sclkEdges_transferMoves cfg.spiMode cfg.csPulsed bytes
  have hprefix : sent <+: transferMoves cfg.spiMode cfg.csPulsed bytes := failedMoves_prefix _ _ _
  have hwhole : sclkEdges sent % 16 = 0 := sclkEdges_failedMoves (by omega) _ _
  have hle : sclkEdges sent ≤ 16 * bytes.length := by
    obtain ⟨rest, hrest⟩ := hprefix
    rw [← hall, ← hrest, sclkEdges_append]
    omega
  obtain ⟨hsampled, hidle⟩ := prefix_carries (m := m) hprefix (by omega) mosi
  refine ⟨by omega, ?_, levelAfter_raiseCsN sent, ?_⟩
  · rw [sampledBits_append, (raiseCsN_carries_nothing _ _ true sent).1, List.append_nil, hsampled]
  · rw [levelAfter_append, hidle, (raiseCsN_carries_nothing cfg.spiMode true _ sent).2]

/-- The state in which a transfer's outcome TransferFailed takes effect: the event issued, its changes of level still to be made. -/
def xferAnswered (bytes : List Byte) (ins : List Input) (s : State) : State :=
  { s with
    draws := s.draws + 1, moves := transferMoves s.cfg.spiMode s.cfg.csPulsed bytes
    trace := s.trace ++ [.xfer s.dc.level bytes], outcomes := s.outcomes ++ [.fail .transferFailed], outstanding := none
    inputs := ins }

/-- The outcome TransferFailed ends the transfer and is kept. -/
theorem settleEvent_xfer_fail {s t : State} {bytes : List Byte} (ins : List Input)
    (ht : t = startXfer bytes { s with draws := s.draws + 1 }) :
    settleEvent (.xfer s.dc.level bytes) (.fail .transferFailed) { t with inputs := ins }
      = noteFailure .transferFailed (failXfer s.dc.level bytes (xferAnswered bytes ins s)) := by
  subst ht
  rfl

/-- A transfer that fails raises TransferFailed at the position that stands, and the abort path runs to its end (R203, R305). -/
theorem exec_xfer_fail {s : State} {bytes : List Byte} {ins : List Input} (hb : s.bus.isSome = true) (hh : s.held = none)
    (hi : s.inputs = .answer (.fail .transferFailed) :: (List.replicate (heldCount s + 1) .work ++ ins)) :
    exec (.xfer bytes) s = .next (afterAbort ins (raiseError ⟨.transferFailed, s.pos⟩ (failXfer s.dc.level bytes
      (xferAnswered bytes (List.replicate (heldCount s + 1) .work ++ ins) s)))) := by
  have hstart : perfRequest (.xfer (.const bytes)) s = .done (startXfer bytes { s with draws := s.draws + 1 }) := by
    simp [perfRequest, hb, payloadBytes]
  generalize ht : startXfer bytes { s with draws := s.draws + 1 } = t at hstart
  have hissued : t.held = s.held ∧ t.pos = s.pos ∧ t.outstanding = some (.xfer s.dc.level bytes) ∧ t.inputs = s.inputs := by
    subst ht
    exact ⟨rfl, rfl, rfl, rfl⟩
  obtain ⟨hheld, hpos, hout, hin⟩ := hissued
  have hkept (ins' : List Input) : (settleEvent (.xfer s.dc.level bytes) (.fail .transferFailed) { t with inputs := ins' }).held
      = some ⟨.transferFailed, s.pos⟩ := by
    rw [settleEvent_held, hheld, hpos, hh]
    rfl
  rw [exec, execXfer, engine, runOps_issue_fail hstart hout (hin.trans hi) rfl (hkept _), settleEvent_xfer_fail _ ht.symm,
    raiseError_noteFailure]
  exact runAbort_eq rfl

/-- Settles O31: `failedSent_carries` for the pins, and the abort path for what is raised and released. -/
theorem xferFailure : Obligations.XferFailure := by
  intro s bytes rest hb hh hi
  obtain ⟨hwave, hshifted⟩ := failXfer_records s.dc.level bytes
    (s := xferAnswered bytes (List.replicate (heldCount s + 1) .work ++ rest) s) rfl
  obtain ⟨hm, hcarries⟩ := failedSent_carries s.cfg (s.draws + 1) bytes false
  refine ⟨_, exec_xfer_fail hb hh hi, ⟨_, _, hm, ?shifted, ?wave, hcarries⟩, ?trace, rfl, rfl, rfl, rfl, rfl,
    nothingHeld_afterAbort _ _, rfl, rfl, rfl, rfl⟩
  case shifted => exact hshifted
  case wave => exact hwave
  case trace => exact List.append_assoc s.trace _ (heldReleases s)

end Sys2Proof.Machine
end

section
/-! O19, O21 and O22: PREPARE and RENDER as a whole (spec/46_display_driver.md R281 to R283, R290, R291). -/

namespace Sys2Proof.Machine

open Sys2Proof.Laws.Pipeline

variable {k : State → StepOutcome} {ops : List Op} {s t : State} {ins : List Input}

/-! ### The commands while idle -/

theorem exec_prepare_of_idle (hb : s.busy = false) : exec .prepare s = engine prepareSequence (acceptOperation s) := by
  simp [exec, execPrepare, hb]

theorem exec_render_of_idle (hb : s.busy = false) :
    exec .render s = engine (renderSequence s.cfg) (startRun (acceptOperation s)) := by
  simp [exec, execRender, hb]

/-! ### What PREPARE computes -/

section

variable (hcfg : t.cfg = s.cfg) (hdim : t.srcDim = s.srcDim) (hmem : t.mem = s.mem)

include hcfg hdim hmem

theorem preparedCanvas_congr : preparedCanvas t = preparedCanvas s := by
  simp only [preparedCanvas, srcW, srcH, hcfg, hdim, hmem]

theorem preparedBuffers_congr : preparedBuffers t = preparedBuffers s := by
  simp only [preparedBuffers, preparedCanvas_congr hcfg hdim hmem, srcW, srcH, hcfg, hdim]

/-- A pipeline after nothing but the acceptance of its command computes what the state before it gives. -/
theorem afterPipeline_of_kept (ins : List Input) : afterPipeline ins t = { storeFit (fitRegion (srcW s) (srcH s)) t with
    ct := preparedCanvas s, errAcc := (preparedBuffers s).err, idx := (preparedBuffers s).idx
    mem := memWrite s.mem frameBase (preparedFrame s), inputs := ins } := by
  simp only [afterPipeline, preparedFrame, preparedBuffers_congr hcfg hdim hmem, preparedCanvas_congr hcfg hdim hmem, srcW, srcH, hdim,
    hmem]

end

theorem preparedFrame_length (s : State) : (preparedFrame s).length = 192000 := packFrame_length _

section

variable {frame : List Byte} (hframe : frame.length = 192000)

include hframe

/-- Packing writes no byte outside FRAMEMEM (spec/20_memory.md R65). -/
theorem memRead_packed_outside (m : Memory) {a : Nat} (ha : a < 0x800000 ∨ 0x82EE00 ≤ a) :
    memRead (memWrite m frameBase frame) a = memRead m a :=
  memRead_memWrite_of_not_mem (by rw [hframe, frameBase]; omega)

/-- FRAMEMEM holds the frame once it is packed. -/
theorem memRead_packed (m : Memory) {n : Nat} (hn : n < 192000) :
    memRead (memWrite m frameBase frame) (0x800000 + n) = frame[n]? := by
  have hbelow : frameBase ≤ 0x800000 + n ∧ 0x800000 + n < frameBase + frame.length := by
    rw [hframe, frameBase]
    omega
  have hindex : 0x800000 + n - frameBase = n := by
    rw [frameBase]
    omega
  rw [memRead_memWrite, if_pos hbelow, hindex]

end

/-- Settles O19: the pipeline completes (`runOps_pipeline_ok`), and the end of the operation follows it. -/
theorem prepareCompletes : Obligations.PrepareCompletes := by
  intro s rest hb hs hi
  have hlen := preparedFrame_length s
  refine ⟨fun a ha => memRead_packed_outside hlen _ ha, fun n hn => memRead_packed hlen _ hn, ?_⟩
  have hpipeline := runOps_pipeline_ok (k := runAbort) (rest := [.gate, .finish true]) (s := acceptOperation s)
    (ins := .work :: rest) (by exact hs) (by exact hi)
  rw [afterPipeline_of_kept (s := s) (t := acceptOperation s) rfl rfl rfl] at hpipeline
  rw [exec_prepare_of_idle hb, engine, prepareSequence, hpipeline, runOps_gate (ins := rest) rfl,
    runOps_ended (t := finishOperation true _) rfl]
  simp only [finishOperation, acceptOperation, clearForCommand, storeFit, Bool.not_true]

/-! ### A source word that nothing has written -/

theorem unwrittenWord_eq_some {m : Memory} {n w : Nat} (hw : w < n) (hnone : memReadWord m (0x100000 + 4 * w) = none)
    (hfirst : ∀ j, j < w → memReadWord m (0x100000 + 4 * j) ≠ none) : unwrittenWord m n = some w := by
  rw [unwrittenWord, List.find?_range_eq_some]
  refine ⟨?_, List.mem_range.2 hw, fun j hj => ?_⟩
  · rw [srcAddr, srcBase, hnone]
    rfl
  · have hsome := hfirst j hj
    simpa [srcAddr, srcBase, Option.isSome_iff_ne_none] using hsome

/-- The pipeline faults on the first unwritten word once it comes to resampling (spec/10_state.md R48). -/
theorem runOps_pipeline_unwritten {w : Nat} (hs : sourceLegal s) (hu : unwrittenWord s.mem (srcW s * srcH s) = some w)
    (hi : s.inputs = List.replicate 4 .work ++ ins) : runOps k (pipelineSequence ++ ops) s = .fault (.unwrittenSource w) := by
  have hdim (u : State) (hc : u.cfg = s.cfg) (hd : u.srcDim = s.srcDim) : perform .dimensionCheck u = .done u := by
    have hlegal : dimensionError u.cfg.srcmemWords (srcW u) (srcH u) = none := by
      rw [srcW, srcH, hc, hd]
      exact (dimensionError_eq_none _ _ _).2 hs
    rw [perform, perfDimensionCheck, hlegal]
  have hresample (u : State) (hm : u.mem = s.mem) (hd : u.srcDim = s.srcDim) :
      perform .resample u = .fault (.unwrittenSource w) := by
    have hword : unwrittenWord u.mem (srcW u * srcH u) = some w := by
      rw [srcW, srcH, hm, hd]
      exact hu
    rw [perform, perfResample, hword]
  change runOps k (.gate :: .dimensionCheck :: .gate :: .fit :: .gate :: .background :: .gate :: .resample
    :: ([.gate, .dither, .gate, .pack] ++ ops)) s = _
  rw [runOps_gate (ins := .work :: .work :: .work :: ins) hi, runOps_done (hdim _ (by exact rfl) (by exact rfl)),
    runOps_gate (ins := .work :: .work :: ins) (by exact rfl), runOps_done (perform_fit _),
    runOps_gate (ins := .work :: ins) (by exact rfl), runOps_done (by exact rfl), runOps_gate (ins := ins) (by exact rfl)]
  exact runOps_fault (hresample _ (by exact rfl) (by exact rfl))

/-- Settles O21: both operations start with the pipeline. -/
theorem unwrittenSourceFaults : Obligations.UnwrittenSourceFaults := by
  intro s w rest hb hs hw hnone hfirst hi
  have hu := unwrittenWord_eq_some hw hnone hfirst
  refine ⟨?_, ?_⟩
  · rw [exec_prepare_of_idle hb]
    exact runOps_pipeline_unwritten (s := acceptOperation s) hs hu hi
  · rw [exec_render_of_idle hb, renderSequence]
    simp only [List.append_assoc]
    exact runOps_pipeline_unwritten (s := startRun (acceptOperation s)) hs hu hi

/-! ### RENDER -/

theorem renderTrace_length (cfg : Config) (frame : List Byte) : (renderTrace cfg frame).length = 106 := rfl

theorem calmInputs_append (a b : List Op) : calmInputs (a ++ b) = calmInputs a ++ calmInputs b := List.flatMap_append

/-- The parts of a run's inputs. -/
theorem calmInputs_renderSequence (cfg : Config) (rest : List Input) : calmInputs (renderSequence cfg) ++ rest
    = calmInputs pipelineSequence ++ (calmInputs acquireSequence ++ (.work :: (calmInputs resetSequence
      ++ (calmInputs (initSequence cfg) ++ (calmInputs (paintSequence cfg) ++ (calmInputs releaseSequence ++ rest)))))) := by
  have hgate : calmInputs [.gate, .setAct .protocol] = [.work] := rfl
  rw [renderSequence, calmInputs_append, calmInputs_append, calmInputs_append, calmInputs_append, calmInputs_append,
    calmInputs_append, hgate]
  simp only [List.append_assoc, List.cons_append, List.nil_append]

/-- The state after a run whose pipeline has packed `frame`: acquisition, reset, init, paint and release, every outcome ok. -/
def afterRun (frame : List Byte) (ins : List Input) (s : State) : State :=
  { s with
    busy := false, statusDone := true, statusErr := false, pstate := .settled, stepIx := 0, act := .idle
    bus := none, rst := .released, dc := .released
    pinSclk := .undriven, pinMosi := .undriven, pinCsN := .undriven, pinRst := .undriven, pinDc := .undriven, dly := 0
    trace := s.trace ++ renderTrace s.cfg frame, outcomes := s.outcomes ++ List.replicate 96 .ok
    shifted := s.shifted ++ (runCommands s.cfg frame).flatMap frameCommand
    wave := s.wave ++ traceWave s.cfg (renderTrace s.cfg frame), moves := []
    pos := ⟨.paint, 3, 3⟩, outstanding := none, todo := [], inputs := ins, draws := s.draws + 91 }

/-- Only the transfers of a run move the bus pins, and they are in its init and paint sequences. -/
theorem traceWave_renderTrace (cfg : Config) (frame : List Byte) : traceWave cfg (renderTrace cfg frame)
    = traceWave cfg ((List.finRange 19).flatMap (initTrace cfg)) ++ traceWave cfg ((List.finRange 4).flatMap (paintTrace cfg frame)) := by
  have happend (a b : List WireEvent) : traceWave cfg (a ++ b) = traceWave cfg a ++ traceWave cfg b := List.flatMap_append
  have hacquire : traceWave cfg (acquireTrace cfg) = [] := by simp [acquireTrace, traceWave, eventWave]
  have hreset : traceWave cfg resetTrace = [] := by simp [resetTrace, traceWave, eventWave]
  have hrelease : traceWave cfg releaseTrace = [] := by simp [releaseTrace, traceWave, eventWave]
  rw [renderTrace, happend, happend, happend, happend, hacquire, hreset, hrelease, List.append_nil, List.append_nil,
    List.nil_append]

/-- The bytes of a run are those of its init steps and its paint steps. -/
theorem runCommands_flatMap (cfg : Config) (frame : List Byte) : (runCommands cfg frame).flatMap frameCommand
    = (List.finRange 19).flatMap (fun m => frameCommand ⟨cfg.initSequence[m].op, initData cfg m⟩)
      ++ ([⟨cfg.opDtm, frame⟩, ⟨cfg.opPon, []⟩, ⟨cfg.opDrf, [cfg.drfData]⟩, ⟨cfg.opPof, [cfg.pofData]⟩]
        : List WireCommand).flatMap frameCommand := by
  rw [runCommands, List.flatMap_append, List.flatMap_map]

/-- What the sequences of a run come to, one after the other. -/
theorem afterRelease_eq_afterRun (frame : List Byte) (i1 i2 i3 i4 : List Input) :
    afterRelease true ins (afterPaint frame i4 (afterInit i3 (afterReset i2 { afterAcquire i1 s with act := .protocol })))
      = afterRun frame ins s := by
  have houtcomes : [Answer.ok, Answer.ok, Answer.ok] ++ ([Answer.ok, Answer.ok, Answer.ok, Answer.ok]
      ++ (List.replicate 76 Answer.ok ++ List.replicate 13 Answer.ok)) = List.replicate 96 Answer.ok := rfl
  rw [afterRun, traceWave_renderTrace, runCommands_flatMap, renderTrace]
  simp only [afterRelease, afterPaint, afterInit, afterReset, afterAcquire, List.append_assoc, Nat.add_assoc, Nat.reduceAdd,
    houtcomes, Bool.not_true]

/-- The run after its pipeline, with the frame in FRAMEMEM. -/
theorem runOps_run_ok {cfg : Config} {frame : List Byte} {m : Memory} (hg : s.cfg = cfg) (hh : s.held = none)
    (hframe : frame.length = frameBytes) (hm : s.mem = memWrite m frameBase frame)
    (hi : s.inputs = calmInputs acquireSequence ++ (.work :: (calmInputs resetSequence ++ (calmInputs (initSequence cfg)
      ++ (calmInputs (paintSequence cfg) ++ (calmInputs releaseSequence ++ ins)))))) :
    runOps k (acquireSequence ++ (.gate :: .setAct .protocol :: (resetSequence ++ (initSequence cfg ++ (paintSequence cfg
      ++ releaseSequence))))) s = .next (afterRun frame ins s) := by
  subst hg
  have hbytes (n : Nat) : bytesOrDraw s.mem n frameBase frameBytes = frame := by
    rw [hm, ← hframe, bytesOrDraw_memWrite]
  generalize h5 : calmInputs releaseSequence ++ ins = i5 at hi
  generalize h4 : calmInputs (paintSequence s.cfg) ++ i5 = i4 at hi
  generalize h3 : calmInputs (initSequence s.cfg) ++ i4 = i3 at hi
  generalize h2 : calmInputs resetSequence ++ i3 = i2 at hi
  have hreset := runOps_reset_ok (k := k) (rest := initSequence s.cfg ++ (paintSequence s.cfg ++ releaseSequence))
    (s := { afterAcquire (.work :: i2) s with act := .protocol, inputs := i2 }) rfl rfl hh h2.symm
  have hinit := runOps_init_ok (k := k) (rest := paintSequence s.cfg ++ releaseSequence) (cfg := s.cfg)
    (s := afterReset i3 { afterAcquire (.work :: i2) s with act := .protocol, inputs := i2 }) rfl rfl rfl hh h3.symm
  have hpaint := runOps_paint_ok (k := k) (rest := releaseSequence) (cfg := s.cfg)
    (s := afterInit i4 (afterReset i3 { afterAcquire (.work :: i2) s with act := .protocol, inputs := i2 })) rfl (hbytes _) rfl
    rfl hh h4.symm
  have hrelease := runOps_release_ok (k := k) (ins := ins) (s := afterPaint frame i5 (afterInit i4 (afterReset i3
    { afterAcquire (.work :: i2) s with act := .protocol, inputs := i2 }))) h5.symm
  rw [runOps_acquire_ok hh hi, runOps_gate (ins := i2) rfl]
  exact (runOps_done rfl).trans (hreset.trans (hinit.trans (hpaint.trans (hrelease.trans
    (congrArg Host.Outcome.next (afterRelease_eq_afterRun frame _ _ _ _))))))

/-- RENDER's parts. -/
theorem renderSequence_eq (cfg : Config) : renderSequence cfg = pipelineSequence ++ (acquireSequence
    ++ (.gate :: .setAct .protocol :: (resetSequence ++ (initSequence cfg ++ (paintSequence cfg ++ releaseSequence))))) := by
  rw [renderSequence]
  simp only [List.append_assoc, List.cons_append, List.nil_append]

/-- A run is its pipeline and what follows it. -/
theorem exec_render_ok (hb : s.busy = false) (hs : sourceReady s) (hi : s.inputs = calmInputs (renderSequence s.cfg) ++ ins) :
    exec .render s = .next (afterRun (preparedFrame s) ins (afterPipeline [] (startRun (acceptOperation s)))) := by
  rw [calmInputs_renderSequence] at hi
  have hpipeline := runOps_pipeline_ok (k := runAbort) (s := startRun (acceptOperation s)) (rest := acquireSequence
    ++ (.gate :: .setAct .protocol :: (resetSequence ++ (initSequence s.cfg ++ (paintSequence s.cfg ++ releaseSequence)))))
    (by exact hs) (by exact hi)
  have hkept := fun i => afterPipeline_of_kept (s := s) (t := startRun (acceptOperation s)) rfl rfl rfl i
  rw [hkept] at hpipeline
  rw [exec_render_of_idle hb, engine, renderSequence_eq, hpipeline, hkept]
  rw [runOps_run_ok (frame := preparedFrame s) (m := s.mem) (ins := ins) (by exact rfl) (by exact rfl) (preparedFrame_length s)
    (by exact rfl) (by exact rfl)]
  simp only [afterRun]

/-- STATUS after a run: DONE, and PSTATE SETTLED (spec/10_state.md R24). -/
theorem statusWord_afterRun (frame : List Byte) (ho : s.overrun = false) : statusWord (afterRun frame ins s) = 0x00000042 := by
  simp only [statusWord, afterRun, ho, LineState.released, Option.isSome_none]
  decide

/-- Settles O22: the run's parts one after the other (`exec_render_ok`), with the frame that the pipeline packed. -/
theorem renderCompletes : Obligations.RenderCompletes := by
  intro s rest hb hs hi
  have hlen := preparedFrame_length s
  have hexec := exec_render_ok hb hs hi
  have hoverrun : (afterPipeline [] (startRun (acceptOperation s))).overrun = false := rfl
  have hstatus := statusWord_afterRun (ins := rest) (preparedFrame s) hoverrun
  rw [afterPipeline_of_kept (s := s) (t := startRun (acceptOperation s)) rfl rfl rfl] at hexec hstatus
  refine ⟨_, hexec, hstatus, fun a ha => memRead_packed_outside hlen _ ha, renderTrace_length _ _, ?_⟩
  simp only [afterRun, startRun, acceptOperation, clearForCommand, storeFit]

end Sys2Proof.Machine
end
